-- ==== Sys2Proof/Word.lean ====
section
/-!
DEFINITION. The word types: what the spec treats as bits.
-/
namespace Sys2Proof

/-- A byte of memory or of the instruction stream (20_memory.md R35). -/
abbrev Byte := BitVec 8

/-- A 64-bit quantity: a general register, RIP, a linear address (10_state.md R22, R24; 20_memory.md R35). -/
abbrev Word := BitVec 64

end Sys2Proof
end

