-- ==== Sys2Proof/Config.lean ====
section
/-!
DEFINITION. What an implementation fixes (00_scope.md R5, R6) and the free values the spec leaves open.

The other open parameters of R6 (feature flags, OS enables, `Accessible`, `Fetchable`, `FAULT_SUPPRESSION`,
`FS_BASE`, `GS_BASE`, `VA_BITS`) are plain data that a claim quantifies over: fields of
`Sys2Proof.Machine.State` that no step writes (log 1).
-/
namespace Sys2Proof.Config

/-- What `MAXVL`, the width in bits of a full vector register, may be (R5, decision D3): at least the largest vector
length, and a whole number of 128-bit blocks. -/
structure MaxVL where
  bits : Nat
  atLeast512 : 512 ≤ bits
  wholeBlocks : bits % 128 = 0
deriving DecidableEq, Repr

/-- The configuration field: the width R5 and D3 set, 512 (log 10). Another width is another value here: no definition
or lemma outside the tests uses more of it than the constraint of `MaxVL`. -/
def fullRegister : MaxVL where
  bits := 512
  atLeast512 := by decide
  wholeBlocks := by decide

/-- `MAXVL` (R5). -/
abbrev maxVL : Nat := fullRegister.bits

/-- `NVEC`, the number of vector registers (R6, R17; DESIGN CHOICE of the spec's D4, log 10). -/
abbrev nvec : Nat := 32

/-- `NK`, the number of opmask registers (R6, R20; log 10). -/
abbrev nk : Nat := 8

/-- `KW`, the width of an opmask register (R6, R20; log 10). -/
abbrev kw : Nat := 64

/-- `NGPR`, the number of general registers (R6, R22; log 10). -/
abbrev ngpr : Nat := 16

/-- The most bytes an instruction may have (30_encoding.md R56). -/
abbrev maxInstrLen : Nat := 15

/-- FREE VALUE (log 6). Which of several applicable memory-operand faults is reported: 60_exceptions.md R120
makes the choice a draw. The argument is the state's `draw`. -/
opaque memFaultDraw : Nat → Nat

/-- FREE VALUE (log 7). The bits of a data page fault's error code that the page tables decide
(60_exceptions.md R117: P, RSVD, PK). Arguments: the state's `draw` and the faulting address. -/
opaque dataFaultBits : Nat → Word → BitVec 6

/-- FREE VALUE (log 7). The error code of a page fault on a code byte: the spec gives none of its bits
(60_exceptions.md R120 names the fault, R117 the bits of a data access only). -/
opaque fetchFaultBits : Nat → Word → BitVec 6

end Sys2Proof.Config
end

