-- ==== Sys2Proof/Syntax.lean ====
section
/-!
DEFINITION. The decoded forms of 30_encoding.md R81: one constructor of `Instr` per row of
spec/opcode_table.json, each with its length `len` in bytes ("together with `len`").
-/
namespace Sys2Proof

/-- A vector register number 0..31 (10_state.md R17). -/
abbrev VReg := Fin Config.nvec

/-- A vector register number a legacy or VEX form can name, 0..15 (10_state.md R19). -/
abbrev LoReg := Fin 16

/-- A general register number 0..15, in the numbering of 10_state.md R22. -/
abbrev Gpr := Fin Config.ngpr

/-- An opmask register number 0..7 (10_state.md R20); a writemask is never 0 (see WellFormed). -/
abbrev KReg := Fin Config.nk

/-- The segment in force for a memory operand (20_memory.md R43). -/
inductive Seg where
  | ds | ss | fs | gs
deriving DecidableEq, Repr

/-- `AddrForm` of R81: the addressing form of a memory operand. `disp` is already sign-extended and, for an
EVEX disp8, already multiplied by N; the index is shifted left by `scale`. -/
structure AddrForm where
  seg : Seg
  base : Option Gpr
  index : Option Gpr
  scale : Fin 4
  disp : Word
  ripRel : Bool
deriving DecidableEq, Repr

/-- Second source of a legacy or VEX form: `Reg(0..15) | Mem` of R81. -/
inductive RegMem where
  | reg (n : LoReg)
  | mem (ea : AddrForm)
deriving DecidableEq, Repr

/-- `Src2` of R81: second source of an EVEX form. -/
inductive Src2 where
  | reg (n : VReg)
  | mem (ea : AddrForm)
  | bcst (ea : AddrForm)
deriving DecidableEq, Repr

/-- `Mask` of R81: no writemask, merging-masking, zeroing-masking (30_encoding.md R73). -/
inductive Mask where
  | noMask
  | merge (k : KReg)
  | zero (k : KReg)
deriving DecidableEq, Repr

/-- The nine in-scope forms (00_scope.md R3), in the order of the opcode table. -/
inductive Instr where
  /-- `66 0F 38 40 /r PMULLD xmm1, xmm2/m128` (41_pmulld_legacy_sse.md R97). -/
  | pmulldSse (dst : LoReg) (src : RegMem) (len : Nat)
  /-- `VEX.NDS.128.66.0F38.WIG 40 /r VPMULLD xmm1, xmm2, xmm3/m128` (42_vpmulld_vex.md R98). -/
  | vpmulldVex128 (dst src1 : LoReg) (src2 : RegMem) (len : Nat)
  /-- `VEX.NDS.256.66.0F38.WIG 40 /r VPMULLD ymm1, ymm2, ymm3/m256` (42_vpmulld_vex.md R99). -/
  | vpmulldVex256 (dst src1 : LoReg) (src2 : RegMem) (len : Nat)
  /-- `EVEX.NDS.128.66.0F38.W0 40 /r VPMULLD` (43_vpmulld_evex.md R100). -/
  | vpmulldEvex128 (dst src1 : VReg) (mask : Mask) (src2 : Src2) (len : Nat)
  /-- `EVEX.NDS.256.66.0F38.W0 40 /r VPMULLD` (43_vpmulld_evex.md R101). -/
  | vpmulldEvex256 (dst src1 : VReg) (mask : Mask) (src2 : Src2) (len : Nat)
  /-- `EVEX.NDS.512.66.0F38.W0 40 /r VPMULLD` (43_vpmulld_evex.md R102). -/
  | vpmulldEvex512 (dst src1 : VReg) (mask : Mask) (src2 : Src2) (len : Nat)
  /-- `EVEX.NDS.128.66.0F38.W1 40 /r VPMULLQ` (44_vpmullq_evex.md R103). -/
  | vpmullqEvex128 (dst src1 : VReg) (mask : Mask) (src2 : Src2) (len : Nat)
  /-- `EVEX.NDS.256.66.0F38.W1 40 /r VPMULLQ` (44_vpmullq_evex.md R104). -/
  | vpmullqEvex256 (dst src1 : VReg) (mask : Mask) (src2 : Src2) (len : Nat)
  /-- `EVEX.NDS.512.66.0F38.W1 40 /r VPMULLQ` (44_vpmullq_evex.md R105). -/
  | vpmullqEvex512 (dst src1 : VReg) (mask : Mask) (src2 : Src2) (len : Nat)
deriving DecidableEq, Repr

/-- A register 0..15 as one of the 32 vector registers (10_state.md R18: one register file). -/
def LoReg.toVReg (n : LoReg) : VReg := Fin.castLE (by decide) n

/-- The second source of a legacy or VEX form as a `Src2`. -/
def RegMem.toSrc2 : RegMem → Src2
  | .reg n => .reg n.toVReg
  | .mem ea => .mem ea

/-- `len` of an instruction (R81). -/
def Instr.len : Instr → Nat
  | .pmulldSse _ _ len => len
  | .vpmulldVex128 _ _ _ len => len
  | .vpmulldVex256 _ _ _ len => len
  | .vpmulldEvex128 _ _ _ _ len => len
  | .vpmulldEvex256 _ _ _ _ len => len
  | .vpmulldEvex512 _ _ _ _ len => len
  | .vpmullqEvex128 _ _ _ _ len => len
  | .vpmullqEvex256 _ _ _ _ len => len
  | .vpmullqEvex512 _ _ _ _ len => len

/-- The same operands with another length: the same instruction with other redundant prefixes (30_encoding.md R57). -/
def Instr.withLen (n : Nat) : Instr → Instr
  | .pmulldSse dst src _ => .pmulldSse dst src n
  | .vpmulldVex128 dst src1 src2 _ => .vpmulldVex128 dst src1 src2 n
  | .vpmulldVex256 dst src1 src2 _ => .vpmulldVex256 dst src1 src2 n
  | .vpmulldEvex128 dst src1 mask src2 _ => .vpmulldEvex128 dst src1 mask src2 n
  | .vpmulldEvex256 dst src1 mask src2 _ => .vpmulldEvex256 dst src1 mask src2 n
  | .vpmulldEvex512 dst src1 mask src2 _ => .vpmulldEvex512 dst src1 mask src2 n
  | .vpmullqEvex128 dst src1 mask src2 _ => .vpmullqEvex128 dst src1 mask src2 n
  | .vpmullqEvex256 dst src1 mask src2 _ => .vpmullqEvex256 dst src1 mask src2 n
  | .vpmullqEvex512 dst src1 mask src2 _ => .vpmullqEvex512 dst src1 mask src2 n

/-- The vector register an instruction writes (10_state.md R19). -/
def Instr.dst : Instr → VReg
  | .pmulldSse dst _ _ => dst.toVReg
  | .vpmulldVex128 dst _ _ _ => dst.toVReg
  | .vpmulldVex256 dst _ _ _ => dst.toVReg
  | .vpmulldEvex128 dst _ _ _ _ => dst
  | .vpmulldEvex256 dst _ _ _ _ => dst
  | .vpmulldEvex512 dst _ _ _ _ => dst
  | .vpmullqEvex128 dst _ _ _ _ => dst
  | .vpmullqEvex256 dst _ _ _ _ => dst
  | .vpmullqEvex512 dst _ _ _ _ => dst

/-- The vector register holding the first source; for the legacy form it is the destination (10_state.md R19). -/
def Instr.firstSource : Instr → VReg
  | .pmulldSse dst _ _ => dst.toVReg
  | .vpmulldVex128 _ src1 _ _ => src1.toVReg
  | .vpmulldVex256 _ src1 _ _ => src1.toVReg
  | .vpmulldEvex128 _ src1 _ _ _ => src1
  | .vpmulldEvex256 _ src1 _ _ _ => src1
  | .vpmulldEvex512 _ src1 _ _ _ => src1
  | .vpmullqEvex128 _ src1 _ _ _ => src1
  | .vpmullqEvex256 _ src1 _ _ _ => src1
  | .vpmullqEvex512 _ src1 _ _ _ => src1

/-- The second source (30_encoding.md R81). -/
def Instr.secondSource : Instr → Src2
  | .pmulldSse _ src _ => src.toSrc2
  | .vpmulldVex128 _ _ src2 _ => src2.toSrc2
  | .vpmulldVex256 _ _ src2 _ => src2.toSrc2
  | .vpmulldEvex128 _ _ _ src2 _ => src2
  | .vpmulldEvex256 _ _ _ src2 _ => src2
  | .vpmulldEvex512 _ _ _ src2 _ => src2
  | .vpmullqEvex128 _ _ _ src2 _ => src2
  | .vpmullqEvex256 _ _ _ src2 _ => src2
  | .vpmullqEvex512 _ _ _ src2 _ => src2

/-- The writemask; the legacy and VEX forms have none (40_common_lane_semantics.md R90). -/
def Instr.writemask : Instr → Mask
  | .pmulldSse _ _ _ => .noMask
  | .vpmulldVex128 _ _ _ _ => .noMask
  | .vpmulldVex256 _ _ _ _ => .noMask
  | .vpmulldEvex128 _ _ mask _ _ => mask
  | .vpmulldEvex256 _ _ mask _ _ => mask
  | .vpmulldEvex512 _ _ mask _ _ => mask
  | .vpmullqEvex128 _ _ mask _ _ => mask
  | .vpmullqEvex256 _ _ mask _ _ => mask
  | .vpmullqEvex512 _ _ mask _ _ => mask

/-- `N`, the element width of the row (40_common_lane_semantics.md R88). -/
def Instr.elemBits : Instr → Nat
  | .pmulldSse _ _ _ => 32
  | .vpmulldVex128 _ _ _ _ => 32
  | .vpmulldVex256 _ _ _ _ => 32
  | .vpmulldEvex128 _ _ _ _ _ => 32
  | .vpmulldEvex256 _ _ _ _ _ => 32
  | .vpmulldEvex512 _ _ _ _ _ => 32
  | .vpmullqEvex128 _ _ _ _ _ => 64
  | .vpmullqEvex256 _ _ _ _ _ => 64
  | .vpmullqEvex512 _ _ _ _ _ => 64

/-- `VL`, the vector length of the row in bits (00_scope.md R10). -/
def Instr.vecLen : Instr → Nat
  | .pmulldSse _ _ _ => 128
  | .vpmulldVex128 _ _ _ _ => 128
  | .vpmulldVex256 _ _ _ _ => 256
  | .vpmulldEvex128 _ _ _ _ _ => 128
  | .vpmulldEvex256 _ _ _ _ _ => 256
  | .vpmulldEvex512 _ _ _ _ _ => 512
  | .vpmullqEvex128 _ _ _ _ _ => 128
  | .vpmullqEvex256 _ _ _ _ _ => 256
  | .vpmullqEvex512 _ _ _ _ _ => 512

/-- `KL`, the number of lanes (00_scope.md R10). -/
def Instr.lanes (i : Instr) : Nat := i.vecLen / i.elemBits

/-- The row is the legacy SSE form. -/
def Instr.isLegacy : Instr → Bool
  | .pmulldSse _ _ _ => true
  | .vpmulldVex128 _ _ _ _ => false
  | .vpmulldVex256 _ _ _ _ => false
  | .vpmulldEvex128 _ _ _ _ _ => false
  | .vpmulldEvex256 _ _ _ _ _ => false
  | .vpmulldEvex512 _ _ _ _ _ => false
  | .vpmullqEvex128 _ _ _ _ _ => false
  | .vpmullqEvex256 _ _ _ _ _ => false
  | .vpmullqEvex512 _ _ _ _ _ => false

end Sys2Proof
end

