-- ==== Sys2Proof/WellFormed.lean ====
section
/-!
DEFINITION. Which terms of `Instr` stand for an encoding: the addressing forms and masks that 30_encoding.md can
spell, and the lengths an encoding of the operands can have.
-/
namespace Sys2Proof

/-- The default segment of a base register: SS for RSP (4) and RBP (5), DS otherwise (20_memory.md R43). -/
def defaultSeg : Option Gpr → Seg
  | some b => if b.val = 4 ∨ b.val = 5 then .ss else .ds
  | none => .ds

/-- `disp` is a sign-extended disp32 (30_encoding.md R62). -/
def dispFits32 (disp : Word) : Bool :=
  (disp.setWidth 32).signExtend 64 == disp

/-- The disp8 that stands for `disp` under the scaling factor `n`, if there is one (30_encoding.md R62, R70). -/
def disp8Of (n : Nat) (disp : Word) : Option Byte :=
  let d := (disp.sdiv (BitVec.ofNat 64 n)).setWidth 8
  if d.signExtend 64 * BitVec.ofNat 64 n = disp then some d else none

/-- The addressing forms 30_encoding.md R60 to R64 can spell: index number 4 is "no index" (R61); without an index
the scale bits mean nothing and are kept 0 (log 21); RIP-relative has neither base nor index (R64); the
displacement is a sign-extended disp32 (R62; every scaled disp8 is one too); the segment is the default of
20_memory.md R43 unless FS or GS overrides it. -/
def AddrForm.wellFormed (ea : AddrForm) : Bool :=
  ea.index != some 4
    && (ea.index.isSome || ea.scale == 0)
    && (!ea.ripRel || (ea.base.isNone && ea.index.isNone))
    && dispFits32 ea.disp
    && (ea.seg == .fs || ea.seg == .gs || ea.seg == defaultSeg ea.base)

def RegMem.wellFormed : RegMem → Bool
  | .reg _ => true
  | .mem ea => ea.wellFormed

def Src2.wellFormed : Src2 → Bool
  | .reg _ => true
  | .mem ea => ea.wellFormed
  | .bcst ea => ea.wellFormed

/-- A writemask names k1..k7 (30_encoding.md R73). -/
def Mask.wellFormed : Mask → Bool
  | .noMask => true
  | .merge k => k != 0
  | .zero k => k != 0

/-- A 64h or 65h prefix is needed (30_encoding.md R57). -/
def AddrForm.segLen (ea : AddrForm) : Nat :=
  if ea.seg = .fs ∨ ea.seg = .gs then 1 else 0

/-- A SIB byte is needed: an index, no base, or a base whose low three bits are 100b (30_encoding.md R60, R61). -/
def AddrForm.needsSib (ea : AddrForm) : Bool :=
  !ea.ripRel && (ea.index.isSome || ea.base.isNone || ea.base.any (fun b => b.val % 8 = 4))

/-- The size of the displacement: none, disp8 or disp32 (30_encoding.md R60, R61, R64). A base whose low three bits
are 101b has no form without a displacement. -/
def AddrForm.dispLen (n : Nat) (ea : AddrForm) : Nat :=
  match ea.base with
  | none => 4
  | some b => if ea.disp = 0 ∧ b.val % 8 ≠ 5 then 0 else if (disp8Of n ea.disp).isSome then 1 else 4

/-- Bytes an addressing form adds to the instruction: segment prefix, SIB, displacement. -/
def AddrForm.extraLen (n : Nat) (ea : AddrForm) : Nat :=
  ea.segLen + (if ea.needsSib then 1 else 0) + ea.dispLen n

/-- Some register number of the legacy form has bit 3 set, so a REX byte is needed (30_encoding.md R58). -/
def needsRex (dst : LoReg) : RegMem → Bool
  | .reg n => 8 ≤ dst.val || 8 ≤ n.val
  | .mem ea => 8 ≤ dst.val || ea.base.any (8 ≤ ·.val) || ea.index.any (8 ≤ ·.val)

/-- The scaling factor N of an EVEX disp8, tuple type Full (30_encoding.md R70). -/
def evexDisp8Scale (elemBits vl : Nat) (bcst : Bool) : Nat :=
  if bcst then elemBits / 8 else vl / 8

def RegMem.extraLen : RegMem → Nat
  | .reg _ => 0
  | .mem ea => ea.extraLen 1

def Src2.extraLen (elemBits vl : Nat) : Src2 → Nat
  | .reg _ => 0
  | .mem ea => ea.extraLen (evexDisp8Scale elemBits vl false)
  | .bcst ea => ea.extraLen (evexDisp8Scale elemBits vl true)

/-- The length of the shortest encoding of the operands (30_encoding.md R56). -/
def Instr.minLen : Instr → Nat
  | .pmulldSse dst src _ => 5 + (if needsRex dst src then 1 else 0) + src.extraLen
  | .vpmulldVex128 _ _ src2 _ => 5 + src2.extraLen
  | .vpmulldVex256 _ _ src2 _ => 5 + src2.extraLen
  | .vpmulldEvex128 _ _ _ src2 _ => 6 + src2.extraLen 32 128
  | .vpmulldEvex256 _ _ _ src2 _ => 6 + src2.extraLen 32 256
  | .vpmulldEvex512 _ _ _ src2 _ => 6 + src2.extraLen 32 512
  | .vpmullqEvex128 _ _ _ src2 _ => 6 + src2.extraLen 64 128
  | .vpmullqEvex256 _ _ _ src2 _ => 6 + src2.extraLen 64 256
  | .vpmullqEvex512 _ _ _ src2 _ => 6 + src2.extraLen 64 512

def Instr.operandsWellFormed : Instr → Bool
  | .pmulldSse _ src _ => src.wellFormed
  | .vpmulldVex128 _ _ src2 _ => src2.wellFormed
  | .vpmulldVex256 _ _ src2 _ => src2.wellFormed
  | .vpmulldEvex128 _ _ mask src2 _ => mask.wellFormed && src2.wellFormed
  | .vpmulldEvex256 _ _ mask src2 _ => mask.wellFormed && src2.wellFormed
  | .vpmulldEvex512 _ _ mask src2 _ => mask.wellFormed && src2.wellFormed
  | .vpmullqEvex128 _ _ mask src2 _ => mask.wellFormed && src2.wellFormed
  | .vpmullqEvex256 _ _ mask src2 _ => mask.wellFormed && src2.wellFormed
  | .vpmullqEvex512 _ _ mask src2 _ => mask.wellFormed && src2.wellFormed

/-- Operands an encoding can spell, and a length between the shortest encoding and 15 bytes (30_encoding.md R56):
redundant prefixes fill the difference (R57). -/
def Instr.wellFormed (i : Instr) : Bool :=
  i.operandsWellFormed && decide (i.minLen ≤ i.len) && decide (i.len ≤ Config.maxInstrLen)

end Sys2Proof
end

