-- ==== Sys2Proof/Decode.lean ====
section
/-!
DEFINITION. The byte decoder of 30_encoding.md R53 to R79, in 64-bit mode, and the encoder written from the same tables.
-/
namespace Sys2Proof

/-- Why bytes have no meaning in this model (30_encoding.md R77, R79: "refuse"). -/
inductive Reject where
  /-- The bytes are another instruction, or one the spec does not name (R77, R79; 00_scope.md R4). -/
  | notThisFamily
  /-- `0F 38 40` with no 66h prefix (R79, decision D14). -/
  | noOperandSizePrefix
  /-- F2h or F3h with `0F 38 40` (R79, decision D14). -/
  | repeatPrefix
  /-- A 67h address-size prefix (R57, R79, decision D25). -/
  | addressSizePrefix
  /-- More than 15 bytes (R56, R79, decision D23). -/
  | tooLong
deriving DecidableEq, Repr

/-- What the bytes at `pc` are. -/
inductive Decoded where
  /-- An in-scope instruction. -/
  | ok (i : Instr)
  /-- An invalid opcode: the conditions of 60_exceptions.md R112, R113. -/
  | ud
  /-- Refused, by name. -/
  | reject (why : Reject)
  /-- The bytes given end before the instruction does. -/
  | truncated
deriving DecidableEq, Repr

/-! ## Legacy prefixes (R57, R58) -/

inductive PrefixKind where
  | opSize | rep | lock | segIgnored | segFs | segGs | addrSize
  | rex (b : Byte)
deriving DecidableEq, Repr

/-- The table of R57. -/
def classifyPrefix (b : Byte) : Option PrefixKind :=
  if b = 0x66 then some .opSize
  else if b = 0xF2 ∨ b = 0xF3 then some .rep
  else if b = 0xF0 then some .lock
  else if b = 0x2E ∨ b = 0x36 ∨ b = 0x3E ∨ b = 0x26 then some .segIgnored
  else if b = 0x64 then some .segFs
  else if b = 0x65 then some .segGs
  else if b = 0x67 then some .addrSize
  else if b.extractLsb' 4 4 = 4 then some (.rex b)
  else none

/-- What the prefixes before the opcode say. `rex` is a REX byte with no other prefix after it (R58); `rexSeen`
says that any REX byte came. -/
structure Prefixes where
  opSize : Bool := false
  rep : Bool := false
  lock : Bool := false
  addrSize : Bool := false
  seg : Option Seg := none
  rex : Option Byte := none
  rexSeen : Bool := false
deriving DecidableEq, Repr

/-- One more prefix: repeats are allowed, of 64h and 65h the last wins (R57), and a prefix after a REX byte makes
that REX byte ignored (R58; log 17). -/
def Prefixes.add (p : Prefixes) : PrefixKind → Prefixes
  | .opSize => { p with opSize := true, rex := none }
  | .rep => { p with rep := true, rex := none }
  | .lock => { p with lock := true, rex := none }
  | .segIgnored => { p with rex := none }
  | .segFs => { p with seg := some .fs, rex := none }
  | .segGs => { p with seg := some .gs, rex := none }
  | .addrSize => { p with addrSize := true, rex := none }
  | .rex b => { p with rex := some b, rexSeen := true }

/-- Consume the prefixes (R77 step 1): what they say, and the bytes after them. -/
def scanPrefixes (p : Prefixes) : List Byte → Prefixes × List Byte
  | [] => (p, [])
  | b :: bs =>
    match classifyPrefix b with
    | some c => scanPrefixes (p.add c) bs
    | none => (p, b :: bs)

/-- A prefix that may not precede C4h or 62h was seen (R112, R77 steps 2 and 3). -/
def Prefixes.forbidVexEvex (p : Prefixes) : Bool :=
  p.opSize || p.rep || p.lock || p.rexSeen

/-! ## ModRM, SIB, displacement (R60 to R62) -/

/-- Bit 3 above a three-bit field: a number 0..15 (R58, R67, R69). -/
def regNum (hi : Bool) (lo : BitVec 3) : Fin 16 :=
  Fin.ofNat 16 (8 * hi.toNat + lo.toNat)

/-- Bits 4 and 3 above a three-bit field: a number 0..31 (R69). -/
def regNum32 (hi' hi : Bool) (lo : BitVec 3) : VReg :=
  Fin.ofNat 32 (16 * hi'.toNat + 8 * hi.toNat + lo.toNat)

/-- What ModRM.rm and the bytes after it encode. -/
inductive RmOperand where
  | reg (rm : BitVec 3)
  | mem (ea : AddrForm)
deriving DecidableEq, Repr

/-- disp32, little-endian, sign-extended, never scaled (R62). -/
def takeDisp32 : List Byte → Option (Word × List Byte)
  | b0 :: b1 :: b2 :: b3 :: rest => some ((b3 ++ b2 ++ b1 ++ b0 : BitVec 32).signExtend 64, rest)
  | _ => none

/-- The displacement that follows for `mod` 00, 01, 10 when there is a base: none, disp8 times `n`, disp32 (R60, R62, R70). -/
def takeDisp (mod : BitVec 2) (n : Nat) (bs : List Byte) : Option (Word × List Byte) :=
  if mod = 0 then some (0, bs)
  else if mod = 1 then
    match bs with
    | d :: rest => some (d.signExtend 64 * BitVec.ofNat 64 n, rest)
    | [] => none
  else takeDisp32 bs

/-- The segment in force: an FS or GS override, else the default of the base (20_memory.md R43). -/
def segInForce (override : Option Seg) (base : Option Gpr) : Seg :=
  override.getD (defaultSeg base)

/-- SIB byte and what follows (R61): index number `X:index`, none if it is 4; base number `B:base`, but no base and a
disp32 when `mod = 00` and `base = 101`. -/
def takeSib (override : Option Seg) (x b : Bool) (n : Nat) (mod : BitVec 2) : List Byte → Option (AddrForm × List Byte)
  | [] => none
  | sib :: rest =>
    let idx := regNum x (sib.extractLsb' 3 3)
    let index : Option Gpr := if idx = 4 then none else some idx
    let scale : Fin 4 := if idx = 4 then 0 else (Fin.ofNat 4 (sib.extractLsb' 6 2).toNat)
    let lowBase : BitVec 3 := sib.extractLsb' 0 3
    if mod = 0 ∧ lowBase = 5 then
      match takeDisp32 rest with
      | some (disp, rest') =>
        some ({ seg := segInForce override none, base := none, index, scale, disp, ripRel := false }, rest')
      | none => none
    else
      match takeDisp mod n rest with
      | some (disp, rest') =>
        let base := some (regNum b lowBase)
        some ({ seg := segInForce override base, base, index, scale, disp, ripRel := false }, rest')
      | none => none

/-- ModRM and what follows (R60): the `reg` field, the `rm` operand, the bytes after the instruction. -/
def takeModRm (override : Option Seg) (x b : Bool) (n : Nat) : List Byte → Option (BitVec 3 × RmOperand × List Byte)
  | [] => none
  | m :: rest =>
    let mod : BitVec 2 := m.extractLsb' 6 2
    let reg : BitVec 3 := m.extractLsb' 3 3
    let rm : BitVec 3 := m.extractLsb' 0 3
    if mod = 3 then some (reg, .reg rm, rest)
    else if rm = 4 then
      match takeSib override x b n mod rest with
      | some (ea, rest') => some (reg, .mem ea, rest')
      | none => none
    else if mod = 0 ∧ rm = 5 then
      match takeDisp32 rest with
      | some (disp, rest') =>
        some (reg, .mem { seg := segInForce override none, base := none, index := none, scale := 0, disp, ripRel := true }, rest')
      | none => none
    else
      match takeDisp mod n rest with
      | some (disp, rest') =>
        let base := some (regNum b rm)
        some (reg, .mem { seg := segInForce override base, base, index := none, scale := 0, disp, ripRel := false }, rest')
      | none => none

/-- Second source of a legacy or VEX form: `B` extends the register number (R67, R74). -/
def RmOperand.toRegMem (b : Bool) : RmOperand → RegMem
  | .reg rm => .reg (regNum b rm)
  | .mem ea => .mem ea

/-- Second source of an EVEX form: `X` and `B` extend the register number (R69); `EVEX.b` selects broadcast (R72). -/
def RmOperand.toSrc2 (x b bcst : Bool) : RmOperand → Src2
  | .reg rm => .reg (regNum32 x b rm)
  | .mem ea => if bcst then .bcst ea else .mem ea

def RmOperand.isReg : RmOperand → Bool
  | .reg _ => true
  | .mem _ => false

/-! ## The three shapes (R53 to R55) -/

/-- Legacy form after the prefixes: `0F 38 40 /r` (R59, R77 step 4). `total` is the number of bytes at `pc`, so that
`len` is what has been consumed of them. Order of the answers: log 18. -/
def decodeLegacy (p : Prefixes) (total : Nat) : List Byte → Decoded
  | [] => .truncated
  | e0 :: r0 =>
    if e0 ≠ 0x0F then .reject .notThisFamily else
    match r0 with
    | [] => .truncated
    | e1 :: r1 =>
      if e1 ≠ 0x38 then .reject .notThisFamily else
      match r1 with
      | [] => .truncated
      | op :: r2 =>
        if op ≠ 0x40 then .reject .notThisFamily
        else if !p.opSize then .reject .noOperandSizePrefix
        else if p.rep then .reject .repeatPrefix
        else
          let rex := p.rex.getD 0
          let b := rex.getLsbD 0
          match takeModRm p.seg (rex.getLsbD 1) b 1 r2 with
          | none => .truncated
          | some (reg, rm, rest) =>
            if p.lock then .ud
            else if p.addrSize then .reject .addressSizePrefix
            else .ok (.pmulldSse (regNum (rex.getLsbD 2) reg) (rm.toRegMem b) (total - rest.length))

/-- VEX form after C4h, its own conditions only (R65 to R67, R77 step 3). -/
def decodeVexBody (p : Prefixes) (total : Nat) (v1 v2 op : Byte) (r : List Byte) : Decoded :=
  if v1.extractLsb' 0 5 ≠ 2 ∨ v2.extractLsb' 0 2 ≠ 1 ∨ op ≠ 0x40 then .reject .notThisFamily
  else
    let b := !v1.getLsbD 5
    match takeModRm p.seg (!v1.getLsbD 6) b 1 r with
    | none => .truncated
    | some (reg, rm, rest) =>
      if p.addrSize then .reject .addressSizePrefix
      else
        let dst := regNum (!v1.getLsbD 7) reg
        let src1 : LoReg := Fin.ofNat 16 (~~~(v2.extractLsb' 3 4)).toNat
        let len := total - rest.length
        if v2.getLsbD 2 then .ok (.vpmulldVex256 dst src1 (rm.toRegMem b) len)
        else .ok (.vpmulldVex128 dst src1 (rm.toRegMem b) len)

/-- The writemask `aaa`, `z` (R73). `z` with `aaa = 0` has been refused before. -/
def maskOf (z : Bool) (aaa : BitVec 3) : Mask :=
  if aaa = 0 then .noMask
  else if z then .zero (Fin.ofNat 8 aaa.toNat) else .merge (Fin.ofNat 8 aaa.toNat)

/-- The vector length of `L'L` (R71); 11b has none. -/
def vlOf (ll : BitVec 2) : Nat :=
  if ll = 0 then 128 else if ll = 1 then 256 else 512

/-- `W` and `L'L` select the row (R55, R78). -/
def evexRow (w : Bool) (ll : BitVec 2) (dst src1 : VReg) (mask : Mask) (src2 : Src2) (len : Nat) : Instr :=
  if w then
    if ll = 0 then .vpmullqEvex128 dst src1 mask src2 len
    else if ll = 1 then .vpmullqEvex256 dst src1 mask src2 len
    else .vpmullqEvex512 dst src1 mask src2 len
  else
    if ll = 0 then .vpmulldEvex128 dst src1 mask src2 len
    else if ll = 1 then .vpmulldEvex256 dst src1 mask src2 len
    else .vpmulldEvex512 dst src1 mask src2 len

/-- The field conditions of 60_exceptions.md R113: reserved bits of P0, the fixed bit of P1, `L'L = 11b`, `z` without a
mask, `b` with a register. -/
def evexInvalid (p0 p1 p2 : Byte) (rmIsReg : Bool) : Bool :=
  p0.extractLsb' 2 2 != 0 || !p1.getLsbD 2 || p2.extractLsb' 5 2 == 3
    || (p2.getLsbD 7 && p2.extractLsb' 0 3 == 0) || (p2.getLsbD 4 && rmIsReg)

/-- EVEX form after 62h, its own conditions only (R68 to R73, R77 step 2). -/
def decodeEvexBody (p : Prefixes) (total : Nat) (p0 p1 p2 op : Byte) (r : List Byte) : Decoded :=
  if p0.extractLsb' 0 2 ≠ 2 ∨ p1.extractLsb' 0 2 ≠ 1 ∨ op ≠ 0x40 then .reject .notThisFamily
  else
    let w := p1.getLsbD 7
    let ll : BitVec 2 := p2.extractLsb' 5 2
    let bcst := p2.getLsbD 4
    let x := !p0.getLsbD 6
    let b := !p0.getLsbD 5
    match takeModRm p.seg x b (evexDisp8Scale (if w then 64 else 32) (vlOf ll) bcst) r with
    | none => .truncated
    | some (reg, rm, rest) =>
      if evexInvalid p0 p1 p2 rm.isReg then .ud
      else if p.addrSize then .reject .addressSizePrefix
      else
        let dst := regNum32 (!p0.getLsbD 4) (!p0.getLsbD 7) reg
        let vvvv : BitVec 4 := ~~~(p1.extractLsb' 3 4)
        let src1 : VReg := Fin.ofNat 32 (16 * (!p2.getLsbD 3).toNat + vvvv.toNat)
        .ok (evexRow w ll dst src1 (maskOf (p2.getLsbD 7) (p2.extractLsb' 0 3)) (rm.toSrc2 x b bcst) (total - rest.length))

/-- A forbidden prefix before C4h or 62h makes whatever follows an invalid opcode (R77 steps 2 and 3, R112); bytes that
end first stay `truncated`, since a fetch fault goes before #UD (60_exceptions.md R120; log 16). -/
def guardPrefixes (p : Prefixes) (d : Decoded) : Decoded :=
  match d with
  | .truncated => .truncated
  | d => if p.forbidVexEvex then .ud else d

def decodeVex (p : Prefixes) (total : Nat) : List Byte → Decoded
  | v1 :: v2 :: op :: r => guardPrefixes p (decodeVexBody p total v1 v2 op r)
  | _ => .truncated

def decodeEvex (p : Prefixes) (total : Nat) : List Byte → Decoded
  | p0 :: p1 :: p2 :: op :: r => guardPrefixes p (decodeEvexBody p total p0 p1 p2 op r)
  | _ => .truncated

/-- The procedure of R77, with no bound on the length. -/
def decodeUnbounded (bytes : List Byte) : Decoded :=
  let (p, rest) := scanPrefixes {} bytes
  match rest with
  | [] => .truncated
  | b :: r =>
    if b = 0x62 then decodeEvex p bytes.length r
    else if b = 0xC4 then decodeVex p bytes.length r
    else decodeLegacy p bytes.length (b :: r)

/-- The decoder: total on any bytes, lowest address first. An instruction that needs more than 15 bytes is refused
(R56, R79). -/
def decode (bytes : List Byte) : Decoded :=
  match decodeUnbounded (bytes.take Config.maxInstrLen) with
  | .truncated => if Config.maxInstrLen ≤ bytes.length then .reject .tooLong else .truncated
  | d => d

/-! ## The encoder -/

/-- ModRM byte (R60). -/
def modRmByte (mod : BitVec 2) (reg rm : BitVec 3) : Byte := mod ++ reg ++ rm

/-- SIB byte (R61). -/
def sibByte (scale : BitVec 2) (index base : BitVec 3) : Byte := scale ++ index ++ base

/-- Low three bits of a register number. -/
def low3 (n : Nat) : BitVec 3 := BitVec.ofNat 3 n

/-- disp32, lowest byte first (R62). -/
def disp32Bytes (disp : Word) : List Byte :=
  [disp.extractLsb' 0 8, disp.extractLsb' 8 8, disp.extractLsb' 16 8, disp.extractLsb' 24 8]

/-- `mod` and the displacement bytes for a form with a base (R60, R62, R70). -/
def modAndDisp (n : Nat) (base : Gpr) (disp : Word) : BitVec 2 × List Byte :=
  if disp = 0 ∧ base.val % 8 ≠ 5 then (0, [])
  else
    match disp8Of n disp with
    | some d => (1, [d])
    | none => (2, disp32Bytes disp)

/-- The `index` field of the SIB byte: 100b is "no index" (R61). -/
def AddrForm.indexLow (ea : AddrForm) : BitVec 3 :=
  match ea.index with
  | some i => low3 i.val
  | none => 4

/-- ModRM, SIB and displacement of a memory operand (R60 to R64). -/
def AddrForm.modRmBytes (n : Nat) (reg : BitVec 3) (ea : AddrForm) : List Byte :=
  if ea.ripRel then modRmByte 0 reg 5 :: disp32Bytes ea.disp
  else
    let scale : BitVec 2 := BitVec.ofNat 2 ea.scale.val
    match ea.base with
    | none => modRmByte 0 reg 4 :: sibByte scale ea.indexLow 5 :: disp32Bytes ea.disp
    | some base =>
      let (mod, disp) := modAndDisp n base ea.disp
      if ea.needsSib then modRmByte mod reg 4 :: sibByte scale ea.indexLow (low3 base.val) :: disp
      else modRmByte mod reg (low3 base.val) :: disp

/-- Segment override of an addressing form (R57). -/
def AddrForm.segBytes (ea : AddrForm) : List Byte :=
  match ea.seg with
  | .fs => [0x64]
  | .gs => [0x65]
  | .ds => []
  | .ss => []

/-- Bit 3 of a register number. -/
def bit3 (n : Nat) : Bool := n.testBit 3

/-- Bit 4 of a vector register number. -/
def bit4 (n : Nat) : Bool := n.testBit 4

/-- The extension bits X and B of an addressing form (R58, R67, R69). -/
def AddrForm.xBit (ea : AddrForm) : Bool := ea.index.any (fun i => bit3 i.val)

def AddrForm.bBit (ea : AddrForm) : Bool := ea.base.any (fun b => bit3 b.val)

def RegMem.xBit : RegMem → Bool
  | .reg _ => false
  | .mem ea => ea.xBit

def RegMem.bBit : RegMem → Bool
  | .reg n => bit3 n.val
  | .mem ea => ea.bBit

def RegMem.modRmBytes (reg : BitVec 3) : RegMem → List Byte
  | .reg n => [modRmByte 3 reg (low3 n.val)]
  | .mem ea => ea.modRmBytes 1 reg

def RegMem.segBytes : RegMem → List Byte
  | .reg _ => []
  | .mem ea => ea.segBytes

def Src2.xBit : Src2 → Bool
  | .reg n => bit4 n.val
  | .mem ea => ea.xBit
  | .bcst ea => ea.xBit

def Src2.bBit : Src2 → Bool
  | .reg n => bit3 n.val
  | .mem ea => ea.bBit
  | .bcst ea => ea.bBit

def Src2.isBcst : Src2 → Bool
  | .bcst _ => true
  | .mem _ => false
  | .reg _ => false

def Src2.modRmBytes (elemBits vl : Nat) (reg : BitVec 3) : Src2 → List Byte
  | .reg n => [modRmByte 3 reg (low3 n.val)]
  | .mem ea => ea.modRmBytes (evexDisp8Scale elemBits vl false) reg
  | .bcst ea => ea.modRmBytes (evexDisp8Scale elemBits vl true) reg

def Src2.segBytes : Src2 → List Byte
  | .reg _ => []
  | .mem ea => ea.segBytes
  | .bcst ea => ea.segBytes

/-- REX byte `0100 W R X B` with W = 0 (R58). -/
def rexByte (r x b : Bool) : Byte :=
  (4 : BitVec 4) ++ BitVec.ofBool false ++ BitVec.ofBool r ++ BitVec.ofBool x ++ BitVec.ofBool b

/-- The bytes of `PMULLD xmm1, xmm2/m128` (R59). -/
def encodeLegacy (dst : LoReg) (src : RegMem) : List Byte :=
  src.segBytes ++ [0x66]
    ++ (if needsRex dst src then [rexByte (bit3 dst.val) src.xBit src.bBit] else [])
    ++ [0x0F, 0x38, 0x40] ++ src.modRmBytes (low3 dst.val)

/-- The bytes of a VEX form (R65 to R67), `W` written 0. -/
def encodeVex (l : Bool) (dst src1 : LoReg) (src2 : RegMem) : List Byte :=
  let v1 : Byte := BitVec.ofBool (!bit3 dst.val) ++ BitVec.ofBool (!src2.xBit) ++ BitVec.ofBool (!src2.bBit) ++ (2 : BitVec 5)
  let v2 : Byte := BitVec.ofBool false ++ ~~~(BitVec.ofNat 4 src1.val) ++ BitVec.ofBool l ++ (1 : BitVec 2)
  src2.segBytes ++ [0xC4, v1, v2, 0x40] ++ src2.modRmBytes (low3 dst.val)

/-- `aaa` and `z` of a writemask (R73). -/
def Mask.aaa : Mask → BitVec 3
  | .noMask => 0
  | .merge k => BitVec.ofNat 3 k.val
  | .zero k => BitVec.ofNat 3 k.val

def Mask.isZeroing : Mask → Bool
  | .noMask => false
  | .merge _ => false
  | .zero _ => true

/-- The bytes of an EVEX form (R68 to R73): `elemBits` 32 is W0, 64 is W1; `vl` selects `L'L`. -/
def encodeEvex (elemBits vl : Nat) (dst src1 : VReg) (mask : Mask) (src2 : Src2) : List Byte :=
  let ll : BitVec 2 := if vl = 128 then 0 else if vl = 256 then 1 else 2
  let p0 : Byte := BitVec.ofBool (!bit3 dst.val) ++ BitVec.ofBool (!src2.xBit) ++ BitVec.ofBool (!src2.bBit)
    ++ BitVec.ofBool (!bit4 dst.val) ++ (2 : BitVec 4)
  let p1 : Byte := BitVec.ofBool (elemBits = 64) ++ ~~~(BitVec.ofNat 4 src1.val) ++ (5 : BitVec 3)
  let p2 : Byte := BitVec.ofBool mask.isZeroing ++ ll ++ BitVec.ofBool src2.isBcst
    ++ BitVec.ofBool (!bit4 src1.val) ++ mask.aaa
  src2.segBytes ++ [0x62, p0, p1, p2, 0x40] ++ src2.modRmBytes elemBits vl (low3 dst.val)

/-- The shortest encoding of the operands, `len` left aside. -/
def encodeOperands : Instr → List Byte
  | .pmulldSse dst src _ => encodeLegacy dst src
  | .vpmulldVex128 dst src1 src2 _ => encodeVex false dst src1 src2
  | .vpmulldVex256 dst src1 src2 _ => encodeVex true dst src1 src2
  | .vpmulldEvex128 dst src1 mask src2 _ => encodeEvex 32 128 dst src1 mask src2
  | .vpmulldEvex256 dst src1 mask src2 _ => encodeEvex 32 256 dst src1 mask src2
  | .vpmulldEvex512 dst src1 mask src2 _ => encodeEvex 32 512 dst src1 mask src2
  | .vpmullqEvex128 dst src1 mask src2 _ => encodeEvex 64 128 dst src1 mask src2
  | .vpmullqEvex256 dst src1 mask src2 _ => encodeEvex 64 256 dst src1 mask src2
  | .vpmullqEvex512 dst src1 mask src2 _ => encodeEvex 64 512 dst src1 mask src2

/-- The encoder. A `len` above the shortest is made up by ignored 3Eh prefixes in front (R57; log 21). -/
def encode (i : Instr) : List Byte :=
  List.replicate (i.len - i.minLen) 0x3E ++ encodeOperands i

/-! ## The opcode table's numbering -/

/-- `count` bytes of `w`, the first in bits 7..0. -/
def bytesOfNat : (count : Nat) → (w : Nat) → List Byte
  | 0, _ => []
  | n + 1, w => BitVec.ofNat 8 w :: bytesOfNat n (w / 256)

/-- The bytes of a row of spec/opcode_table.json whose pattern bits are `w`. The pattern of the legacy row starts at the
0Fh byte, after its required 66h prefix ("pattern_start", 30_encoding.md R78), so the 66h that the row's "prefix"
requires is put before a pattern that starts at 0Fh (log 22). Zeros fill up to 15 bytes. -/
def tableBytes (nbits w : Nat) : List Byte :=
  let v := w % 2 ^ nbits
  if BitVec.ofNat 8 v = (0x0F : Byte) then 0x66 :: bytesOfNat 14 v else bytesOfNat 15 v

/-- The instruction the decoder reads from the row word `w`. -/
def decodeTableWord (nbits w : Nat) : Option Instr :=
  match decode (tableBytes nbits w) with
  | .ok i => some i
  | _ => none

end Sys2Proof
end

