-- ==== Sys2Proof/Machine/State.lean ====
section
/-!
DEFINITION. The state of the machine (10_state.md R17 to R34, 20_memory.md R35), its faults, its refusals, its reset.
Memory is a list of cells in one canonical form (`Memory.wf` in Machine/Ops.lean).
-/
namespace Sys2Proof.Machine

/-- The operating modes the spec names (00_scope.md R4, R6). -/
inductive OpMode where
  | realAddress | virtual8086 | protectedMode | compatibility | long64
deriving DecidableEq, Repr

/-- `VA_BITS`: how many bits a canonical linear address has (20_memory.md R42). -/
inductive VaBits where
  | va48 | va57
deriving DecidableEq, Repr

/-- The CPUID feature flags of 10_state.md R27: the set `FEATURES` of 00_scope.md R6. -/
structure Cpuid where
  sse41 : Bool
  avx : Bool
  avx2 : Bool
  avx512f : Bool
  avx512dq : Bool
  avx512vl : Bool
deriving DecidableEq, Repr

/-- A range of linear addresses, both ends included. -/
structure AddrRange where
  first : Word
  last : Word
deriving DecidableEq, Repr

/-- Memory: the listed bytes, addresses strictly rising; an unlisted byte reads as 0 (20_memory.md R35; log 11). -/
abbrev Memory := List Host.Cell

/-- Everything the spec gives the machine, and the open parameters of 00_scope.md R6 as data that no step writes
(log 1). -/
structure State where
  /-- ZMM0..ZMM31 (R17); XMMn and YMMn are their low bits (R18). -/
  zmm : Vector (BitVec Config.maxVL) Config.nvec
  /-- k0..k7 (R20). -/
  k : Vector (BitVec Config.kw) Config.nk
  /-- The general registers (R22). -/
  gpr : Vector Word Config.ngpr
  /-- The program counter (R24). -/
  rip : Word
  /-- EFLAGS (R26): never read, never written. -/
  eflags : BitVec 32
  /-- MXCSR (R26): never read, never written. -/
  mxcsr : BitVec 32
  /-- CR0 (R27): bit 2 EM, bit 3 TS. -/
  cr0 : Word
  /-- CR4 (R27): bit 9 OSFXSR, bit 18 OSXSAVE. -/
  cr4 : Word
  /-- XCR0 (R27). -/
  xcr0 : Word
  /-- CS base (R33), 0 in effect in 64-bit mode (R28). -/
  csBase : Word
  /-- `FS_BASE` (R28). -/
  fsBase : Word
  /-- `GS_BASE` (R28). -/
  gsBase : Word
  /-- `MODE` (00_scope.md R6). -/
  mode : OpMode
  /-- The current privilege level (60_exceptions.md R125). -/
  cpl : BitVec 2
  /-- The feature flags (R27). -/
  cpuid : Cpuid
  /-- `VA_BITS` (20_memory.md R42). -/
  vaBits : VaBits
  /-- `FAULT_SUPPRESSION` (20_memory.md R46). -/
  faultSuppression : Bool
  /-- Where `Accessible` is false (20_memory.md R44; log 12). -/
  inaccessible : List AddrRange
  /-- Where `Fetchable` is false (20_memory.md R44; log 12). -/
  unfetchable : List AddrRange
  /-- Memory (20_memory.md R35). -/
  mem : Memory
  /-- The MODEL's own: what the free values of Config are applied to (log 6). -/
  draw : Nat
deriving DecidableEq, Repr

/-- The exceptions of 60_exceptions.md R107. Each ends the run with nothing changed (R118). All are safe: the
hardware would enter a handler, which the model has not (log 13). -/
inductive Fault where
  /-- `#UD`, vector 6: raised by decoding (R112, R113) and by every meaning (R108 to R111). Safe. -/
  | ud
  /-- `#NM`, vector 7: raised by every meaning when CR0.TS is 1 (R114). Safe. -/
  | nm
  /-- `#SS(0)`, vector 12: a non-canonical operand byte, or one past 2^64 (R37), through SS (R116). Safe. -/
  | ss0
  /-- `#GP(0)`, vector 13: a misaligned legacy operand, a non-canonical operand byte or one past 2^64 (R115, R37), such
  a code byte (10_state.md R25). Safe. -/
  | gp0
  /-- `#PF(code)`, vector 14, with the faulting linear address: an inaccessible operand byte (R117), a code byte that
  is not fetchable (R120). Safe. -/
  | pf (code : BitVec 6) (addr : Word)
deriving DecidableEq, Repr

/-- What the model gives no meaning. All are safe: nothing can be proved of what the hardware does there. -/
inductive Refusal where
  /-- Raised by an arm of `exec` that has no meaning (none has: every arm is modelled). Safe. -/
  | notModelled (mnemonic : String)
  /-- Raised by `step` and by every meaning in a mode other than 64-bit mode (00_scope.md R4, decision D2). Safe. -/
  | unsupportedMode
  /-- Raised by `step` on bytes the decoder refuses (30_encoding.md R77, R79). Safe. -/
  | undecodable (why : Reject)
deriving DecidableEq, Repr

/-- The three outcomes of a step of this machine. -/
abbrev Outcome := Host.Outcome State Fault Refusal

/-- The machine after power-up or RESET: the table of 10_state.md R33. Values the table does not give: RDX (log 3),
`cpl` (log 5), the open parameters (log 4), memory (log 11), `draw` (log 6). -/
def State.reset : State where
  zmm := Vector.replicate Config.nvec 0
  k := Vector.replicate Config.nk 0
  gpr := Vector.replicate Config.ngpr 0
  rip := 0x0000FFF0
  eflags := 0x00000002
  mxcsr := 0x1F80
  cr0 := 0x60000010
  cr4 := 0
  xcr0 := 1
  csBase := 0xFFFF0000
  fsBase := 0
  gsBase := 0
  mode := .realAddress
  cpl := 0
  cpuid := { sse41 := true, avx := true, avx2 := true, avx512f := true, avx512dq := true, avx512vl := true }
  vaBits := .va48
  faultSuppression := true
  inaccessible := []
  unfetchable := []
  mem := []
  draw := 0

end Sys2Proof.Machine
end

