-- ==== Sys2Proof/Machine/Ops.lean ====
section
/-!
DEFINITION. The named operations over memory and registers, address admission, the fetch of code bytes, and raising an
exception.
-/
namespace Sys2Proof.Machine

/-! ## Memory (20_memory.md R35, R37) -/

/-- One byte; an unlisted byte reads as 0 (log 11). -/
def Memory.read : Memory → Nat → Byte
  | [], _ => 0
  | (x, v) :: t, a => if x = a then v else Memory.read t a

/-- Write one byte, keeping the canonical form: a byte that becomes 0 is not listed. No in-scope form writes memory
(00_scope.md R12); the launch does. -/
def Memory.write : Memory → Nat → Byte → Memory
  | [], a, v => if v = 0 then [] else [(a, v)]
  | (x, u) :: t, a, v =>
    if a < x then (if v = 0 then (x, u) :: t else (a, v) :: (x, u) :: t)
    else if a = x then (if v = 0 then t else (a, v) :: t)
    else (x, u) :: Memory.write t a v

/-- All listed addresses are above `lo`, strictly rising and below 2^64, and no listed byte is 0. -/
def Memory.wfFrom (lo : Nat) : Memory → Bool
  | [] => true
  | (x, v) :: t => decide (lo ≤ x) && decide (x < 2 ^ 64) && v != 0 && Memory.wfFrom (x + 1) t

/-- The canonical form: equal memories are equal lists. -/
def Memory.wf (m : Memory) : Bool := Memory.wfFrom 0 m

/-- `Mem[a]` (R35). -/
def State.readByte (s : State) (a : Word) : Byte := Memory.read s.mem a.toNat

/-- `n` bytes at `a`, little-endian, as a number: byte `a + k` has weight `256^k`; addresses modulo 2^64 (R37). An operand that
would wrap is not read: it faults first (`State.canonicalFrom`). -/
def State.readLE (s : State) (a : Word) : Nat → Nat
  | 0 => 0
  | n + 1 => (s.readByte a).toNat + 256 * s.readLE (a + 1) n

/-- `MemRead(a, bits/8)` (R37), once the bytes are admitted. -/
def State.memRead (s : State) (a : Word) (bits : Nat) : BitVec bits := BitVec.ofNat bits (s.readLE a (bits / 8))

/-- Store bytes at rising addresses: the launch's way to place code (70_reset_and_hazards.md R134, `CodeAt`). -/
def State.placeBytes (s : State) (a : Word) : List Byte → State
  | [] => s
  | b :: bs => State.placeBytes { s with mem := Memory.write s.mem a.toNat b } (a + 1) bs

/-! ## Registers -/

/-- `ZMM[n]` (00_scope.md R12). -/
def State.readZmm (s : State) (n : VReg) : BitVec Config.maxVL := s.zmm.get n

/-- `ZMM[n] <- v`: all MAXVL bits (00_scope.md R12). -/
def State.writeZmm (s : State) (n : VReg) (v : BitVec Config.maxVL) : State :=
  { s with zmm := s.zmm.set n.val v n.isLt }

/-- `K[n]` (00_scope.md R12). -/
def State.readK (s : State) (n : KReg) : BitVec Config.kw := s.k.get n

/-- `x[i]` (00_scope.md R12). -/
def State.readGpr (s : State) (n : Gpr) : Word := s.gpr.get n

/-- `pc + len` modulo 2^64, the address of the next instruction (10_state.md R24, R25). -/
def State.nextRip (s : State) (len : Nat) : Word := s.rip + BitVec.ofNat 64 len

/-- `pc <- pc + len` (10_state.md R25). -/
def State.advance (s : State) (len : Nat) : State := { s with rip := s.nextRip len }

/-- What a completed form changes: its destination register and `pc` (10_state.md R32). -/
def State.complete (s : State) (dst : VReg) (v : BitVec Config.maxVL) (len : Nat) : State :=
  (s.writeZmm dst v).advance len

/-! ## Raising an exception (60_exceptions.md R107, R118) -/

/-- `raise #XX(info)`: the step ends with the fault and no architectural state changes (R118). Delivery through the
IDT and the return from it are out of scope (00_scope.md R4; log 13). -/
def raise (f : Fault) : Outcome := .fault f

/-- The vector number of R107. -/
def Fault.vector : Fault → Nat
  | .ud => 6
  | .nm => 7
  | .ss0 => 12
  | .gp0 => 13
  | .pf _ _ => 14

/-- The error code of R107, for the exceptions that have one. -/
def Fault.errorCode : Fault → Option (BitVec 6)
  | .ud => none
  | .nm => none
  | .ss0 => some 0
  | .gp0 => some 0
  | .pf code _ => some code

/-- The other recorded value of R107: the faulting linear address of `#PF`. -/
def Fault.address : Fault → Option Word
  | .ud => none
  | .nm => none
  | .ss0 => none
  | .gp0 => none
  | .pf _ addr => some addr

/-! ## Address admission (20_memory.md R42, R44) -/

/-- All of bits `[63:47]` are equal, or `[63:56]` for 57-bit addresses (R42). -/
def isCanonical (va : VaBits) (a : Word) : Bool :=
  match va with
  | .va48 => (a.setWidth 48).signExtend 64 == a
  | .va57 => (a.setWidth 57).signExtend 64 == a

def State.canonical (s : State) (a : Word) : Bool := isCanonical s.vaBits a

/-- The byte at `b` of an access whose first byte is at `start` stands at a canonical address. An access faults before it
wraps past 2^64 (R37), as one with a non-canonical byte does (R42): a byte that would stand there comes out below `start`
(log 33). -/
def State.canonicalFrom (s : State) (start b : Word) : Bool := decide (start ≤ b) && s.canonical b

def AddrRange.holds (r : AddrRange) (a : Word) : Bool := decide (r.first ≤ a) && decide (a ≤ r.last)

/-- `Accessible(a)` (R44). -/
def State.accessible (s : State) (a : Word) : Bool := s.inaccessible.all (fun r => !r.holds a)

/-- `Fetchable(a)` (R44). -/
def State.fetchable (s : State) (a : Word) : Bool := s.unfetchable.all (fun r => !r.holds a)

/-- The error code of a data page fault (60_exceptions.md R117): bit 1 W/R and bit 4 I/D are 0, bit 2 U/S is 1 iff
CPL = 3, bits 0, 3 and 5 are what the page tables decide: a free value (log 7). -/
def State.dataFaultCode (s : State) (a : Word) : BitVec 6 :=
  (Config.dataFaultBits s.draw a &&& 0b101001) ||| (if s.cpl = 3 then 0b000100 else 0)

/-- The error code of a page fault on a code byte: a free value (log 7). -/
def State.fetchFaultCode (s : State) (a : Word) : BitVec 6 := Config.fetchFaultBits s.draw a

/-- One of several applicable faults, by the draw (60_exceptions.md R120); the only one if there is one. -/
def drawFault (draw : Nat) : List Fault → Option Fault
  | [] => none
  | [f] => some f
  | f :: g :: fs => (f :: g :: fs)[Config.memFaultDraw draw % (f :: g :: fs).length]?

/-- The memory-operand faults that apply to a read of the bytes `addrs` of an operand at `start` through `seg` (R115 to
R117, 20_memory.md R37 for an operand that would wrap), in no order of priority. Of several inaccessible bytes the first in
operand order is the faulting address (20_memory.md R44; log 8). -/
def State.operandFaults (s : State) (seg : Seg) (misaligned : Bool) (start : Word) (addrs : List Word) : List Fault :=
  let nonCanonical := addrs.any (fun a => !s.canonicalFrom start a)
  (if misaligned || (nonCanonical && seg != .ss) then [.gp0] else [])
    ++ (if nonCanonical && seg == .ss then [.ss0] else [])
    ++ (match addrs.find? (fun a => !s.accessible a) with
        | some a => [.pf (s.dataFaultCode a) a]
        | none => [])

/-! ## Instruction fetch (20_memory.md R44, R52; 60_exceptions.md R120) -/

/-- The linear address of the byte at `pc`: the CS base is 0 in 64-bit mode (10_state.md R28), and what CS holds in
the other modes (R33). -/
def State.fetchAddr (s : State) : Word :=
  match s.mode with
  | .long64 => s.rip
  | .realAddress => s.csBase + s.rip
  | .virtual8086 => s.csBase + s.rip
  | .protectedMode => s.csBase + s.rip
  | .compatibility => s.csBase + s.rip

/-- The fault of fetching the byte at `a` of an instruction at `start`, if it has one: `#GP(0)` if it is not canonical or
the fetch has wrapped past 2^64 (log 33), `#PF` if it is not fetchable. -/
def State.fetchFault (s : State) (start a : Word) : Option Fault :=
  if !s.canonicalFrom start a then some .gp0
  else if !s.fetchable a then some (.pf (s.fetchFaultCode a) a)
  else none

/-- Up to `n` code bytes from `a`, of an instruction at `start`, in rising order, and the fault that ended the fetch early
(log 15). -/
def State.fetchFrom (s : State) (start : Word) : Nat → Word → List Byte × Option Fault
  | 0, _ => ([], none)
  | n + 1, a =>
    match s.fetchFault start a with
    | some f => ([], some f)
    | none =>
      let (bs, f) := s.fetchFrom start n (a + 1)
      (s.readByte a :: bs, f)

/-- The code bytes at `pc`, at most 15 (30_encoding.md R56). -/
def State.fetch (s : State) : List Byte × Option Fault := s.fetchFrom s.fetchAddr Config.maxInstrLen s.fetchAddr

end Sys2Proof.Machine
end

