-- ==== Sys2Proof/Machine/Flags.lean ====
section
/-!
DEFINITION. The bits of the control registers, and the `#UD` and `#NM` conditions of 60_exceptions.md R108 to R111, R114.
No in-scope form computes, reads or writes a status flag (10_state.md R26): there is no flag computation to define.
-/
namespace Sys2Proof.Machine

/-- `CR0.EM` (10_state.md R27). -/
def State.cr0EM (s : State) : Bool := s.cr0.getLsbD 2

/-- `CR0.TS` (R27). -/
def State.cr0TS (s : State) : Bool := s.cr0.getLsbD 3

/-- `CR4.OSFXSR` (R27). -/
def State.cr4OSFXSR (s : State) : Bool := s.cr4.getLsbD 9

/-- `CR4.OSXSAVE` (R27). -/
def State.cr4OSXSAVE (s : State) : Bool := s.cr4.getLsbD 18

/-- `XCR0[2:1] = 11b`: SSE and AVX state enabled (R27). -/
def State.xcr0Avx (s : State) : Bool := s.xcr0.extractLsb' 1 2 == 3

/-- `XCR0[7:5] = 111b`: opmask, ZMM_Hi256 and Hi16_ZMM state enabled (R27). -/
def State.xcr0Avx512 (s : State) : Bool := s.xcr0.extractLsb' 5 3 == 7

/-- `#UD` of the legacy form (R108, R109). -/
def State.udSse (s : State) : Bool := !s.cpuid.sse41 || s.cr0EM || !s.cr4OSFXSR

/-- `#UD` of a VEX form that needs the feature `flag` (R108, R110). -/
def State.udVex (s : State) (flag : Bool) : Bool := !flag || !s.cr4OSXSAVE || !s.xcr0Avx

/-- `#UD` of an EVEX form that needs the features `flags` (R108, R111). -/
def State.udEvex (s : State) (flags : Bool) : Bool := !flags || !s.cr4OSXSAVE || !s.xcr0Avx || !s.xcr0Avx512

end Sys2Proof.Machine
end

