-- ==== Sys2Proof/Machine/Operands.lean ====
section
/-!
DEFINITION. The operand forms: effective and linear addresses, the elements of the second source, the writemask, and
which bytes of memory an operand reads.
-/
namespace Sys2Proof.Machine

/-- `EA` (30_encoding.md R63), and the next instruction's address for RIP-relative (R64), modulo 2^64. -/
def State.effectiveAddr (s : State) (len : Nat) (ea : AddrForm) : Word :=
  (if ea.ripRel then s.nextRip len else 0)
    + (match ea.base with | some b => s.readGpr b | none => 0)
    + (match ea.index with | some i => s.readGpr i <<< ea.scale.val | none => 0)
    + ea.disp

/-- `SegBase` (20_memory.md R43, 10_state.md R28). -/
def State.segBase (s : State) : Seg → Word
  | .fs => s.fsBase
  | .gs => s.gsBase
  | .ds => 0
  | .ss => 0

/-- The linear address `a` of a memory operand (20_memory.md R43). -/
def State.linearAddr (s : State) (len : Nat) (ea : AddrForm) : Word := s.segBase ea.seg + s.effectiveAddr len ea

/-- Lane `j` of a vector of `N`-bit elements (40_common_lane_semantics.md R88). -/
def lane (N : Nat) {W : Nat} (v : BitVec W) (j : Nat) : BitVec N := v.extractLsb' (j * N) N

/-- The address of element `j` of a full-width memory operand (20_memory.md R38). -/
def elemAddr (N : Nat) (a : Word) (j : Nat) : Word := a + BitVec.ofNat 64 (j * (N / 8))

/-- `S2(j)`, the element of the second source multiplied with lane `j` (40_common_lane_semantics.md R89). -/
def State.src2Elem (s : State) (N len : Nat) (src2 : Src2) (j : Nat) : BitVec N :=
  match src2 with
  | .reg n => lane N (s.readZmm n) j
  | .mem ea => s.memRead (elemAddr N (s.linearAddr len ea) j) N
  | .bcst ea => s.memRead (s.linearAddr len ea) N

/-- The opmask value of a writemask, `none` for no writemask (R96). -/
def State.maskValue (s : State) : Mask → Option (BitVec Config.kw)
  | .noMask => none
  | .merge k => some (s.readK k)
  | .zero k => some (s.readK k)

/-- `enabled(j)` (R90). -/
def enabled (mask : Option (BitVec Config.kw)) (j : Nat) : Bool :=
  match mask with
  | none => true
  | some m => m.getLsbD j

/-- The addresses of the `n` bytes from `a`, in rising order. -/
def byteAddrs (a : Word) : Nat → List Word
  | 0 => []
  | n + 1 => a :: byteAddrs (a + 1) n

/-- The bytes of a memory operand that are read, or that can fault (20_memory.md R46): the enabled elements, or all of
them without fault suppression; the broadcast element if any lane is. -/
def State.operandBytes (s : State) (N VL : Nat) (mask : Option (BitVec Config.kw)) (a : Word) (bcst : Bool) : List Word :=
  let live := (List.range (VL / N)).filter (fun j => enabled mask j || !s.faultSuppression)
  if bcst then (if live.isEmpty then [] else byteAddrs a (N / 8))
  else live.flatMap (fun j => byteAddrs (elemAddr N a j) (N / 8))

/-- The fault of reading the second source, if there is one: step 4 of 40_common_lane_semantics.md R94. `align16` holds
for the legacy form only (20_memory.md R41). -/
def State.src2Fault (s : State) (N VL : Nat) (align16 : Bool) (mask : Option (BitVec Config.kw)) (len : Nat) :
    Src2 → Option Fault
  | .reg _ => none
  | .mem ea =>
    let a := s.linearAddr len ea
    drawFault s.draw (s.operandFaults ea.seg (align16 && a.extractLsb' 0 4 != 0) a (s.operandBytes N VL mask a false))
  | .bcst ea =>
    let a := s.linearAddr len ea
    drawFault s.draw (s.operandFaults ea.seg false a (s.operandBytes N VL mask a true))

end Sys2Proof.Machine
end

