-- ==== Sys2Proof/Machine/Lanes.lean ====
section
/-!
DEFINITION. The lane multiply, the generic result function `PMULL` and the generic step (40_common_lane_semantics.md).
-/
namespace Sys2Proof.Machine

/-- `mullo_N(a, b)` (R85): the low `N` bits of the exact signed product, formed as a `2N`-bit pattern. -/
def mullo (N : Nat) (a b : BitVec N) : BitVec N :=
  let temp : BitVec (2 * N) := BitVec.ofInt (2 * N) (a.toInt * b.toInt)
  temp.extractLsb' 0 N

/-! A full register is `W` bits wide: every width that R5 admits for `MAXVL` has its `PMULL`. -/

variable {W : Nat}

/-- `R[j*N+N-1 : j*N] <- x`, the other bits unchanged. -/
def setLane (N : Nat) (r : BitVec W) (j : Nat) (x : BitVec N) : BitVec W :=
  (r &&& ~~~((BitVec.allOnes N).setWidth W <<< (j * N))) ||| (x.setWidth W <<< (j * N))

/-- `FOR j <- 0 TO n-1: R[lane j] <- f j`, starting from `r` (00_scope.md R8). -/
def setLanes (N : Nat) (f : Nat → BitVec N) (r : BitVec W) : Nat → BitVec W
  | 0 => r
  | n + 1 => setLane N (setLanes N f r n) n (f n)

/-- What happens to bits `[MAXVL-1:VL]` of the destination (R93). -/
inductive Upper where
  | keep | zero
deriving DecidableEq, Repr

/-- `R[MAXVL-1:VL]`, with zeros below it (R93, R96). -/
def upperPart (VL : Nat) (upper : Upper) (old : BitVec W) : BitVec W :=
  match upper with
  | .keep => (old >>> VL) <<< VL
  | .zero => 0

/-- Lane `j` of the result (R90 to R92). -/
def resultLane (N : Nat) (mask : Option (BitVec Config.kw)) (zeroing : Bool) (a : BitVec W) (s2 : Nat → BitVec N)
    (old : BitVec W) (j : Nat) : BitVec N :=
  if enabled mask j then mullo N (lane N a j) (s2 j)
  else if zeroing then 0
  else lane N old j

/-- `PMULL(N, VL, upper, mask, z, A, S2, OLD)` (R96). -/
def pmull (N VL : Nat) (upper : Upper) (mask : Option (BitVec Config.kw)) (zeroing : Bool) (a : BitVec W)
    (s2 : Nat → BitVec N) (old : BitVec W) : BitVec W :=
  setLanes N (resultLane N mask zeroing a s2 old) (upperPart VL upper old) (VL / N)

/-- Steps 2 to 6 of R94 for one form: `#UD` if `ud`, then `#NM`, then the operand's faults, then the result, all sources
read in the state before the step (R95). The mode check stands after `#UD` (log 14): 64-bit mode is the only one
modelled (decision D2). -/
def packedMultiply (N VL : Nat) (upper : Upper) (ud align16 : Bool) (dst src1 : VReg) (mask : Mask) (src2 : Src2)
    (len : Nat) (s : State) : Outcome :=
  if ud then raise .ud
  else if s.mode ≠ .long64 then .refused .unsupportedMode
  else if s.cr0TS then raise .nm
  else
    match s.src2Fault N VL align16 (s.maskValue mask) len src2 with
    | some f => raise f
    | none =>
      .next (s.complete dst
        (pmull N VL upper (s.maskValue mask) mask.isZeroing (s.readZmm src1) (s.src2Elem N len src2) (s.readZmm dst)) len)

end Sys2Proof.Machine
end

