-- ==== Sys2Proof/Machine/EvexDword.lean ====
section
/-!
DEFINITION. VPMULLD, EVEX-encoded forms (43_vpmulld_evex.md).
-/
namespace Sys2Proof.Machine

/-- R100. -/
def execVpmulldEvex128 (dst src1 : VReg) (mask : Mask) (src2 : Src2) (len : Nat) (s : State) : Outcome :=
  packedMultiply 32 128 .zero (s.udEvex (s.cpuid.avx512vl && s.cpuid.avx512f)) false dst src1 mask src2 len s

/-- R101. -/
def execVpmulldEvex256 (dst src1 : VReg) (mask : Mask) (src2 : Src2) (len : Nat) (s : State) : Outcome :=
  packedMultiply 32 256 .zero (s.udEvex (s.cpuid.avx512vl && s.cpuid.avx512f)) false dst src1 mask src2 len s

/-- R102. -/
def execVpmulldEvex512 (dst src1 : VReg) (mask : Mask) (src2 : Src2) (len : Nat) (s : State) : Outcome :=
  packedMultiply 32 512 .zero (s.udEvex s.cpuid.avx512f) false dst src1 mask src2 len s

end Sys2Proof.Machine
end

