-- ==== Sys2Proof/Machine/EvexQword.lean ====
section
/-!
DEFINITION. VPMULLQ, EVEX-encoded forms (44_vpmullq_evex.md). The flags are the opcode table's, which does not name
AVX512F here (60_exceptions.md R108, 90_conflicts.md C8; log 29).
-/
namespace Sys2Proof.Machine

/-- R103. -/
def execVpmullqEvex128 (dst src1 : VReg) (mask : Mask) (src2 : Src2) (len : Nat) (s : State) : Outcome :=
  packedMultiply 64 128 .zero (s.udEvex (s.cpuid.avx512vl && s.cpuid.avx512dq)) false dst src1 mask src2 len s

/-- R104. -/
def execVpmullqEvex256 (dst src1 : VReg) (mask : Mask) (src2 : Src2) (len : Nat) (s : State) : Outcome :=
  packedMultiply 64 256 .zero (s.udEvex (s.cpuid.avx512vl && s.cpuid.avx512dq)) false dst src1 mask src2 len s

/-- R105. -/
def execVpmullqEvex512 (dst src1 : VReg) (mask : Mask) (src2 : Src2) (len : Nat) (s : State) : Outcome :=
  packedMultiply 64 512 .zero (s.udEvex s.cpuid.avx512dq) false dst src1 mask src2 len s

end Sys2Proof.Machine
end

