-- ==== Sys2Proof/Machine/LegacySse.lean ====
section
/-!
DEFINITION. The legacy SSE form (41_pmulld_legacy_sse.md).
-/
namespace Sys2Proof.Machine

/-- R97: first source and destination are one register, bits above 128 kept, memory operand aligned to 16 bytes. -/
def execPmulldSse (dst : LoReg) (src : RegMem) (len : Nat) (s : State) : Outcome :=
  packedMultiply 32 128 .keep s.udSse true dst.toVReg dst.toVReg .noMask src.toSrc2 len s

end Sys2Proof.Machine
end

