-- ==== Sys2Proof/Machine/Vex.lean ====
section
/-!
DEFINITION. The VEX-encoded forms (42_vpmulld_vex.md).
-/
namespace Sys2Proof.Machine

/-- R98. -/
def execVpmulldVex128 (dst src1 : LoReg) (src2 : RegMem) (len : Nat) (s : State) : Outcome :=
  packedMultiply 32 128 .zero (s.udVex s.cpuid.avx) false dst.toVReg src1.toVReg .noMask src2.toSrc2 len s

/-- R99. -/
def execVpmulldVex256 (dst src1 : LoReg) (src2 : RegMem) (len : Nat) (s : State) : Outcome :=
  packedMultiply 32 256 .zero (s.udVex s.cpuid.avx2) false dst.toVReg src1.toVReg .noMask src2.toSrc2 len s

end Sys2Proof.Machine
end

