-- ==== Sys2Proof/Machine/Dispatch.lean ====
section
/-!
DEFINITION. One arm per constructor of `Instr`.
-/
namespace Sys2Proof.Machine

def exec (i : Instr) (s : State) : Host.Outcome State Fault Refusal :=
  match i with
  | .pmulldSse dst src len => Sys2Proof.Machine.execPmulldSse dst src len s
  | .vpmulldVex128 dst src1 src2 len => Sys2Proof.Machine.execVpmulldVex128 dst src1 src2 len s
  | .vpmulldVex256 dst src1 src2 len => Sys2Proof.Machine.execVpmulldVex256 dst src1 src2 len s
  | .vpmulldEvex128 dst src1 mask src2 len => Sys2Proof.Machine.execVpmulldEvex128 dst src1 mask src2 len s
  | .vpmulldEvex256 dst src1 mask src2 len => Sys2Proof.Machine.execVpmulldEvex256 dst src1 mask src2 len s
  | .vpmulldEvex512 dst src1 mask src2 len => Sys2Proof.Machine.execVpmulldEvex512 dst src1 mask src2 len s
  | .vpmullqEvex128 dst src1 mask src2 len => Sys2Proof.Machine.execVpmullqEvex128 dst src1 mask src2 len s
  | .vpmullqEvex256 dst src1 mask src2 len => Sys2Proof.Machine.execVpmullqEvex256 dst src1 mask src2 len s
  | .vpmullqEvex512 dst src1 mask src2 len => Sys2Proof.Machine.execVpmullqEvex512 dst src1 mask src2 len s

end Sys2Proof.Machine
end

