-- ==== Sys2Proof/Machine/Step.lean ====
section
/-!
DEFINITION. One step: fetch, decode, execute (40_common_lane_semantics.md R94), and the placing of an instruction where
the next step fetches it.
-/
namespace Sys2Proof.Machine

/-- One step. Modes other than 64-bit mode are refused (00_scope.md R4). A fetch that ends before the instruction does
raises its fault (60_exceptions.md R120 item 1). `pc` advances in the meaning itself (10_state.md R25). -/
def step (s : State) : Host.Outcome State Fault Refusal :=
  if s.mode ≠ .long64 then .refused .unsupportedMode
  else
    match decode s.fetch.1 with
    | .ok i => exec i s
    | .ud => raise .ud
    | .reject why => .refused (.undecodable why)
    | .truncated =>
      match s.fetch.2 with
      | some f => raise f
      | none => .refused (.undecodable .tooLong)

/-- Some address of the 15 bytes from `a` lies in the range. -/
def AddrRange.meetsWindow (r : AddrRange) (a : Word) : Bool := (byteAddrs a Config.maxInstrLen).any r.holds

/-- `s` with the row word `w` stored where the next step fetches: the launch premises `Mode64` and `CodeAt` of
70_reset_and_hazards.md R134, and no OS enable (log 23). -/
def State.withFetchWord (s : State) (nbits w : Nat) : State :=
  State.placeBytes
    { s with mode := .long64, unfetchable := s.unfetchable.filter (fun r => !r.meetsWindow s.rip) }
    s.rip (tableBytes nbits w)

end Sys2Proof.Machine
end

