-- ==== Sys2Proof/Safety.lean ====
section
/-!
DEFINITION. The terms claims use: the launch premises of 70_reset_and_hazards.md R134, which bytes a form reads, which
memory faults apply, what a completed form leaves unchanged, the end of a run.
-/
namespace Sys2Proof.Safety
open Sys2Proof.Machine

/-! ## Launch premises (70_reset_and_hazards.md R134)

`NoFaultRecorded`, a premise on a run, stands with the runs below. `NoDebug` and `NoInterrupt` have no predicate: no debug
facility and no interrupt is in the model (00_scope.md R4, decision D16, log 26). -/

/-- `Mode64`. -/
def Mode64 (s : State) : Prop := s.mode = .long64

/-- Every feature flag the row names is 1 (60_exceptions.md R108, the opcode table's column). -/
def FlagsPresent : Instr → State → Prop
  | .pmulldSse _ _ _, s => s.cpuid.sse41 = true
  | .vpmulldVex128 _ _ _ _, s => s.cpuid.avx = true
  | .vpmulldVex256 _ _ _ _, s => s.cpuid.avx2 = true
  | .vpmulldEvex128 _ _ _ _ _, s => s.cpuid.avx512vl = true ∧ s.cpuid.avx512f = true
  | .vpmulldEvex256 _ _ _ _ _, s => s.cpuid.avx512vl = true ∧ s.cpuid.avx512f = true
  | .vpmulldEvex512 _ _ _ _ _, s => s.cpuid.avx512f = true
  | .vpmullqEvex128 _ _ _ _ _, s => s.cpuid.avx512vl = true ∧ s.cpuid.avx512dq = true
  | .vpmullqEvex256 _ _ _ _ _, s => s.cpuid.avx512vl = true ∧ s.cpuid.avx512dq = true
  | .vpmullqEvex512 _ _ _ _ _, s => s.cpuid.avx512dq = true

/-- `CR4_OSXSAVE = 1`, `XCR0[2:1] = 11b` (60_exceptions.md R110). -/
def VexEnabled (s : State) : Prop :=
  s.cr4.getLsbD 18 = true ∧ s.xcr0.getLsbD 1 = true ∧ s.xcr0.getLsbD 2 = true

/-- `VexEnabled` and `XCR0[7:5] = 111b` (60_exceptions.md R111). -/
def EvexEnabled (s : State) : Prop :=
  VexEnabled s ∧ s.xcr0.getLsbD 5 = true ∧ s.xcr0.getLsbD 6 = true ∧ s.xcr0.getLsbD 7 = true

/-- The operating system has enabled the row's class (60_exceptions.md R109 to R111). -/
def OsEnabled : Instr → State → Prop
  | .pmulldSse _ _ _, s => s.cr0.getLsbD 2 = false ∧ s.cr4.getLsbD 9 = true
  | .vpmulldVex128 _ _ _ _, s => VexEnabled s
  | .vpmulldVex256 _ _ _ _, s => VexEnabled s
  | .vpmulldEvex128 _ _ _ _ _, s => EvexEnabled s
  | .vpmulldEvex256 _ _ _ _ _, s => EvexEnabled s
  | .vpmulldEvex512 _ _ _ _ _, s => EvexEnabled s
  | .vpmullqEvex128 _ _ _ _ _, s => EvexEnabled s
  | .vpmullqEvex256 _ _ _ _ _, s => EvexEnabled s
  | .vpmullqEvex512 _ _ _ _ _, s => EvexEnabled s

/-- No `#UD` cause of 60_exceptions.md R108 to R111 holds for the row. -/
def NoUd (i : Instr) (s : State) : Prop := FlagsPresent i s ∧ OsEnabled i s

/-- `Enabled(row)`: no `#UD` and no `#NM` cause holds. -/
def Enabled (i : Instr) (s : State) : Prop := NoUd i s ∧ s.cr0.getLsbD 3 = false

/-- `CodeAt(base, bytes)`: the bytes stand at `base`, canonical and fetchable. None stands past 2^64 (20_memory.md R37;
log 33). -/
def CodeAt (base : Word) (bytes : List Byte) (s : State) : Prop :=
  ∀ k : Nat, ∀ h : k < bytes.length,
    base.toNat + k < 2 ^ 64 ∧ s.readByte (base + BitVec.ofNat 64 k) = bytes[k] ∧ s.canonical (base + BitVec.ofNat 64 k) = true
      ∧ s.fetchable (base + BitVec.ofNat 64 k) = true

/-- `Readable(a, n)`. No byte stands past 2^64 (20_memory.md R37). -/
def Readable (a : Word) (n : Nat) (s : State) : Prop :=
  ∀ k : Nat, k < n → a.toNat + k < 2 ^ 64 ∧ s.canonical (a + BitVec.ofNat 64 k) = true
    ∧ s.accessible (a + BitVec.ofNat 64 k) = true

/-- `Aligned16(a)`. -/
def Aligned16 (a : Word) : Prop := a.toNat % 16 = 0

/-- The well-formedness of `FEATURES` (60_exceptions.md R108, decision D5). -/
def FeaturesWellFormed (c : Cpuid) : Prop :=
  (c.avx512dq = true → c.avx512f = true) ∧ (c.avx512vl = true → c.avx512f = true) ∧ (c.avx2 = true → c.avx = true)

/-! ## What a form reads (20_memory.md R39, R40, R46) -/

/-- `enabled(j)` (40_common_lane_semantics.md R90). -/
def LaneEnabled (i : Instr) (s : State) (j : Nat) : Prop :=
  match i.writemask with
  | .noMask => True
  | .merge k => (s.readK k).getLsbD j = true
  | .zero k => (s.readK k).getLsbD j = true

/-- Element `j` of a memory operand can fault (20_memory.md R46). -/
def LaneChecked (i : Instr) (s : State) (j : Nat) : Prop := LaneEnabled i s j ∨ s.faultSuppression = false

/-- The byte at `b` is one the form reads, or checks without fault suppression (20_memory.md R39, R40, R46). -/
def ReadsByte (i : Instr) (s : State) (b : Word) : Prop :=
  match i.secondSource with
  | .reg _ => False
  | .mem ea => ∃ j, j < i.lanes ∧ LaneChecked i s j ∧
      ∃ k, k < i.elemBits / 8 ∧ b = s.linearAddr i.len ea + BitVec.ofNat 64 (j * (i.elemBits / 8) + k)
  | .bcst ea => (∃ j, j < i.lanes ∧ LaneChecked i s j) ∧
      ∃ k, k < i.elemBits / 8 ∧ b = s.linearAddr i.len ea + BitVec.ofNat 64 k

/-- The segment in force for the memory operand is SS (20_memory.md R43). -/
def ThroughSs (i : Instr) : Prop :=
  match i.secondSource with
  | .reg _ => False
  | .mem ea => ea.seg = .ss
  | .bcst ea => ea.seg = .ss

/-- The legacy form's memory operand is not a multiple of 16 (20_memory.md R41). -/
def Misaligned (i : Instr) (s : State) : Prop :=
  i.isLegacy = true ∧ ∃ ea, i.secondSource = .mem ea ∧ ¬ Aligned16 (s.linearAddr i.len ea)

/-- The byte at `b` of the memory operand is canonical (20_memory.md R42) and not past 2^64, where the access faults before
it wraps (R37): it does not stand below the operand's first byte. -/
def CanonicalByte (i : Instr) (s : State) (b : Word) : Prop :=
  s.canonical b = true ∧
    match i.secondSource with
    | .reg _ => True
    | .mem ea => s.linearAddr i.len ea ≤ b
    | .bcst ea => s.linearAddr i.len ea ≤ b

/-- Some byte to be read has a non-canonical linear address (20_memory.md R42), one past 2^64 included (R37). -/
def ReadsNonCanonical (i : Instr) (s : State) : Prop := ∃ b, ReadsByte i s b ∧ ¬ CanonicalByte i s b

/-- The `#GP(0)` conditions of 60_exceptions.md R115. -/
def GpApplies (i : Instr) (s : State) : Prop := Misaligned i s ∨ (ReadsNonCanonical i s ∧ ¬ ThroughSs i)

/-- The `#SS(0)` condition of 60_exceptions.md R116. -/
def SsApplies (i : Instr) (s : State) : Prop := ReadsNonCanonical i s ∧ ThroughSs i

/-- The `#PF` condition of 60_exceptions.md R117. -/
def PfApplies (i : Instr) (s : State) : Prop := ∃ b, ReadsByte i s b ∧ s.accessible b = false

/-- The memory operand, if there is one, can be read without a fault. -/
def OperandReadable (i : Instr) (s : State) : Prop :=
  ¬ Misaligned i s ∧ ∀ b, ReadsByte i s b → CanonicalByte i s b ∧ s.accessible b = true

/-- The premises under which a form completes: `Mode64`, `Enabled(row)`, its operand readable. -/
def Ready (i : Instr) (s : State) : Prop := Mode64 s ∧ Enabled i s ∧ OperandReadable i s

/-! ## What a completed form does -/

/-- The lanes of the destination (40_common_lane_semantics.md R88 to R92): the low `N` bits of the product where the lane
is enabled; where it is not, 0 under zeroing-masking and the old lane under merging-masking. -/
def LanesMultiplied (N : Nat) (i : Instr) (s t : State) : Prop :=
  ∀ j, j < i.lanes →
    (LaneEnabled i s j →
      lane N (t.readZmm i.dst) j = lane N (s.readZmm i.firstSource) j * s.src2Elem N i.len i.secondSource j) ∧
    (¬ LaneEnabled i s j →
      lane N (t.readZmm i.dst) j =
        match i.writemask with
        | .noMask => lane N (s.readZmm i.dst) j
        | .merge _ => lane N (s.readZmm i.dst) j
        | .zero _ => 0)

/-- Bits `[MAXVL-1:VL]` of the destination are 0 (40_common_lane_semantics.md R93). -/
def UpperZeroed (i : Instr) (t : State) : Prop := t.readZmm i.dst >>> i.vecLen = 0

/-- Bits `[MAXVL-1:VL]` of the destination are unchanged (40_common_lane_semantics.md R93). -/
def UpperKept (i : Instr) (s t : State) : Prop := t.readZmm i.dst >>> i.vecLen = s.readZmm i.dst >>> i.vecLen

/-- The frame of 10_state.md R32: only the destination register and `pc` differ, `pc` by `len`; every other vector
register, every other register, every byte of memory and every open parameter is as it was. -/
def OnlyDstAndPc (i : Instr) (s t : State) : Prop :=
  t = { s with zmm := t.zmm, rip := s.rip + BitVec.ofNat 64 i.len }
    ∧ (∀ n, n ≠ i.dst → t.readZmm n = s.readZmm n)
    ∧ ∀ a, t.readByte a = s.readByte a

/-- The same outcome with a next state changed by `f`: how two runs are compared that differ in state a form must not
look at. -/
def mapNext (f : State → State) : Outcome → Outcome
  | .next t => .next (f t)
  | .fault r => .fault r
  | .refused r => .refused r

/-- A general register the memory operand's address is computed from (10_state.md R23). -/
def AddressRegister (i : Instr) (r : Gpr) : Prop :=
  match i.secondSource with
  | .reg _ => False
  | .mem ea => ea.base = some r ∨ ea.index = some r
  | .bcst ea => ea.base = some r ∨ ea.index = some r

/-- The opmask register the form names, if it names one (10_state.md R21). -/
def MaskRegister (i : Instr) (k : KReg) : Prop := i.writemask = .merge k ∨ i.writemask = .zero k

/-! ## Encodings -/

/-- Every byte of the list is a legacy prefix of 30_encoding.md R57 or a REX byte (R58). -/
def AllPrefixes (pre : List Byte) : Prop :=
  ∀ b ∈ pre, b ∈ ([0x66, 0xF2, 0xF3, 0xF0, 0x2E, 0x36, 0x3E, 0x26, 0x64, 0x65, 0x67] : List Byte) ∨ b.extractLsb' 4 4 = 4

/-- The row's `mask` and `match` bytes (30_encoding.md R78), first byte of the pattern first. -/
def rowPattern : Instr → List (Byte × Byte)
  | .pmulldSse _ _ _ => [(0xFF, 0x0F), (0xFF, 0x38), (0xFF, 0x40)]
  | .vpmulldVex128 _ _ _ _ => [(0xFF, 0xC4), (0x1F, 0x02), (0x07, 0x01), (0xFF, 0x40)]
  | .vpmulldVex256 _ _ _ _ => [(0xFF, 0xC4), (0x1F, 0x02), (0x07, 0x05), (0xFF, 0x40)]
  | .vpmulldEvex128 _ _ _ _ _ => [(0xFF, 0x62), (0x0F, 0x02), (0x87, 0x05), (0x60, 0x00), (0xFF, 0x40)]
  | .vpmulldEvex256 _ _ _ _ _ => [(0xFF, 0x62), (0x0F, 0x02), (0x87, 0x05), (0x60, 0x20), (0xFF, 0x40)]
  | .vpmulldEvex512 _ _ _ _ _ => [(0xFF, 0x62), (0x0F, 0x02), (0x87, 0x05), (0x60, 0x40), (0xFF, 0x40)]
  | .vpmullqEvex128 _ _ _ _ _ => [(0xFF, 0x62), (0x0F, 0x02), (0x87, 0x85), (0x60, 0x00), (0xFF, 0x40)]
  | .vpmullqEvex256 _ _ _ _ _ => [(0xFF, 0x62), (0x0F, 0x02), (0x87, 0x85), (0x60, 0x20), (0xFF, 0x40)]
  | .vpmullqEvex512 _ _ _ _ _ => [(0xFF, 0x62), (0x0F, 0x02), (0x87, 0x85), (0x60, 0x40), (0xFF, 0x40)]

/-- `(bytes AND mask) = match` over the whole pattern (30_encoding.md R78). -/
def matchesPattern : List (Byte × Byte) → List Byte → Bool
  | [], _ => true
  | _ :: _, [] => false
  | (mask, want) :: ps, b :: bs => (b &&& mask == want) && matchesPattern ps bs

/-- No prefix that makes a VEX or EVEX form `#UD` (60_exceptions.md R112): LOCK, 66h, F2h, F3h, REX. -/
def NoVexForbiddenPrefix (pre : List Byte) : Prop :=
  0xF0 ∉ pre ∧ 0x66 ∉ pre ∧ 0xF2 ∉ pre ∧ 0xF3 ∉ pre ∧ ∀ b ∈ pre, b.extractLsb' 4 4 ≠ 4

/-! ## Runs -/

/-- `NoFaultRecorded` (70_reset_and_hazards.md R134): none of the first `k` steps of the run from `s` faulted (log 32). -/
def NoFaultRecorded (k : Nat) (s : State) : Prop := ∀ f, Host.Core.run Sys2Proof.core k s ≠ .fault f

/-- The end of a run (70_reset_and_hazards.md R135, decision D18): `k` completed steps, at least one, no fault recorded, and
`pc = END`. -/
def FinalAt (endAddr : Word) (k : Nat) (s t : State) : Prop :=
  0 < k ∧ Host.Core.run Sys2Proof.core k s = .next t ∧ NoFaultRecorded k s ∧ t.rip = endAddr

/-- The meanings of a sequence of decoded forms, one after the other, stopping at the first that does not complete. -/
def execAll : List Instr → State → Outcome
  | [], s => .next s
  | i :: is, s =>
    match exec i s with
    | .next t => execAll is t
    | .fault f => .fault f
    | .refused r => .refused r

/-- The invariant of every step: memory in its canonical form, and a set of features that exists (decision D5). -/
def Inv (s : State) : Prop := Memory.wf s.mem = true ∧ FeaturesWellFormed s.cpuid

/-- `t` is `s` but for the vector registers and `pc`: what no form ever changes is as in `s`. -/
def SameEnvironment (s t : State) : Prop := t = { s with zmm := t.zmm, rip := t.rip }

end Sys2Proof.Safety
end

