-- ==== Sys2Proof/Certificates/Slice0/Obligations.lean ====
section
/-!
DEFINITION. The statements for the provers. OBLIGATIONS.json lists them with the rules they rest on.
-/
open Sys2Proof Sys2Proof.Machine Sys2Proof.Safety

/-! ## Encoding -/

/-- 30_encoding.md R53 to R81: the encoding of a well-formed instruction decodes to it, whatever bytes follow. -/
def Obligations.DecodeEncodeAgree : Prop :=
  ∀ (i : Instr) (rest : List Byte), i.wellFormed = true → decode (encode i ++ rest) = .ok i

/-- R56, R60, R61, R73, R81: what the decoder answers is a form an encoding can spell, of a length from the shortest
encoding to 15 bytes, all of them present. -/
def Obligations.DecodeGivesWellFormed : Prop :=
  ∀ (bytes : List Byte) (i : Instr), decode bytes = .ok i → i.wellFormed = true ∧ i.len ≤ bytes.length

/-- R77 step 5: the instruction ends with its displacement: the bytes after `len` have no say. -/
def Obligations.DecodeReadsOnlyItsBytes : Prop :=
  ∀ (bytes rest : List Byte) (i : Instr), decode bytes = .ok i → decode (bytes.take i.len ++ rest) = .ok i

/-- The worked examples of R97 to R105, byte by byte, with their field values as those rules give them. -/
def Obligations.WorkedExampleBytesDecode : Prop :=
  decode [0x66, 0x0F, 0x38, 0x40, 0xC1] = .ok (.pmulldSse 0 (.reg 1) 5) ∧
  decode [0xC4, 0xE2, 0x69, 0x40, 0xCB] = .ok (.vpmulldVex128 1 2 (.reg 3) 5) ∧
  decode [0xC4, 0xE2, 0x6D, 0x40, 0xCB] = .ok (.vpmulldVex256 1 2 (.reg 3) 5) ∧
  decode [0x62, 0xF2, 0x6D, 0x09, 0x40, 0xCB] = .ok (.vpmulldEvex128 1 2 (.merge 1) (.reg 3) 6) ∧
  decode [0x62, 0x02, 0x0D, 0xA7, 0x40, 0xEF] = .ok (.vpmulldEvex256 29 30 (.zero 7) (.reg 31) 6) ∧
  decode [0x62, 0xF2, 0x6D, 0x58, 0x40, 0x08] =
    .ok (.vpmulldEvex512 1 2 .noMask
      (.bcst { seg := .ds, base := some 0, index := none, scale := 0, disp := 0, ripRel := false }) 6) ∧
  decode [0x62, 0xF2, 0xED, 0x08, 0x40, 0xCB] = .ok (.vpmullqEvex128 1 2 .noMask (.reg 3) 6) ∧
  decode [0x62, 0xF2, 0xED, 0x2A, 0x40, 0xCB] = .ok (.vpmullqEvex256 1 2 (.merge 2) (.reg 3) 6) ∧
  decode [0x62, 0xF2, 0xED, 0xDB, 0x40, 0x08] =
    .ok (.vpmullqEvex512 1 2 (.zero 3)
      (.bcst { seg := .ds, base := some 0, index := none, scale := 0, disp := 0, ripRel := false }) 6)

/-- R78: after the prefixes, the bytes match the mask and match of the row the decoder answers. -/
def Obligations.DecodedRowMatchesItsPattern : Prop :=
  ∀ (pre rest : List Byte) (lead : Byte) (i : Instr), AllPrefixes pre → ¬ AllPrefixes [lead] →
    decode (pre ++ lead :: rest) = .ok i → matchesPattern (rowPattern i) (lead :: rest) = true

/-- 60_exceptions.md R112: LOCK makes every form `#UD`; 66h, F2h, F3h or a REX byte before C4h or 62h does so for the VEX
and EVEX forms. (Bytes that end before the instruction does, or after 15 of it, are the fetch's matter, R120 item 1.) -/
def Obligations.ForbiddenPrefixRaisesUd : Prop :=
  ∀ (s : State) (pre rest : List Byte), Mode64 s → AllPrefixes pre →
    decode s.fetch.1 ≠ .truncated → decode s.fetch.1 ≠ .reject .tooLong →
    ((∃ lead, (lead = 0xC4 ∨ lead = 0x62) ∧ s.fetch.1 = pre ++ lead :: rest ∧
        ∃ b ∈ pre, b = 0xF0 ∨ b = 0x66 ∨ b = 0xF2 ∨ b = 0xF3 ∨ b.extractLsb' 4 4 = 4) →
      step s = .fault .ud) ∧
    (s.fetch.1 = pre ++ 0x0F :: 0x38 :: 0x40 :: rest → 0xF0 ∈ pre → 0x66 ∈ pre → 0xF2 ∉ pre → 0xF3 ∉ pre →
      step s = .fault .ud)

/-- 60_exceptions.md R113: the EVEX field conditions, with any prefixes before 62h, for opcode 40h of map 0F38 with
`pp = 01`. -/
def Obligations.EvexFieldConditionRaisesUd : Prop :=
  ∀ (s : State) (pre rest : List Byte) (p0 p1 p2 modrm : Byte), Mode64 s → AllPrefixes pre →
    s.fetch.1 = pre ++ 0x62 :: p0 :: p1 :: p2 :: 0x40 :: modrm :: rest →
    p0.extractLsb' 0 2 = 2 → p1.extractLsb' 0 2 = 1 →
    decode s.fetch.1 ≠ .truncated → decode s.fetch.1 ≠ .reject .tooLong →
    (p0.extractLsb' 2 2 ≠ 0 ∨ p1.getLsbD 2 = false ∨ p2.extractLsb' 5 2 = 3
      ∨ (p2.getLsbD 7 = true ∧ p2.extractLsb' 0 3 = 0) ∨ (p2.getLsbD 4 = true ∧ modrm.extractLsb' 6 2 = 3)) →
    step s = .fault .ud

/-- R79, decisions D14, D23, D25: neighbours of the nine rows are refused by name, whatever prefixes stand before them
and in whatever order: no 66h, or F2h or F3h, with the legacy opcode; the two-byte VEX prefix; another map, `pp` or opcode
under VEX or EVEX without a prefix that makes it `#UD` (R112). `.tooLong` is the name where the prefixes leave no room
for the opcode in 15 bytes. Bytes with 67h among the prefixes are never an instruction, and a 67h put anywhere among the
prefixes of an instruction of fewer than 15 bytes is refused by its own name. Which answer comes where several reasons
hold of the same bytes is the model's choice (log 18): no 66h before F2h or F3h, another opcode before 67h, and, for
`0F 38 40` without 66h or with F2h or F3h, the refusal before the `#UD` that R79 gives LOCK. -/
def Obligations.NeighbourEncodingsRefused : Prop :=
  ∀ (pre rest : List Byte), AllPrefixes pre →
    (0x66 ∉ pre → decode (pre ++ 0x0F :: 0x38 :: 0x40 :: rest) =
      .reject (if pre.length ≤ 12 then .noOperandSizePrefix else .tooLong)) ∧
    (0x66 ∈ pre → 0xF2 ∈ pre ∨ 0xF3 ∈ pre → decode (pre ++ 0x0F :: 0x38 :: 0x40 :: rest) =
      .reject (if pre.length ≤ 12 then .repeatPrefix else .tooLong)) ∧
    decode (pre ++ 0xC5 :: rest) = .reject (if pre.length ≤ 14 then .notThisFamily else .tooLong) ∧
    (NoVexForbiddenPrefix pre → ∀ v1 v2 op : Byte, v1.extractLsb' 0 5 ≠ 2 ∨ v2.extractLsb' 0 2 ≠ 1 ∨ op ≠ 0x40 →
      decode (pre ++ 0xC4 :: v1 :: v2 :: op :: rest) = .reject (if pre.length ≤ 11 then .notThisFamily else .tooLong)) ∧
    (NoVexForbiddenPrefix pre → ∀ p0 p1 p2 op : Byte, p0.extractLsb' 0 2 ≠ 2 ∨ p1.extractLsb' 0 2 ≠ 1 ∨ op ≠ 0x40 →
      decode (pre ++ 0x62 :: p0 :: p1 :: p2 :: op :: rest) =
        .reject (if pre.length ≤ 10 then .notThisFamily else .tooLong)) ∧
    (0x67 ∈ pre → ∀ i, decode (pre ++ rest) ≠ .ok i) ∧
    ∀ (pre' : List Byte) (lead : Byte) (i : Instr), AllPrefixes pre' → ¬ AllPrefixes [lead] →
      decode (pre ++ pre' ++ lead :: rest) = .ok i → i.len < 15 →
      decode (pre ++ 0x67 :: pre' ++ lead :: rest) = .reject .addressSizePrefix

/-- R57: a redundant 26h, 2Eh, 36h or 3Eh prefix changes the length only. -/
def Obligations.IgnoredSegmentPrefixOnlyLengthens : Prop :=
  ∀ (b : Byte) (bytes : List Byte) (i : Instr), b = 0x26 ∨ b = 0x2E ∨ b = 0x36 ∨ b = 0x3E →
    decode bytes = .ok i → i.len < 15 → decode (b :: bytes) = .ok (i.withLen (i.len + 1))

/-- R54 (WIG), R58: `VEX.W` and `REX.W` are ignored, whatever prefixes come before and whatever comes after. -/
def Obligations.WBitsIgnored : Prop :=
  ∀ (pre rest : List Byte) (v1 v2 rex : Byte), AllPrefixes pre →
    decode (pre ++ 0xC4 :: v1 :: (v2 ^^^ 0x80) :: rest) = decode (pre ++ 0xC4 :: v1 :: v2 :: rest) ∧
    (rex.extractLsb' 4 4 = 4 → decode (pre ++ (rex ^^^ 0x08) :: rest) = decode (pre ++ rex :: rest))

/-- R70: in an EVEX form disp8 is multiplied by N, the table's VL/8, or the element size under broadcast; disp32 is not,
with a base (`mod = 10`), RIP-relative, or without a base (SIB `base = 101`). -/
def Obligations.EvexDisp8Scaled : Prop :=
  ∀ (pre : List Byte) (p0 p1 p2 : Byte) (reg rm : BitVec 3) (sib d d0 d1 d2 d3 : Byte) (rest : List Byte) (i : Instr),
    AllPrefixes pre →
    (decode (pre ++ 0x62 :: p0 :: p1 :: p2 :: 0x40 :: modRmByte 1 reg rm :: (if rm = 4 then [sib, d] else [d]) ++ rest) =
        .ok i →
      ∃ ea, i.secondSource = (if p2.getLsbD 4 then .bcst ea else .mem ea) ∧
        ea.disp = d.signExtend 64 *
          (if p2.getLsbD 4 then (if p1.getLsbD 7 then 8 else 4)
           else if p2.extractLsb' 5 2 = 0 then 16 else if p2.extractLsb' 5 2 = 1 then 32 else 64)) ∧
    (decode (pre ++ 0x62 :: p0 :: p1 :: p2 :: 0x40 :: modRmByte 2 reg rm ::
        (if rm = 4 then [sib, d0, d1, d2, d3] else [d0, d1, d2, d3]) ++ rest) = .ok i →
      ∃ ea, i.secondSource = (if p2.getLsbD 4 then .bcst ea else .mem ea) ∧
        ea.disp = (d3 ++ d2 ++ d1 ++ d0 : BitVec 32).signExtend 64) ∧
    ((rm = 4 ∧ sib.extractLsb' 0 3 = 5) ∨ rm = 5 →
      decode (pre ++ 0x62 :: p0 :: p1 :: p2 :: 0x40 :: modRmByte 0 reg rm ::
        (if rm = 4 then [sib, d0, d1, d2, d3] else [d0, d1, d2, d3]) ++ rest) = .ok i →
      ∃ ea, i.secondSource = (if p2.getLsbD 4 then .bcst ea else .mem ea) ∧ ea.base = none ∧
        ea.disp = (d3 ++ d2 ++ d1 ++ d0 : BitVec 32).signExtend 64)

/-- R60, R61, R62: the addressing forms with a base, for every `reg`, every `rm` but 100b and (for `mod = 00`) 101b, and
every extension bit; `n` is the disp8 factor. -/
def Obligations.ModRmBaseForms : Prop :=
  ∀ (ov : Option Seg) (x b : Bool) (n : Nat) (reg rm : BitVec 3) (d d0 d1 d2 d3 : Byte) (rest : List Byte), rm ≠ 4 →
    (rm ≠ 5 → takeModRm ov x b n (modRmByte 0 reg rm :: rest) =
      some (reg, .mem { seg := segInForce ov (some (regNum b rm)), base := some (regNum b rm), index := none, scale := 0,
                        disp := 0, ripRel := false }, rest)) ∧
    takeModRm ov x b n (modRmByte 1 reg rm :: d :: rest) =
      some (reg, .mem { seg := segInForce ov (some (regNum b rm)), base := some (regNum b rm), index := none, scale := 0,
                        disp := d.signExtend 64 * BitVec.ofNat 64 n, ripRel := false }, rest) ∧
    takeModRm ov x b n (modRmByte 2 reg rm :: d0 :: d1 :: d2 :: d3 :: rest) =
      some (reg, .mem { seg := segInForce ov (some (regNum b rm)), base := some (regNum b rm), index := none, scale := 0,
                        disp := (d3 ++ d2 ++ d1 ++ d0 : BitVec 32).signExtend 64, ripRel := false }, rest)

/-- R60 to R63, 20_memory.md R43: the SIB forms: the index is `X:index` unless that number is 4, the base is `B:base`,
and `mod = 00` with `base = 101` means no base and a disp32, whatever `B` is. The effective address of every form that is
not RIP-relative, with a SIB byte or without, is base, if any, plus index, if any, times `2^scale`, plus displacement. That
the decoded scale is 0 where there is no index is no rule of the spec: it is the model's choice (log 21). -/
def Obligations.SibForms : Prop :=
  ∀ (ov : Option Seg) (x b : Bool) (n : Nat) (scale : BitVec 2) (idx base : BitVec 3) (d d0 d1 d2 d3 : Byte)
    (rest : List Byte) (index : Option Gpr) (sc : Fin 4),
    index = (if x = false ∧ idx = 4 then none else some (regNum x idx)) →
    sc = (if x = false ∧ idx = 4 then 0 else Fin.ofNat 4 scale.toNat) →
    (base ≠ 5 → takeSib ov x b n 0 (sibByte scale idx base :: rest) =
      some ({ seg := segInForce ov (some (regNum b base)), base := some (regNum b base), index := index, scale := sc,
              disp := 0, ripRel := false }, rest)) ∧
    takeSib ov x b n 0 (sibByte scale idx 5 :: d0 :: d1 :: d2 :: d3 :: rest) =
      some ({ seg := segInForce ov none, base := none, index := index, scale := sc,
              disp := (d3 ++ d2 ++ d1 ++ d0 : BitVec 32).signExtend 64, ripRel := false }, rest) ∧
    takeSib ov x b n 1 (sibByte scale idx base :: d :: rest) =
      some ({ seg := segInForce ov (some (regNum b base)), base := some (regNum b base), index := index, scale := sc,
              disp := d.signExtend 64 * BitVec.ofNat 64 n, ripRel := false }, rest) ∧
    takeSib ov x b n 2 (sibByte scale idx base :: d0 :: d1 :: d2 :: d3 :: rest) =
      some ({ seg := segInForce ov (some (regNum b base)), base := some (regNum b base), index := index, scale := sc,
              disp := (d3 ++ d2 ++ d1 ++ d0 : BitVec 32).signExtend 64, ripRel := false }, rest) ∧
    ∀ (s : State) (len : Nat) (ea : AddrForm), ea.ripRel = false →
      s.effectiveAddr len ea =
        (match ea.base with | some q => s.readGpr q | none => 0) +
        (match ea.index with | some r => s.readGpr r * BitVec.ofNat 64 (2 ^ ea.scale.val) | none => 0) + ea.disp

/-- R64: `mod = 00, rm = 101` is RIP-relative whatever the extension bits are: EA is the next instruction's address plus
the sign-extended disp32, and the default segment is DS. -/
def Obligations.RipRelativeAddress : Prop :=
  ∀ (ov : Option Seg) (x b : Bool) (n : Nat) (reg : BitVec 3) (d0 d1 d2 d3 : Byte) (rest : List Byte) (s : State) (len : Nat),
    ∃ ea, takeModRm ov x b n (modRmByte 0 reg 5 :: d0 :: d1 :: d2 :: d3 :: rest) = some (reg, .mem ea, rest) ∧
      s.effectiveAddr len ea = s.rip + BitVec.ofNat 64 len + (d3 ++ d2 ++ d1 ++ d0 : BitVec 32).signExtend 64 ∧
      (ov = none → ea.seg = .ds)

/-- 20_memory.md R43, 10_state.md R28: the linear address is the effective address plus FS_BASE or GS_BASE under an
override and plus 0 otherwise, and without an override the segment in force is SS exactly for a base numbered 4 or 5. -/
def Obligations.SegmentBaseAndDefault : Prop :=
  ∀ (s : State) (len : Nat) (ea : AddrForm),
    s.linearAddr len { ea with seg := .fs } = s.fsBase + s.effectiveAddr len ea ∧
    s.linearAddr len { ea with seg := .gs } = s.gsBase + s.effectiveAddr len ea ∧
    s.linearAddr len { ea with seg := .ds } = s.effectiveAddr len ea ∧
    s.linearAddr len { ea with seg := .ss } = s.effectiveAddr len ea ∧
    ∀ (base : Option Gpr) (g : Seg), segInForce (some g) base = g ∧
      (segInForce none base = .ss ↔ base = some 4 ∨ base = some 5) ∧
      (segInForce none base = .ds ↔ ¬ (base = some 4 ∨ base = some 5))

/-! ## The lane multiply -/

/-- 40_common_lane_semantics.md R86. -/
def Obligations.MulloDoesNotDependOnSignedness : Prop :=
  ∀ (N : Nat) (a b : BitVec N),
    (mullo N a b).toNat = (a.toNat * b.toNat) % 2 ^ N ∧ mullo N a b = a * b

/-- The table of 40_common_lane_semantics.md R87, for both element widths. -/
def Obligations.MulloCornerCases : Prop :=
  ∀ (N : Nat), N = 32 ∨ N = 64 → ∀ (a b : BitVec N),
    mullo N a b = mullo N b a ∧
    mullo N 0 b = 0 ∧
    mullo N 1 b = b ∧
    mullo N (-1) b = -b ∧
    mullo N (-1) (BitVec.intMin N) = BitVec.intMin N ∧
    mullo N (BitVec.intMin N) (BitVec.intMin N) = 0 ∧
    mullo N (BitVec.intMin N) b = (if b.getLsbD 0 then BitVec.intMin N else 0) ∧
    (∀ k, k < N → mullo N (BitVec.ofNat N (2 ^ k)) b = b <<< k) ∧
    mullo N (BitVec.ofNat N (2 ^ (N / 2))) (BitVec.ofNat N (2 ^ (N / 2))) = 0 ∧
    mullo N (BitVec.intMax N) 2 = -2

/-! ## What each form does -/

/-- 41_pmulld_legacy_sse.md R97: PMULLD completes when it is ready, multiplies four dwords, keeps the bits above 128, and
changes nothing but its destination and `pc`. -/
def Obligations.PmulldSseCompletes : Prop :=
  ∀ (dst : LoReg) (src : RegMem) (len : Nat) (s : State), Ready (.pmulldSse dst src len) s →
    ∃ t, exec (.pmulldSse dst src len) s = .next t ∧
      LanesMultiplied 32 (.pmulldSse dst src len) s t ∧ UpperKept (.pmulldSse dst src len) s t ∧
      OnlyDstAndPc (.pmulldSse dst src len) s t

/-- 42_vpmulld_vex.md R98. -/
def Obligations.VpmulldVex128Completes : Prop :=
  ∀ (dst src1 : LoReg) (src2 : RegMem) (len : Nat) (s : State), Ready (.vpmulldVex128 dst src1 src2 len) s →
    ∃ t, exec (.vpmulldVex128 dst src1 src2 len) s = .next t ∧
      LanesMultiplied 32 (.vpmulldVex128 dst src1 src2 len) s t ∧ UpperZeroed (.vpmulldVex128 dst src1 src2 len) t ∧
      OnlyDstAndPc (.vpmulldVex128 dst src1 src2 len) s t

/-- 42_vpmulld_vex.md R99. -/
def Obligations.VpmulldVex256Completes : Prop :=
  ∀ (dst src1 : LoReg) (src2 : RegMem) (len : Nat) (s : State), Ready (.vpmulldVex256 dst src1 src2 len) s →
    ∃ t, exec (.vpmulldVex256 dst src1 src2 len) s = .next t ∧
      LanesMultiplied 32 (.vpmulldVex256 dst src1 src2 len) s t ∧ UpperZeroed (.vpmulldVex256 dst src1 src2 len) t ∧
      OnlyDstAndPc (.vpmulldVex256 dst src1 src2 len) s t

/-- 43_vpmulld_evex.md R100. -/
def Obligations.VpmulldEvex128Completes : Prop :=
  ∀ (dst src1 : VReg) (mask : Mask) (src2 : Src2) (len : Nat) (s : State), Ready (.vpmulldEvex128 dst src1 mask src2 len) s →
    ∃ t, exec (.vpmulldEvex128 dst src1 mask src2 len) s = .next t ∧
      LanesMultiplied 32 (.vpmulldEvex128 dst src1 mask src2 len) s t ∧
      UpperZeroed (.vpmulldEvex128 dst src1 mask src2 len) t ∧ OnlyDstAndPc (.vpmulldEvex128 dst src1 mask src2 len) s t

/-- 43_vpmulld_evex.md R101. -/
def Obligations.VpmulldEvex256Completes : Prop :=
  ∀ (dst src1 : VReg) (mask : Mask) (src2 : Src2) (len : Nat) (s : State), Ready (.vpmulldEvex256 dst src1 mask src2 len) s →
    ∃ t, exec (.vpmulldEvex256 dst src1 mask src2 len) s = .next t ∧
      LanesMultiplied 32 (.vpmulldEvex256 dst src1 mask src2 len) s t ∧
      UpperZeroed (.vpmulldEvex256 dst src1 mask src2 len) t ∧ OnlyDstAndPc (.vpmulldEvex256 dst src1 mask src2 len) s t

/-- 43_vpmulld_evex.md R102: sixteen lanes; the bits above 512, if `MAXVL` leaves any (00_scope.md R5), are cleared. -/
def Obligations.VpmulldEvex512Completes : Prop :=
  ∀ (dst src1 : VReg) (mask : Mask) (src2 : Src2) (len : Nat) (s : State), Ready (.vpmulldEvex512 dst src1 mask src2 len) s →
    ∃ t, exec (.vpmulldEvex512 dst src1 mask src2 len) s = .next t ∧
      LanesMultiplied 32 (.vpmulldEvex512 dst src1 mask src2 len) s t ∧
      UpperZeroed (.vpmulldEvex512 dst src1 mask src2 len) t ∧ OnlyDstAndPc (.vpmulldEvex512 dst src1 mask src2 len) s t

/-- 44_vpmullq_evex.md R103. -/
def Obligations.VpmullqEvex128Completes : Prop :=
  ∀ (dst src1 : VReg) (mask : Mask) (src2 : Src2) (len : Nat) (s : State), Ready (.vpmullqEvex128 dst src1 mask src2 len) s →
    ∃ t, exec (.vpmullqEvex128 dst src1 mask src2 len) s = .next t ∧
      LanesMultiplied 64 (.vpmullqEvex128 dst src1 mask src2 len) s t ∧
      UpperZeroed (.vpmullqEvex128 dst src1 mask src2 len) t ∧ OnlyDstAndPc (.vpmullqEvex128 dst src1 mask src2 len) s t

/-- 44_vpmullq_evex.md R104. -/
def Obligations.VpmullqEvex256Completes : Prop :=
  ∀ (dst src1 : VReg) (mask : Mask) (src2 : Src2) (len : Nat) (s : State), Ready (.vpmullqEvex256 dst src1 mask src2 len) s →
    ∃ t, exec (.vpmullqEvex256 dst src1 mask src2 len) s = .next t ∧
      LanesMultiplied 64 (.vpmullqEvex256 dst src1 mask src2 len) s t ∧
      UpperZeroed (.vpmullqEvex256 dst src1 mask src2 len) t ∧ OnlyDstAndPc (.vpmullqEvex256 dst src1 mask src2 len) s t

/-- 44_vpmullq_evex.md R105: eight lanes; the bits above 512, if `MAXVL` leaves any (00_scope.md R5), are cleared. -/
def Obligations.VpmullqEvex512Completes : Prop :=
  ∀ (dst src1 : VReg) (mask : Mask) (src2 : Src2) (len : Nat) (s : State), Ready (.vpmullqEvex512 dst src1 mask src2 len) s →
    ∃ t, exec (.vpmullqEvex512 dst src1 mask src2 len) s = .next t ∧
      LanesMultiplied 64 (.vpmullqEvex512 dst src1 mask src2 len) s t ∧
      UpperZeroed (.vpmullqEvex512 dst src1 mask src2 len) t ∧ OnlyDstAndPc (.vpmullqEvex512 dst src1 mask src2 len) s t

/-- A form completes exactly under the launch premises `Mode64`, `Enabled(row)`, `Readable`, `Aligned16`
(70_reset_and_hazards.md R134, 60_exceptions.md R108 to R117). An operand that would wrap past 2^64 is not
readable (20_memory.md R37). -/
def Obligations.CompletesExactlyWhenReady : Prop :=
  ∀ (i : Instr) (s : State), (∃ t, exec i s = .next t) ↔ Ready i s

/-- 40_common_lane_semantics.md R93: the legacy form keeps the bits above 128, every other form clears the bits above its
vector length, whatever the writemask. The result function all forms share does so for every width of a full register
that 00_scope.md R5 admits, and its lanes are the same there. -/
def Obligations.UpperBitsKeptOrCleared : Prop :=
  (∀ (i : Instr) (s t : State), exec i s = .next t →
    (i.isLegacy = true → UpperKept i s t) ∧ (i.isLegacy = false → UpperZeroed i t)) ∧
  ∀ (c : Config.MaxVL) (N VL : Nat) (mask : Option (BitVec Config.kw)) (z : Bool) (a old : BitVec c.bits)
    (s2 : Nat → BitVec N), N = 32 ∨ N = 64 → VL = 128 ∨ VL = 256 ∨ VL = 512 →
    pmull N VL .keep mask z a s2 old >>> VL = old >>> VL ∧
    pmull N VL .zero mask z a s2 old >>> VL = 0 ∧
    ∀ (upper : Upper) (j : Nat), j < VL / N →
      lane N (pmull N VL upper mask z a s2 old) j =
        if enabled mask j then mullo N (lane N a j) (s2 j) else if z then 0 else lane N old j

/-- 40_common_lane_semantics.md R91: under merging-masking a lane that is not enabled keeps the old value of the
destination. -/
def Obligations.MergingMaskKeepsOldLanes : Prop :=
  ∀ (i : Instr) (k : KReg) (s t : State), i.writemask = .merge k → exec i s = .next t →
    ∀ j, j < i.lanes → (s.readK k).getLsbD j = false →
      lane i.elemBits (t.readZmm i.dst) j = lane i.elemBits (s.readZmm i.dst) j

/-- 40_common_lane_semantics.md R92: under zeroing-masking a lane that is not enabled becomes 0, and the old destination
is not read: where it is no source operand, its contents have no effect. -/
def Obligations.ZeroingMaskClearsLanes : Prop :=
  ∀ (i : Instr) (k : KReg) (s : State), i.writemask = .zero k →
    (∀ t, exec i s = .next t → ∀ j, j < i.lanes → (s.readK k).getLsbD j = false →
      lane i.elemBits (t.readZmm i.dst) j = 0) ∧
    (i.firstSource ≠ i.dst → i.secondSource ≠ .reg i.dst → ∀ v, exec i (s.writeZmm i.dst v) = exec i s)

/-- 10_state.md R32, first sentence: a completed form changes its destination register and `pc`, and nothing else. -/
def Obligations.FrameOfEveryForm : Prop :=
  ∀ (i : Instr) (s t : State), exec i s = .next t → OnlyDstAndPc i s t

/-- 40_common_lane_semantics.md R88: a result lane depends on the same lane of the sources, its mask bit, and, under
merging-masking only, the same lane of the old destination, and on no other lane. -/
def Obligations.LanesAreIndependent : Prop :=
  ∀ (i : Instr) (s s' t t' : State) (j : Nat), exec i s = .next t → exec i s' = .next t' → j < i.lanes →
    lane i.elemBits (s.readZmm i.firstSource) j = lane i.elemBits (s'.readZmm i.firstSource) j →
    s.src2Elem i.elemBits i.len i.secondSource j = s'.src2Elem i.elemBits i.len i.secondSource j →
    (∀ k, MaskRegister i k → (s.readK k).getLsbD j = (s'.readK k).getLsbD j) →
    (∀ k, i.writemask = .merge k → lane i.elemBits (s.readZmm i.dst) j = lane i.elemBits (s'.readZmm i.dst) j) →
    lane i.elemBits (t.readZmm i.dst) j = lane i.elemBits (t'.readZmm i.dst) j

/-- 40_common_lane_semantics.md R93, test vectors V8 and E24: a VEX form and the unmasked EVEX form of the same length
on the same operands give the same next state but for `pc`. The memory form excludes RIP-relative addresses, which
depend on the length. -/
def Obligations.VexAndUnmaskedEvexAgree : Prop :=
  ∀ (dst src1 : LoReg) (src2 : RegMem) (m n : Nat) (s t : State),
    (∀ ea, src2 = .mem ea → ea.ripRel = false) →
    (Enabled (.vpmulldEvex128 dst.toVReg src1.toVReg .noMask src2.toSrc2 n) s →
      exec (.vpmulldVex128 dst src1 src2 m) s = .next t →
      exec (.vpmulldEvex128 dst.toVReg src1.toVReg .noMask src2.toSrc2 n) s =
        .next { t with rip := s.rip + BitVec.ofNat 64 n }) ∧
    (Enabled (.vpmulldEvex256 dst.toVReg src1.toVReg .noMask src2.toSrc2 n) s →
      exec (.vpmulldVex256 dst src1 src2 m) s = .next t →
      exec (.vpmulldEvex256 dst.toVReg src1.toVReg .noMask src2.toSrc2 n) s =
        .next { t with rip := s.rip + BitVec.ofNat 64 n })

/-! ## Exceptions -/

/-- 60_exceptions.md R108: a feature flag of the row that is 0 makes the form raise `#UD`, before any other check (R120). -/
def Obligations.MissingFeatureFlagRaisesUd : Prop :=
  ∀ (i : Instr) (s : State), ¬ FlagsPresent i s → exec i s = .fault .ud

/-- 60_exceptions.md R109. -/
def Obligations.LegacyFormNeedsOsfxsrAndNoEmulation : Prop :=
  ∀ (dst : LoReg) (src : RegMem) (len : Nat) (s : State), s.cr0.getLsbD 2 = true ∨ s.cr4.getLsbD 9 = false →
    exec (.pmulldSse dst src len) s = .fault .ud

/-- 60_exceptions.md R110, and its remark that CR0.EM does not affect the VEX forms. -/
def Obligations.VexFormsNeedAvxState : Prop :=
  ∀ (dst src1 : LoReg) (src2 : RegMem) (len : Nat) (s : State) (i : Instr),
    i = .vpmulldVex128 dst src1 src2 len ∨ i = .vpmulldVex256 dst src1 src2 len →
    (s.cr4.getLsbD 18 = false ∨ s.xcr0.extractLsb' 1 2 ≠ 3 → exec i s = .fault .ud) ∧
    exec i { s with cr0 := s.cr0 ^^^ 4 } = mapNext (fun t => { t with cr0 := s.cr0 ^^^ 4 }) (exec i s)

/-- 60_exceptions.md R111: for the six EVEX forms, whatever the length and the writemask. -/
def Obligations.EvexFormsNeedAvx512State : Prop :=
  ∀ (dst src1 : VReg) (mask : Mask) (src2 : Src2) (len : Nat) (s : State) (i : Instr),
    i = .vpmulldEvex128 dst src1 mask src2 len ∨ i = .vpmulldEvex256 dst src1 mask src2 len ∨
      i = .vpmulldEvex512 dst src1 mask src2 len ∨ i = .vpmullqEvex128 dst src1 mask src2 len ∨
      i = .vpmullqEvex256 dst src1 mask src2 len ∨ i = .vpmullqEvex512 dst src1 mask src2 len →
    s.cr4.getLsbD 18 = false ∨ s.xcr0.extractLsb' 1 2 ≠ 3 ∨ s.xcr0.extractLsb' 5 3 ≠ 7 → exec i s = .fault .ud

/-- 60_exceptions.md R114: every form raises `#NM` if CR0.TS = 1 and no `#UD` condition holds, whatever its operand. -/
def Obligations.TaskSwitchedRaisesNm : Prop :=
  ∀ (i : Instr) (s : State), Mode64 s → NoUd i s → s.cr0.getLsbD 3 = true → exec i s = .fault .nm

/-- 60_exceptions.md R115: in an enabled form `#GP(0)` comes of a misaligned legacy operand or a non-canonical byte
outside SS only, and is what is raised when no other memory fault applies. A byte past 2^64 counts as non-canonical
(20_memory.md R37; log 33). -/
def Obligations.GeneralProtectionExactly : Prop :=
  ∀ (i : Instr) (s : State), Mode64 s → Enabled i s →
    (exec i s = .fault .gp0 → GpApplies i s) ∧
    (GpApplies i s → ¬ SsApplies i s → ¬ PfApplies i s → exec i s = .fault .gp0)

/-- 60_exceptions.md R116. A byte past 2^64 counts as non-canonical (20_memory.md R37; log 33). -/
def Obligations.StackFaultExactly : Prop :=
  ∀ (i : Instr) (s : State), Mode64 s → Enabled i s →
    (exec i s = .fault .ss0 → SsApplies i s) ∧
    (SsApplies i s → ¬ GpApplies i s → ¬ PfApplies i s → exec i s = .fault .ss0)

/-- 60_exceptions.md R117: a page fault names a byte the form reads that is not accessible, and its code has W/R = 0,
I/D = 0 and U/S = 1 exactly at CPL 3; it is what is raised when no other memory fault applies. -/
def Obligations.PageFaultExactly : Prop :=
  ∀ (i : Instr) (s : State), Mode64 s → Enabled i s →
    (∀ code addr, exec i s = .fault (.pf code addr) →
      ReadsByte i s addr ∧ s.accessible addr = false ∧
      code.getLsbD 1 = false ∧ code.getLsbD 4 = false ∧ (code.getLsbD 2 = true ↔ s.cpl = 3)) ∧
    (PfApplies i s → ¬ GpApplies i s → ¬ SsApplies i s → ∃ code addr, exec i s = .fault (.pf code addr))

/-- 60_exceptions.md R120 item 4, 92_eei_decisions.md D19: when memory faults apply, one of those that apply is reported;
which one is open. -/
def Obligations.SomeApplicableMemoryFaultIsRaised : Prop :=
  ∀ (i : Instr) (s : State), Mode64 s → Enabled i s → GpApplies i s ∨ SsApplies i s ∨ PfApplies i s →
    (exec i s = .fault .gp0 ∧ GpApplies i s) ∨ (exec i s = .fault .ss0 ∧ SsApplies i s) ∨
      (∃ code addr, exec i s = .fault (.pf code addr) ∧ PfApplies i s)

/-- 70_reset_and_hazards.md R130: in the reset state every form raises `#UD`, since CR4 = 0 there, and the processor is in
real-address mode. -/
def Obligations.EveryFormRaisesUdAtReset : Prop :=
  (∀ i : Instr, exec i State.reset = .fault .ud) ∧
    State.reset.cr4.getLsbD 9 = false ∧ State.reset.cr4.getLsbD 18 = false ∧ State.reset.mode = .realAddress

/-! ## What a form does not look at -/

/-- 60_exceptions.md R125: all forms execute identically at every privilege level, and change neither mode nor privilege;
a fault is the same fault, but for the U/S bit of a page-fault code, which tells the level (R117). That the free bits of
that code do not depend on the level is the model's choice (log 7). -/
def Obligations.PrivilegeLevelHasNoEffect : Prop :=
  ∀ (i : Instr) (s : State) (c : BitVec 2),
    (∀ t, exec i s = .next t →
      exec i { s with cpl := c } = .next { t with cpl := c } ∧ t.mode = s.mode ∧ t.cpl = s.cpl) ∧
    (∀ f, exec i s = .fault f → (∀ code addr, f ≠ .pf code addr) → exec i { s with cpl := c } = .fault f) ∧
    (∀ code addr, exec i s = .fault (.pf code addr) →
      ∃ code', exec i { s with cpl := c } = .fault (.pf code' addr) ∧ (code'.getLsbD 2 = true ↔ c = 3) ∧
        ∀ b, b ≠ 2 → code'.getLsbD b = code.getLsbD b) ∧
    (∀ r, exec i s = .refused r → exec i { s with cpl := c } = .refused r)

/-- 10_state.md R26: EFLAGS and MXCSR are neither read nor written. -/
def Obligations.StatusRegistersNeitherReadNorWritten : Prop :=
  ∀ (i : Instr) (s : State) (e m : BitVec 32),
    exec i { s with eflags := e, mxcsr := m } = mapNext (fun t => { t with eflags := e, mxcsr := m }) (exec i s) ∧
    ∀ t, exec i s = .next t → t.eflags = s.eflags ∧ t.mxcsr = s.mxcsr

/-- 10_state.md R21: of the opmask registers a form reads the low KL bits of the one it names, and none if it names none;
no form writes one. -/
def Obligations.OnlyNamedOpmaskBitsMatter : Prop :=
  ∀ (i : Instr) (s : State) (k' : Vector (BitVec Config.kw) Config.nk),
    (∀ r, MaskRegister i r → ∀ j, j < i.lanes → (s.k.get r).getLsbD j = (k'.get r).getLsbD j) →
    exec i { s with k := k' } = mapNext (fun t => { t with k := k' }) (exec i s) ∧
    ∀ t, exec i s = .next t → t.k = s.k

/-- 10_state.md R23: general registers are read only as base and index of the memory operand, and never written. -/
def Obligations.GeneralRegistersOnlyAddress : Prop :=
  ∀ (i : Instr) (s : State) (g : Vector Word Config.ngpr),
    (∀ r, AddressRegister i r → s.gpr.get r = g.get r) →
    exec i { s with gpr := g } = mapNext (fun t => { t with gpr := g }) (exec i s) ∧
    ∀ t, exec i s = .next t → t.gpr = s.gpr

/-- 20_memory.md R39, R40, R46: bytes a form does not read, neither their contents nor their accessibility, have an
effect: with fault suppression this covers the masked-off elements. -/
def Obligations.UnreadMemoryHasNoEffect : Prop :=
  ∀ (i : Instr) (s : State) (mem' : Memory) (blocked : List AddrRange),
    (∀ b, ReadsByte i s b →
      State.readByte { s with mem := mem', inaccessible := blocked } b = s.readByte b ∧
      State.accessible { s with mem := mem', inaccessible := blocked } b = s.accessible b) →
    exec i { s with mem := mem', inaccessible := blocked } =
      mapNext (fun t => { t with mem := mem', inaccessible := blocked }) (exec i s)

/-! ## Memory -/

/-- 20_memory.md R37: reads are little-endian, byte `k` in bits `8k+7..8k`, addresses modulo 2^64; code bytes are fetched
in increasing address order; an access that would wrap, so that a byte to be read comes out below the operand's first byte,
faults. -/
def Obligations.LittleEndianReads : Prop :=
  (∀ (i : Instr) (ea : AddrForm) (s : State) (b : Word), Mode64 s → Enabled i s →
    i.secondSource = .mem ea ∨ i.secondSource = .bcst ea → ReadsByte i s b → b < s.linearAddr i.len ea →
    ∃ f, exec i s = .fault f) ∧
  ∀ (s : State) (a : Word) (n : Nat),
    (∀ k, k < n → (s.memRead a (8 * n)).extractLsb' (8 * k) 8 = s.readByte (a + BitVec.ofNat 64 k)) ∧
    (∀ k, ∀ h : k < s.fetch.1.length, s.fetch.1[k] = s.readByte (s.fetchAddr + BitVec.ofNat 64 k))

/-- 20_memory.md R38: element `j` of a memory second source is bits `j*N+N-1..j*N` of the whole operand read at once, and
is the element read at `a + j*N/8`; dword and qword views of the same bytes agree. -/
def Obligations.ElementsOfAMemoryVector : Prop :=
  ∀ (s : State) (len : Nat) (ea : AddrForm) (N VL j : Nat), N = 32 ∨ N = 64 → VL = 128 ∨ VL = 256 ∨ VL = 512 → j < VL / N →
    s.src2Elem N len (.mem ea) j = (s.memRead (s.linearAddr len ea) VL).extractLsb' (j * N) N ∧
    s.src2Elem N len (.mem ea) j = s.memRead (s.linearAddr len ea + BitVec.ofNat 64 (j * (N / 8))) N ∧
    s.src2Elem 64 len (.mem ea) j = (s.src2Elem 32 len (.mem ea) (2 * j + 1) ++ s.src2Elem 32 len (.mem ea) (2 * j) : BitVec 64)

/-- 20_memory.md R40: under broadcast one element is the second source of every lane, and no byte but its `N/8`,
neither its contents nor its accessibility, has an effect. -/
def Obligations.BroadcastReadsOneElement : Prop :=
  ∀ (i : Instr) (ea : AddrForm) (s : State), i.secondSource = .bcst ea →
    (∀ j, s.src2Elem i.elemBits i.len i.secondSource j = s.memRead (s.linearAddr i.len ea) i.elemBits) ∧
    ∀ (mem' : Memory) (blocked : List AddrRange),
      (∀ k, k < i.elemBits / 8 →
        State.readByte { s with mem := mem', inaccessible := blocked } (s.linearAddr i.len ea + BitVec.ofNat 64 k) =
          s.readByte (s.linearAddr i.len ea + BitVec.ofNat 64 k) ∧
        State.accessible { s with mem := mem', inaccessible := blocked } (s.linearAddr i.len ea + BitVec.ofNat 64 k) =
          s.accessible (s.linearAddr i.len ea + BitVec.ofNat 64 k)) →
      exec i { s with mem := mem', inaccessible := blocked } =
        mapNext (fun t => { t with mem := mem', inaccessible := blocked }) (exec i s)

/-! ## The step -/

/-- 40_common_lane_semantics.md R94 step 1: in 64-bit mode, when the bytes at `pc` decode to an instruction, the step is
that instruction's meaning. `pc` advances inside the meaning (10_state.md R25). -/
def Obligations.StepRunsDecodedInstruction : Prop :=
  ∀ (s : State) (i : Instr), Mode64 s → decode s.fetch.1 = .ok i → step s = exec i s

/-- 30_encoding.md R77, 70_reset_and_hazards.md R134: where the encoding of a well-formed instruction stands at `pc`, the
step runs it, whatever stands after it. -/
def Obligations.EncodedInstructionRuns : Prop :=
  ∀ (s : State) (i : Instr), Mode64 s → i.wellFormed = true → CodeAt s.rip (encode i) s → step s = exec i s

/-- 10_state.md R25, 30_encoding.md R56: a completed step advances `pc` by the length of the decoded instruction, 5 to 15
bytes, modulo 2^64, and goes nowhere else. -/
def Obligations.StepAdvancesPastInstruction : Prop :=
  ∀ s t : State, step s = .next t →
    ∃ i, decode s.fetch.1 = .ok i ∧ 5 ≤ i.len ∧ i.len ≤ 15 ∧ t.rip = s.rip + BitVec.ofNat 64 i.len

/-- 10_state.md R25, 60_exceptions.md R120 item 1: in 64-bit mode a fetch at a non-canonical `pc` raises `#GP(0)`, at one
that is canonical and not fetchable `#PF` with that address. 00_scope.md R4, decision D2: another mode is refused. The
same holds of a later code byte while the bytes before it do not make an instruction, and one that would stand past 2^64
raises `#GP(0)` (log 33); once they do, the bytes after it are not fetched (log 15). -/
def Obligations.FetchFaultsAndRefusedModes : Prop :=
  ∀ s : State,
    (Mode64 s → s.canonical s.rip = false → step s = .fault .gp0) ∧
    (Mode64 s → s.canonical s.rip = true → s.fetchable s.rip = false → ∃ code, step s = .fault (.pf code s.rip)) ∧
    (¬ Mode64 s → step s = .refused .unsupportedMode) ∧
    ∀ (bytes : List Byte) (a : Word), Mode64 s → CodeAt s.rip bytes s → bytes.length < 15 →
      a = s.rip + BitVec.ofNat 64 bytes.length →
      (decode bytes = .truncated → s.canonical a = false ∨ s.rip.toNat + bytes.length = 2 ^ 64 → step s = .fault .gp0) ∧
      (decode bytes = .truncated → s.canonical a = true → s.rip.toNat + bytes.length < 2 ^ 64 → s.fetchable a = false →
        ∃ code, step s = .fault (.pf code a)) ∧
      (∀ i, decode bytes = .ok i → step s = exec i s)

/-- 20_memory.md R50, R52, 70_reset_and_hazards.md R134, R135, R140: encodings that stand one after the other from `pc` run
one after the other, and a run that completes has no fault recorded and ends right after the last; a run of no step is no
end. -/
def Obligations.StraightLineCodeRunsInOrder : Prop :=
  ∀ (is : List Instr) (s : State), Mode64 s → (∀ i ∈ is, i.wellFormed = true) → CodeAt s.rip (is.flatMap encode) s →
    Host.Core.run Sys2Proof.core is.length s = execAll is s ∧
    ∀ t, execAll is s = .next t →
      (FinalAt (s.rip + BitVec.ofNat 64 (is.map Instr.len).sum) is.length s t ↔ is ≠ [])

/-- Every step keeps the invariant: memory in its canonical form, a feature set that exists. -/
def Obligations.StepKeepsInvariant : Prop :=
  ∀ s t : State, Inv s → step s = .next t → Inv t

/-- 10_state.md R27, R28, R32, 20_memory.md R50: every step keeps the mode, the control registers, the feature flags, the
opmask and general registers, the status registers, the admission of addresses and every byte of memory as they were at
the start `s₀` of the run; and every vector register but the destination of the decoded instruction is as it was before
the step. -/
def Obligations.RunsKeepEnvironment : Prop :=
  ∀ (s₀ s t : State), SameEnvironment s₀ s → step s = .next t →
    SameEnvironment s₀ t ∧ ∃ i, decode s.fetch.1 = .ok i ∧ ∀ n, n ≠ i.dst → t.readZmm n = s.readZmm n

/-- The invariant of `StepKeepsInvariant` holds at reset. The feature set there is the model's choice (log 4), and so is
what memory holds (log 11). -/
def Obligations.ResetHasInvariant : Prop := Inv State.reset

/-- 10_state.md R33: the values of the reset table that the spec gives, and the first fetch at FFFFFFF0H. RDX and memory
are the model's choice (log 3, log 11) and are not stated. -/
def Obligations.ResetValues : Prop :=
  (∀ n, State.reset.readZmm n = 0) ∧ (∀ n, State.reset.readK n = 0) ∧ (∀ n, n ≠ 2 → State.reset.readGpr n = 0) ∧
  State.reset.rip = 0xFFF0 ∧ State.reset.fetchAddr = 0xFFFFFFF0 ∧ State.reset.eflags = 0x2 ∧ State.reset.mxcsr = 0x1F80 ∧
  State.reset.cr0 = 0x60000010 ∧ State.reset.cr4 = 0 ∧ State.reset.xcr0 = 1 ∧ State.reset.csBase = 0xFFFF0000 ∧
  State.reset.fsBase = 0 ∧ State.reset.gsBase = 0 ∧ State.reset.mode = .realAddress
end

