-- ==== Sys2Proof/Laws/Decode.lean ====
section
/-!
SUPPORT. The parts of the decoder on what the encoder writes: fields, prefixes, displacements, ModRM and SIB; and what
the prefixes can say.
-/
namespace Sys2Proof

/-! ## Fields -/

/-- The fields of a ModRM byte (30_encoding.md R60). -/
@[simp] theorem fields_modRmByte (mod : BitVec 2) (reg rm : BitVec 3) :
    (modRmByte mod reg rm).extractLsb' 6 2 = mod ∧ (modRmByte mod reg rm).extractLsb' 3 3 = reg ∧
      (modRmByte mod reg rm).extractLsb' 0 3 = rm := by
  revert mod reg rm; decide

/-- The fields of a SIB byte (30_encoding.md R61). -/
@[simp] theorem fields_sibByte (scale : BitVec 2) (index base : BitVec 3) :
    (sibByte scale index base).extractLsb' 6 2 = scale ∧ (sibByte scale index base).extractLsb' 3 3 = index ∧
      (sibByte scale index base).extractLsb' 0 3 = base := by
  revert scale index base; decide

/-- A register number 0..15 is its bit 3 and its low three bits. -/
@[simp] theorem regNum_bit3_low3 (n : Fin 16) : regNum (bit3 n.val) (low3 n.val) = n := by
  revert n; decide

/-- A register number 0..31 is its bits 4 and 3 and its low three bits. -/
@[simp] theorem regNum32_bits_low3 (n : VReg) : regNum32 (bit4 n.val) (bit3 n.val) (low3 n.val) = n := by
  revert n; decide

/-- The low three bits that need a SIB byte, and those that have no form without a displacement (30_encoding.md R60). -/
theorem low3_eq_iff (n : Fin 16) : (low3 n.val = 4 ↔ n.val % 8 = 4) ∧ (low3 n.val = 5 ↔ n.val % 8 = 5) := by
  revert n; decide

/-! ## Displacements (30_encoding.md R62, R70) -/

/-- The disp8 found for a displacement stands for it. -/
theorem disp8Of_eq_some {n : Nat} {disp : Word} {d : Byte} (h : disp8Of n disp = some d) :
    d.signExtend 64 * BitVec.ofNat 64 n = disp := by
  unfold disp8Of at h
  simp only [Option.ite_none_right_eq_some, Option.some.injEq] at h
  obtain ⟨h1, rfl⟩ := h
  exact h1

/-- A disp32 read back. -/
theorem takeDisp32_disp32Bytes {disp : Word} (h : dispFits32 disp = true) (rest : List Byte) :
    takeDisp32 (disp32Bytes disp ++ rest) = some (disp, rest) := by
  simp only [disp32Bytes, takeDisp32, List.cons_append, List.nil_append, Option.some.injEq, Prod.mk.injEq, and_true]
  have : (disp.extractLsb' 24 8 ++ disp.extractLsb' 16 8 ++ disp.extractLsb' 8 8 ++ disp.extractLsb' 0 8 : BitVec 32) =
      disp.setWidth 32 := by
    apply BitVec.eq_of_getLsbD_eq
    intro i hi
    simp only [BitVec.getLsbD_append, BitVec.getLsbD_extractLsb', BitVec.getLsbD_setWidth]
    split_ifs <;> simp <;> grind
  simp only [dispFits32, beq_iff_eq] at h
  rw [this, h]

/-- The `mod` and displacement written for a base, read back; `mod` is 00 only for a base that has that form. -/
theorem takeDisp_modAndDisp {n : Nat} {base : Gpr} {disp : Word} (h : dispFits32 disp = true) (rest : List Byte) :
    takeDisp (modAndDisp n base disp).1 n ((modAndDisp n base disp).2 ++ rest) = some (disp, rest) ∧
      (modAndDisp n base disp).1 ≠ 3 ∧ ((modAndDisp n base disp).1 = 0 → low3 base.val ≠ 5) := by
  unfold modAndDisp
  split
  · rename_i h0
    exact ⟨by simp [takeDisp, h0.1], by simp, fun _ h5 => h0.2 ((low3_eq_iff base).2.mp h5)⟩
  · cases hd : disp8Of n disp with
    | some d => exact ⟨by simp [takeDisp, disp8Of_eq_some hd], by simp, by simp⟩
    | none => exact ⟨by simpa [takeDisp] using takeDisp32_disp32Bytes h rest, by simp, by simp⟩

/-! ## ModRM and SIB (30_encoding.md R60, R61, R64) -/

/-- The override an addressing form is written with (30_encoding.md R57). -/
def AddrForm.override (ea : AddrForm) : Option Seg :=
  if ea.seg = .fs ∨ ea.seg = .gs then some ea.seg else none

/-- The segment in force of a well-formed addressing form (20_memory.md R43). -/
theorem segInForce_override {ea : AddrForm} (h : ea.wellFormed = true) : segInForce ea.override ea.base = ea.seg := by
  simp only [AddrForm.wellFormed, Bool.and_eq_true, Bool.or_eq_true, beq_iff_eq] at h
  have hs := h.2
  unfold segInForce AddrForm.override
  split
  · rfl
  · rename_i hn
    rcases hs with (hs | hs) | hs
    · exact absurd (.inl hs) hn
    · exact absurd (.inr hs) hn
    · simp [hs]

/-- The index bits written, read back. -/
theorem index_readBack {ea : AddrForm} (h : ea.wellFormed = true) :
    (if regNum ea.xBit ea.indexLow = 4 then none else some (regNum ea.xBit ea.indexLow)) = ea.index ∧
    (if regNum ea.xBit ea.indexLow = 4 then 0 else (Fin.ofNat 4 (BitVec.ofNat 2 ea.scale.val).toNat : Fin 4)) = ea.scale := by
  simp only [AddrForm.wellFormed, Bool.and_eq_true, Bool.or_eq_true, bne_iff_ne, ne_eq, beq_iff_eq] at h
  obtain ⟨⟨⟨⟨h4, hsc⟩, -⟩, -⟩, -⟩ := h
  have hscale : ∀ k : Fin 4, (Fin.ofNat 4 (BitVec.ofNat 2 k.val).toNat : Fin 4) = k := by decide
  cases hi : ea.index with
  | none =>
    have h0 : ea.scale = 0 := by simpa [hi] using hsc
    simp only [AddrForm.xBit, AddrForm.indexLow, hi, Option.any_none, h0]
    decide
  | some i =>
    have hne : i ≠ 4 := fun hc => h4 (by rw [hi, hc])
    simp only [AddrForm.xBit, AddrForm.indexLow, hi, Option.any_some, regNum_bit3_low3, if_neg hne, hscale]
    exact ⟨trivial, trivial⟩

/-- The bytes of a memory operand, read back: the operand, and the bytes after it. -/
theorem takeModRm_modRmBytes {ea : AddrForm} (h : ea.wellFormed = true) (n : Nat) (reg : BitVec 3) (rest : List Byte) :
    takeModRm ea.override ea.xBit ea.bBit n (ea.modRmBytes n reg ++ rest) = some (reg, .mem ea, rest) := by
  have hseg := segInForce_override h
  have hidx := index_readBack h
  have hb : ∀ b, ea.base = some b → regNum ea.bBit (low3 b.val) = b := fun b hb => by simp [AddrForm.bBit, hb]
  simp only [AddrForm.wellFormed, Bool.and_eq_true, Bool.or_eq_true, bne_iff_ne, ne_eq, beq_iff_eq,
    Bool.not_eq_true', Option.isNone_iff_eq_none] at h
  obtain ⟨⟨⟨⟨-, hsc⟩, hrip⟩, hdisp⟩, -⟩ := h
  have hsib := fun (hns : ¬ ea.needsSib = true) (b : Gpr) (hbase : ea.base = some b) (hr : ea.ripRel = false) =>
    (by simpa [AddrForm.needsSib, hbase, hr, ← (low3_eq_iff b).1] using hns : ea.index = none ∧ ¬ low3 b.val = 4)
  unfold AddrForm.modRmBytes
  generalize ea.override = ov at hseg ⊢
  generalize ea.xBit = xb at hidx ⊢
  generalize ea.bBit = bb at hb ⊢
  generalize ea.indexLow = low at hidx ⊢
  generalize ea.needsSib = sib at hsib ⊢
  obtain ⟨seg, base, index, scale, disp, ripRel⟩ := ea
  simp only at hseg hidx hb hsc hrip hdisp hsib ⊢
  cases ripRel with
  | true =>
    obtain ⟨rfl, rfl⟩ : base = none ∧ index = none := by simpa using hrip
    have hs0 : scale = 0 := by simpa using hsc
    simp only [if_true, List.cons_append, takeModRm, fields_modRmByte]
    simp [takeDisp32_disp32Bytes hdisp, hseg, hs0]
  | false =>
    simp only [Bool.false_eq_true, if_false]
    cases base with
    | none =>
      simp only [List.cons_append, takeModRm, takeSib, fields_modRmByte, fields_sibByte, hidx.1, hidx.2, hseg,
        takeDisp32_disp32Bytes hdisp]
      simp
    | some b =>
      obtain ⟨hd, hm3, hm0⟩ := takeDisp_modAndDisp (n := n) (base := b) hdisp rest
      have hno5 : ¬ ((modAndDisp n b disp).1 = 0 ∧ low3 b.val = 5) := fun hc => hm0 hc.1 hc.2
      cases sib with
      | true =>
        simp only [if_true, List.cons_append, takeModRm, takeSib, fields_modRmByte, fields_sibByte, hidx.1, hidx.2,
          if_neg hm3, if_neg hno5, hd, hb b rfl, hseg]
      | false =>
        obtain ⟨rfl, hl4⟩ := hsib (by simp) b rfl rfl
        have hs0 : scale = 0 := by simpa using hsc
        simp only [Bool.false_eq_true, if_false, List.cons_append, takeModRm, fields_modRmByte, if_neg hm3, if_neg hl4,
          if_neg hno5, hd, hb b rfl, hseg, hs0]

/-! ## Second sources -/

def RegMem.override : RegMem → Option Seg
  | .reg _ => none
  | .mem ea => ea.override

def Src2.override : Src2 → Option Seg
  | .reg _ => none
  | .mem ea => ea.override
  | .bcst ea => ea.override

/-- The second source of a legacy or VEX form, read back. -/
theorem takeModRm_regMem {o : RegMem} (h : o.wellFormed = true) (reg : BitVec 3) (rest : List Byte) :
    ∃ rm, takeModRm o.override o.xBit o.bBit 1 (o.modRmBytes reg ++ rest) = some (reg, rm, rest) ∧
      rm.toRegMem o.bBit = o := by
  cases o with
  | reg n => exact ⟨.reg (low3 n.val), by simp [takeModRm, RegMem.modRmBytes],
      by simp [RmOperand.toRegMem, RegMem.bBit]⟩
  | mem ea => exact ⟨.mem ea, takeModRm_modRmBytes h _ _ _, rfl⟩

/-- The second source of an EVEX form, read back; broadcast never comes with a register. -/
theorem takeModRm_src2 {o : Src2} (h : o.wellFormed = true) (elemBits vl : Nat) (reg : BitVec 3) (rest : List Byte) :
    ∃ rm, takeModRm o.override o.xBit o.bBit (evexDisp8Scale elemBits vl o.isBcst)
        (o.modRmBytes elemBits vl reg ++ rest) = some (reg, rm, rest) ∧
      rm.toSrc2 o.xBit o.bBit o.isBcst = o ∧ (o.isBcst && rm.isReg) = false := by
  cases o with
  | reg n => exact ⟨.reg (low3 n.val), by simp [takeModRm, Src2.modRmBytes],
      by simp [RmOperand.toSrc2, Src2.xBit, Src2.bBit], by simp [Src2.isBcst]⟩
  | mem ea => exact ⟨.mem ea, takeModRm_modRmBytes h _ _ _, rfl, by simp [RmOperand.isReg]⟩
  | bcst ea => exact ⟨.mem ea, takeModRm_modRmBytes h _ _ _, rfl, by simp [RmOperand.isReg]⟩

/-! ## The bytes of the VEX and EVEX headers (30_encoding.md R65 to R73) -/

/-- The fields of the EVEX byte P0. -/
theorem fields_evexP0 (r x b r' : Bool) :
    let p : Byte := BitVec.ofBool r ++ BitVec.ofBool x ++ BitVec.ofBool b ++ BitVec.ofBool r' ++ (2 : BitVec 4)
    p.extractLsb' 0 2 = 2 ∧ p.extractLsb' 2 2 = 0 ∧ p.getLsbD 4 = r' ∧ p.getLsbD 5 = b ∧ p.getLsbD 6 = x ∧
      p.getLsbD 7 = r := by
  revert r x b r'; decide

/-- The fields of the EVEX byte P1. -/
theorem fields_evexP1 (w : Bool) (v : BitVec 4) :
    let p : Byte := BitVec.ofBool w ++ v ++ (5 : BitVec 3)
    p.extractLsb' 0 2 = 1 ∧ p.getLsbD 2 = true ∧ p.extractLsb' 3 4 = v ∧ p.getLsbD 7 = w := by
  revert w v; decide

/-- The fields of the EVEX byte P2. -/
theorem fields_evexP2 (z b v' : Bool) (ll : BitVec 2) (aaa : BitVec 3) :
    let p : Byte := BitVec.ofBool z ++ ll ++ BitVec.ofBool b ++ BitVec.ofBool v' ++ aaa
    p.extractLsb' 0 3 = aaa ∧ p.getLsbD 3 = v' ∧ p.getLsbD 4 = b ∧ p.extractLsb' 5 2 = ll ∧ p.getLsbD 7 = z := by
  revert z b v' ll aaa; decide

/-- The fields of the first VEX byte after C4h. -/
theorem fields_vexV1 (r x b : Bool) :
    let v : Byte := BitVec.ofBool r ++ BitVec.ofBool x ++ BitVec.ofBool b ++ (2 : BitVec 5)
    v.extractLsb' 0 5 = 2 ∧ v.getLsbD 5 = b ∧ v.getLsbD 6 = x ∧ v.getLsbD 7 = r := by
  revert r x b; decide

/-- The fields of the second VEX byte after C4h. -/
theorem fields_vexV2 (w l : Bool) (v : BitVec 4) :
    let v2 : Byte := BitVec.ofBool w ++ v ++ BitVec.ofBool l ++ (1 : BitVec 2)
    v2.extractLsb' 0 2 = 1 ∧ v2.getLsbD 2 = l ∧ v2.extractLsb' 3 4 = v := by
  revert w l v; decide

/-- The fields of a REX byte, and that it is one (30_encoding.md R58). -/
theorem fields_rexByte (r x b : Bool) :
    classifyPrefix (rexByte r x b) = some (.rex (rexByte r x b)) ∧ (rexByte r x b).getLsbD 0 = b ∧
      (rexByte r x b).getLsbD 1 = x ∧ (rexByte r x b).getLsbD 2 = r := by
  revert r x b; decide

/-- A writemask, read back (30_encoding.md R73). -/
theorem maskOf_isZeroing_aaa {m : Mask} (h : m.wellFormed = true) :
    maskOf m.isZeroing m.aaa = m ∧ (m.isZeroing && m.aaa == 0) = false := by
  cases m with
  | noMask => decide
  | merge k => revert k; decide
  | zero k => revert k; decide

/-! ## Prefixes (30_encoding.md R57, R58) -/

/-- Scanning stops at a byte that is no prefix. -/
theorem scanPrefixes_stop {p : Prefixes} {b : Byte} {bs : List Byte} (h : classifyPrefix b = none) :
    scanPrefixes p (b :: bs) = (p, b :: bs) := by
  rw [scanPrefixes, h]

/-- Scanning a prefix goes on with what it says. -/
theorem scanPrefixes_step {p : Prefixes} {b : Byte} {bs : List Byte} {c : PrefixKind} (h : classifyPrefix b = some c) :
    scanPrefixes p (b :: bs) = scanPrefixes (p.add c) bs := by
  rw [scanPrefixes, h]

/-- The encoder's padding says nothing, but that a REX byte before it is ignored. -/
theorem scanPrefixes_padding (n : Nat) (p : Prefixes) (bs : List Byte) (h : p.rex = none) :
    scanPrefixes p (List.replicate n 0x3E ++ bs) = scanPrefixes p bs := by
  induction n with
  | zero => rfl
  | succ n ih =>
    rw [List.replicate_succ, List.cons_append, scanPrefixes_step (c := .segIgnored) (by decide), ← ih]
    congr 1
    cases p; simp_all [Prefixes.add]

/-- The segment prefix of an addressing form says its override. -/
theorem scanPrefixes_segBytes (ea : AddrForm) (bs : List Byte) :
    scanPrefixes {} (ea.segBytes ++ bs) = scanPrefixes { seg := ea.override } bs := by
  obtain ⟨seg, _, _, _, _, _⟩ := ea
  cases seg <;> rfl

/-- The bytes after the prefixes begin with no prefix, and are the end of the bytes scanned. -/
theorem scanPrefixes_spec (bs : List Byte) (p : Prefixes) :
    ∃ pre, bs = pre ++ (scanPrefixes p bs).2 ∧ (∀ b ∈ pre, (classifyPrefix b).isSome = true) ∧
      ∀ b rest, (scanPrefixes p bs).2 = b :: rest → classifyPrefix b = none := by
  induction bs generalizing p with
  | nil => exact ⟨[], by simp [scanPrefixes]⟩
  | cons b bs ih =>
    cases hc : classifyPrefix b with
    | none =>
      refine ⟨[], by simp [scanPrefixes, hc], by simp, ?_⟩
      rw [scanPrefixes_stop hc]
      rintro b' rest h
      rw [List.cons.injEq] at h
      rw [← h.1, hc]
    | some c =>
      obtain ⟨pre, h1, h2, h3⟩ := ih (p.add c)
      rw [scanPrefixes_step hc]
      refine ⟨b :: pre, by rw [List.cons_append, ← h1], ?_, h3⟩
      intro b' hb'
      rcases List.mem_cons.mp hb' with rfl | hb'
      · simp [hc]
      · exact h2 b' hb'

end Sys2Proof
end

