-- ==== Sys2Proof/Laws/Lanes.lean ====
section
/-!
SUPPORT. What `pmull` puts in each lane and above the vector length.
-/
namespace Sys2Proof.Machine

variable {W : Nat}

/-- Bit `b` of a register after one lane is written. -/
theorem getLsbD_setLane {N : Nat} (r : BitVec W) (j : Nat) (x : BitVec N) (b : Nat) (hb : b < W) :
    (setLane N r j x).getLsbD b =
      if j * N ≤ b ∧ b < j * N + N then x.getLsbD (b - j * N) else r.getLsbD b := by
  have hsub : b - j * N < W := by omega
  simp only [setLane, BitVec.getLsbD_or, BitVec.getLsbD_and, BitVec.getLsbD_not, BitVec.getLsbD_shiftLeft,
    BitVec.getLsbD_setWidth, BitVec.getLsbD_allOnes, hb, hsub, decide_true, Bool.true_and]
  by_cases h1 : b < j * N
  · simp [h1, Nat.not_le.mpr h1]
  · by_cases h2 : b < j * N + N
    · have h3 : b - j * N < N := by omega
      simp [h1, h3, h2, Nat.not_lt.mp h1]
    · have h3 : ¬ b - j * N < N := by omega
      simp [h1, h2, h3, BitVec.getLsbD_of_ge x (b - j * N) (by omega)]

/-- Bit `b` after the first `n` lanes are written. -/
theorem getLsbD_setLanes {N : Nat} (hN : 0 < N) (f : Nat → BitVec N) (r : BitVec W) (n : Nat) (b : Nat)
    (hb : b < W) :
    (setLanes N f r n).getLsbD b = if b < n * N then (f (b / N)).getLsbD (b % N) else r.getLsbD b := by
  induction n with
  | zero => simp [setLanes]
  | succ n ih =>
    rw [setLanes, getLsbD_setLane _ _ _ _ hb, ih, Nat.succ_mul]
    by_cases h : n * N ≤ b ∧ b < n * N + N
    · have hdiv : b / N = n := by
        rw [Nat.div_eq_of_lt_le] <;> [exact h.1; (rw [Nat.succ_mul]; exact h.2)]
      have hmod : b % N = b - n * N := by
        have := Nat.div_add_mod b N
        rw [hdiv, Nat.mul_comm] at this
        omega
      rw [if_pos h, if_pos h.2, hdiv, hmod]
    · rw [if_neg h]
      by_cases hlt : b < n * N
      · rw [if_pos hlt, if_pos (by omega)]
      · rw [if_neg hlt, if_neg (by omega)]

/-- Two registers with the same bits in a lane have the same lane. -/
theorem lane_congr {N : Nat} {v w : BitVec W} {j : Nat}
    (h : ∀ b, b < N → v.getLsbD (j * N + b) = w.getLsbD (j * N + b)) : lane N v j = lane N w j := by
  apply BitVec.eq_of_getLsbD_eq
  intro b hb
  simp only [lane, BitVec.getLsbD_extractLsb', hb, decide_true, Bool.true_and]
  exact h b hb

/-- A lane written by `setLanes` holds what was written. -/
theorem lane_setLanes {N : Nat} (f : Nat → BitVec N) (r : BitVec W) {n j : Nat} (hj : j < n)
    (hn : n * N ≤ W) : lane N (setLanes N f r n) j = f j := by
  apply BitVec.eq_of_getLsbD_eq
  intro b hb
  have hN : 0 < N := by omega
  have hle : (j + 1) * N ≤ n * N := Nat.mul_le_mul_right _ hj
  rw [Nat.succ_mul] at hle
  simp only [lane, BitVec.getLsbD_extractLsb', hb, decide_true, Bool.true_and]
  rw [getLsbD_setLanes hN f r n _ (by omega), if_pos (by omega)]
  have hdiv : (j * N + b) / N = j := by
    rw [Nat.mul_comm, Nat.mul_add_div hN, Nat.div_eq_of_lt hb, Nat.add_zero]
  have hmod : (j * N + b) % N = b := by
    rw [Nat.mul_comm, Nat.mul_add_mod, Nat.mod_eq_of_lt hb]
  rw [hdiv, hmod]

/-- Bits above the lanes written by `setLanes` are as before. -/
theorem shiftRight_setLanes {N : Nat} (hN : 0 < N) (f : Nat → BitVec N) (r : BitVec W) {n VL : Nat}
    (hn : n * N ≤ VL) : setLanes N f r n >>> VL = r >>> VL := by
  apply BitVec.eq_of_getLsbD_eq
  intro b _
  simp only [BitVec.getLsbD_ushiftRight]
  by_cases h : VL + b < W
  · rw [getLsbD_setLanes hN f r n _ h, if_neg (by omega)]
  · rw [BitVec.getLsbD_of_ge _ _ (by omega), BitVec.getLsbD_of_ge _ _ (by omega)]

/-- The admissible pairs `(N, VL)` of 00_scope.md R10. -/
def Shape (N VL : Nat) : Prop := (N = 32 ∨ N = 64) ∧ (VL = 128 ∨ VL = 256 ∨ VL = 512)

theorem Shape.lanes_mul {N VL : Nat} (h : Shape N VL) : VL / N * N = VL := by
  rcases h with ⟨rfl | rfl, rfl | rfl | rfl⟩ <;> rfl

theorem Shape.vl_le {N VL : Nat} (h : Shape N VL) (hW : 512 ≤ W) : VL ≤ W := by
  rcases h with ⟨-, rfl | rfl | rfl⟩ <;> omega

theorem Shape.pos {N VL : Nat} (h : Shape N VL) : 0 < N := by
  rcases h with ⟨rfl | rfl, -⟩ <;> decide

variable {N VL : Nat} (upper : Upper) (mask : Option (BitVec Config.kw)) (z : Bool) (a : BitVec W)
  (s2 : Nat → BitVec N) (old : BitVec W)

/-- `PMULL` (R96), lane by lane. -/
theorem lane_pmull (h : Shape N VL) (hW : 512 ≤ W) {j : Nat} (hj : j < VL / N) :
    lane N (pmull N VL upper mask z a s2 old) j = resultLane N mask z a s2 old j :=
  lane_setLanes _ _ hj (by rw [h.lanes_mul]; exact h.vl_le hW)

/-- `PMULL` (R96) above the vector length, when it is zeroed. -/
theorem pmull_zero_upper (h : Shape N VL) : pmull N VL .zero mask z a s2 old >>> VL = 0 := by
  rw [pmull, shiftRight_setLanes h.pos _ _ (le_of_eq h.lanes_mul)]
  simp [upperPart]

/-- `PMULL` (R96) above the vector length, when it is kept. -/
theorem pmull_keep_upper (h : Shape N VL) : pmull N VL .keep mask z a s2 old >>> VL = old >>> VL := by
  rw [pmull, shiftRight_setLanes h.pos _ _ (le_of_eq h.lanes_mul)]
  apply BitVec.eq_of_getLsbD_eq
  intro b _
  simp only [upperPart, BitVec.getLsbD_ushiftRight, BitVec.getLsbD_shiftLeft]
  by_cases hb : VL + b < W
  · simp [hb]
  · rw [BitVec.getLsbD_of_ge old (VL + b) (by omega)]
    simp [hb]

/-- A register is its bits up to `VL` and its bits above: lanes and upper part decide `PMULL`'s result. -/
theorem eq_of_lanes_upper {N VL : Nat} (h : Shape N VL) {v w : BitVec W}
    (hl : ∀ j, j < VL / N → lane N v j = lane N w j) (hu : v >>> VL = w >>> VL) : v = w := by
  apply BitVec.eq_of_getLsbD_eq
  intro b hb
  by_cases hlt : b < VL
  · have hN := h.pos
    have hj : b / N < VL / N := by
      rw [Nat.div_lt_iff_lt_mul hN, h.lanes_mul]; exact hlt
    have := congrArg (fun x => x.getLsbD (b % N)) (hl _ hj)
    simp only [lane, BitVec.getLsbD_extractLsb', Nat.mod_lt _ hN, decide_true, Bool.true_and] at this
    rwa [Nat.mul_comm, Nat.div_add_mod] at this
  · have := congrArg (fun x => x.getLsbD (b - VL)) hu
    simp only [BitVec.getLsbD_ushiftRight] at this
    rwa [show VL + (b - VL) = b by omega] at this

end Sys2Proof.Machine
end

