-- ==== Sys2Proof/Laws/Ops.lean ====
section
/-!
SUPPORT. What the shared operations over addresses, faults and the fetch can answer.
-/
namespace Sys2Proof.Machine

/-! ## Drawing a fault -/

/-- The draw answers a member of the list. -/
theorem drawFault_mem {d : Nat} {fs : List Fault} {f : Fault} (h : drawFault d fs = some f) : f ∈ fs := by
  match fs, h with
  | [g], h => simp [drawFault] at h; simp [h]
  | g :: g' :: fs, h => exact List.mem_of_getElem? h

/-- The draw answers nothing exactly when no fault applies. -/
theorem drawFault_eq_none {d : Nat} {fs : List Fault} : drawFault d fs = none ↔ fs = [] := by
  match fs with
  | [] => simp [drawFault]
  | [g] => simp [drawFault]
  | g :: g' :: fs =>
    simp only [drawFault, List.getElem?_eq_none_iff, not_le, reduceCtorEq, iff_false, List.length_cons]
    exact Nat.mod_lt _ (by omega)

/-! ## The faults of an operand (60_exceptions.md R115 to R117) -/

variable {s : State} {seg : Seg} {mis : Bool} {start : Word} {addrs : List Word}

theorem gp0_mem_operandFaults : Fault.gp0 ∈ s.operandFaults seg mis start addrs ↔
    mis = true ∨ ((∃ a ∈ addrs, s.canonicalFrom start a = false) ∧ seg ≠ .ss) := by
  cases h : addrs.find? (fun a => !s.accessible a) <;> simp [State.operandFaults, h]

theorem ss0_mem_operandFaults : Fault.ss0 ∈ s.operandFaults seg mis start addrs ↔
    (∃ a ∈ addrs, s.canonicalFrom start a = false) ∧ seg = .ss := by
  cases h : addrs.find? (fun a => !s.accessible a) <;> simp [State.operandFaults, h]

theorem pf_mem_operandFaults {code : BitVec 6} {a : Word} : Fault.pf code a ∈ s.operandFaults seg mis start addrs ↔
    addrs.find? (fun a => !s.accessible a) = some a ∧ code = s.dataFaultCode a := by
  cases h : addrs.find? (fun a => !s.accessible a) <;> simp [State.operandFaults, h]
  exact ⟨fun h => ⟨h.2.symm, h.2 ▸ h.1⟩, fun h => ⟨h.1 ▸ h.2, h.1.symm⟩⟩

theorem ud_notMem_operandFaults : Fault.ud ∉ s.operandFaults seg mis start addrs := by
  cases h : addrs.find? (fun a => !s.accessible a) <;> simp [State.operandFaults, h]

theorem nm_notMem_operandFaults : Fault.nm ∉ s.operandFaults seg mis start addrs := by
  cases h : addrs.find? (fun a => !s.accessible a) <;> simp [State.operandFaults, h]

/-- No memory fault applies exactly when the operand is aligned, canonical and accessible. -/
theorem operandFaults_eq_nil : s.operandFaults seg mis start addrs = [] ↔
    mis = false ∧ ∀ a ∈ addrs, s.canonicalFrom start a = true ∧ s.accessible a = true := by
  have hfind : addrs.find? (fun a => !s.accessible a) = none ↔ ∀ a ∈ addrs, s.accessible a = true := by
    simp [List.find?_eq_none]
  cases h : addrs.find? (fun a => !s.accessible a) with
  | none =>
    have := hfind.mp h
    cases seg <;> cases mis <;> simp [State.operandFaults, h] <;> aesop
  | some b =>
    have : ¬ ∀ a ∈ addrs, s.accessible a = true := fun hall => by
      rw [hfind.mpr hall] at h; cases h
    simp only [State.operandFaults, h]
    constructor
    · intro h'; simp at h'
    · intro h'; exact absurd (fun a ha => (h'.2 a ha).2) this

/-- The faults of an operand depend on the admission of its own bytes only. -/
theorem operandFaults_congr {s' : State}
    (h : ∀ a ∈ addrs, s.canonicalFrom start a = s'.canonicalFrom start a ∧ s.accessible a = s'.accessible a)
    (hc : ∀ a, s.dataFaultCode a = s'.dataFaultCode a) :
    s.operandFaults seg mis start addrs = s'.operandFaults seg mis start addrs := by
  have h1 : addrs.any (fun a => !s.canonicalFrom start a) = addrs.any (fun a => !s'.canonicalFrom start a) := by
    rw [Bool.eq_iff_iff]
    simp only [List.any_eq_true, Bool.not_eq_true']
    exact exists_congr fun a => and_congr_right fun ha => by rw [(h a ha).1]
  have h2 : addrs.find? (fun a => !s.accessible a) = addrs.find? (fun a => !s'.accessible a) := by
    clear h1
    induction addrs with
    | nil => rfl
    | cons b bs ih =>
      simp only [List.find?_cons, (h b (by simp)).2, ih fun a ha => h a (by simp [ha])]
  simp only [State.operandFaults, h1, h2, hc]

/-! ## The bytes of an operand (20_memory.md R39, R40, R46) -/

theorem mem_byteAddrs {b a : Word} {n : Nat} : b ∈ byteAddrs a n ↔ ∃ k, k < n ∧ b = a + BitVec.ofNat 64 k := by
  induction n generalizing a with
  | zero => simp [byteAddrs]
  | succ n ih =>
    rw [byteAddrs, List.mem_cons, ih]
    constructor
    · rintro (rfl | ⟨k, hk, rfl⟩)
      · exact ⟨0, by omega, by simp⟩
      · exact ⟨k + 1, by omega, by rw [BitVec.ofNat_add]; ac_rfl⟩
    · rintro ⟨k, hk, rfl⟩
      cases k with
      | zero => left; simp
      | succ k => exact .inr ⟨k, by omega, by rw [BitVec.ofNat_add]; ac_rfl⟩

/-- Which bytes a full-width memory operand reads. -/
theorem mem_operandBytes_full {N VL : Nat} {mask : Option (BitVec Config.kw)} {a b : Word} :
    b ∈ s.operandBytes N VL mask a false ↔
      ∃ j, j < VL / N ∧ (enabled mask j = true ∨ s.faultSuppression = false) ∧
        ∃ k, k < N / 8 ∧ b = a + BitVec.ofNat 64 (j * (N / 8) + k) := by
  simp only [State.operandBytes, Bool.false_eq_true, if_false, List.mem_flatMap, List.mem_filter, List.mem_range,
    Bool.or_eq_true, Bool.not_eq_true', mem_byteAddrs, elemAddr, and_assoc]
  refine exists_congr fun j => and_congr_right fun _ => and_congr_right fun _ => exists_congr fun k =>
    and_congr_right fun _ => ?_
  rw [BitVec.ofNat_add, BitVec.add_assoc]

/-- Which bytes a broadcast operand reads. -/
theorem mem_operandBytes_bcst {N VL : Nat} {mask : Option (BitVec Config.kw)} {a b : Word} :
    b ∈ s.operandBytes N VL mask a true ↔
      (∃ j, j < VL / N ∧ (enabled mask j = true ∨ s.faultSuppression = false)) ∧
        ∃ k, k < N / 8 ∧ b = a + BitVec.ofNat 64 k := by
  simp only [State.operandBytes, if_true]
  split
  · rename_i h
    simp only [List.isEmpty_iff, List.filter_eq_nil_iff, List.mem_range, Bool.or_eq_true, Bool.not_eq_true'] at h
    simp only [List.not_mem_nil, false_iff]
    rintro ⟨⟨j, hj, hl⟩, -⟩
    exact h j hj hl
  · rename_i h
    simp only [List.isEmpty_iff, List.filter_eq_nil_iff, List.mem_range, Bool.or_eq_true, Bool.not_eq_true',
      not_forall, Decidable.not_not] at h
    obtain ⟨j, hj, hl⟩ := h
    rw [mem_byteAddrs]
    exact ⟨fun h' => ⟨⟨j, hj, hl⟩, h'⟩, fun h' => h'.2⟩

/-! ## Reading memory (20_memory.md R37) -/

/-- A wide read depends on its own bytes only. -/
theorem readLE_congr {s s' : State} {n : Nat} {a : Word}
    (h : ∀ k, k < n → s.readByte (a + BitVec.ofNat 64 k) = s'.readByte (a + BitVec.ofNat 64 k)) :
    s.readLE a n = s'.readLE a n := by
  induction n generalizing a with
  | zero => rfl
  | succ n ih =>
    have h0 := h 0 (by omega)
    rw [BitVec.add_zero] at h0
    rw [State.readLE, State.readLE, h0, ih fun k hk => ?_]
    have := h (k + 1) (by omega)
    rwa [Nat.add_comm, BitVec.ofNat_add, ← BitVec.add_assoc] at this

/-- `memRead` depends on its own bytes only. -/
theorem memRead_congr {s s' : State} {a : Word} {bits : Nat}
    (h : ∀ k, k < bits / 8 → s.readByte (a + BitVec.ofNat 64 k) = s'.readByte (a + BitVec.ofNat 64 k)) :
    s.memRead a bits = s'.memRead a bits := by
  rw [State.memRead, State.memRead, readLE_congr h]

/-! ## Fetch -/

/-- The fetched bytes are memory's, in rising order, each admitted; a fetch that ends early ends at a byte with a fault. -/
theorem fetchFrom_spec (s : State) (start : Word) (n : Nat) (a : Word) :
    (∀ k, ∀ h : k < (s.fetchFrom start n a).1.length,
      (s.fetchFrom start n a).1[k] = s.readByte (a + BitVec.ofNat 64 k) ∧ s.fetchFault start (a + BitVec.ofNat 64 k) = none) ∧
    (((s.fetchFrom start n a).2 = none ∧ (s.fetchFrom start n a).1.length = n) ∨
      ((s.fetchFrom start n a).2 = s.fetchFault start (a + BitVec.ofNat 64 (s.fetchFrom start n a).1.length) ∧
        (s.fetchFrom start n a).2 ≠ none ∧ (s.fetchFrom start n a).1.length < n)) := by
  induction n generalizing a with
  | zero => simp [State.fetchFrom]
  | succ n ih =>
    rw [State.fetchFrom]
    cases hf : s.fetchFault start a with
    | some f => simp [hf]
    | none =>
      obtain ⟨hb, he⟩ := ih (a + 1)
      have hstep : ∀ k : Nat, a + BitVec.ofNat 64 (k + 1) = a + 1 + BitVec.ofNat 64 k := fun k => by
        rw [BitVec.ofNat_add]; ac_rfl
      simp only [List.length_cons]
      refine ⟨fun k h => ?_, ?_⟩
      · cases k with
        | zero => simp [hf]
        | succ k => rw [hstep]; exact hb k (by simpa using h)
      · rcases he with ⟨h1, h2⟩ | ⟨h1, h2, h3⟩
        · exact .inl ⟨h1, by omega⟩
        · exact .inr ⟨by rw [hstep]; exact h1, h2, by omega⟩

end Sys2Proof.Machine
end

