-- ==== Sys2Proof/Laws/State.lean ====
section
/-!
SUPPORT. One lemma per field per update of the state, and the register reads after them.
-/
namespace Sys2Proof.Machine

variable (s : State) (n : VReg) (v : BitVec Config.maxVL) (len : Nat)

@[simp] theorem writeZmm_zmm : (s.writeZmm n v).zmm = s.zmm.set n.val v n.isLt := rfl
@[simp] theorem writeZmm_k : (s.writeZmm n v).k = s.k := rfl
@[simp] theorem writeZmm_gpr : (s.writeZmm n v).gpr = s.gpr := rfl
@[simp] theorem writeZmm_rip : (s.writeZmm n v).rip = s.rip := rfl
@[simp] theorem writeZmm_eflags : (s.writeZmm n v).eflags = s.eflags := rfl
@[simp] theorem writeZmm_mxcsr : (s.writeZmm n v).mxcsr = s.mxcsr := rfl
@[simp] theorem writeZmm_cr0 : (s.writeZmm n v).cr0 = s.cr0 := rfl
@[simp] theorem writeZmm_cr4 : (s.writeZmm n v).cr4 = s.cr4 := rfl
@[simp] theorem writeZmm_xcr0 : (s.writeZmm n v).xcr0 = s.xcr0 := rfl
@[simp] theorem writeZmm_csBase : (s.writeZmm n v).csBase = s.csBase := rfl
@[simp] theorem writeZmm_fsBase : (s.writeZmm n v).fsBase = s.fsBase := rfl
@[simp] theorem writeZmm_gsBase : (s.writeZmm n v).gsBase = s.gsBase := rfl
@[simp] theorem writeZmm_mode : (s.writeZmm n v).mode = s.mode := rfl
@[simp] theorem writeZmm_cpl : (s.writeZmm n v).cpl = s.cpl := rfl
@[simp] theorem writeZmm_cpuid : (s.writeZmm n v).cpuid = s.cpuid := rfl
@[simp] theorem writeZmm_vaBits : (s.writeZmm n v).vaBits = s.vaBits := rfl
@[simp] theorem writeZmm_faultSuppression : (s.writeZmm n v).faultSuppression = s.faultSuppression := rfl
@[simp] theorem writeZmm_inaccessible : (s.writeZmm n v).inaccessible = s.inaccessible := rfl
@[simp] theorem writeZmm_unfetchable : (s.writeZmm n v).unfetchable = s.unfetchable := rfl
@[simp] theorem writeZmm_mem : (s.writeZmm n v).mem = s.mem := rfl
@[simp] theorem writeZmm_draw : (s.writeZmm n v).draw = s.draw := rfl

@[simp] theorem advance_rip : (s.advance len).rip = s.rip + BitVec.ofNat 64 len := rfl
@[simp] theorem advance_zmm : (s.advance len).zmm = s.zmm := rfl
@[simp] theorem advance_k : (s.advance len).k = s.k := rfl
@[simp] theorem advance_gpr : (s.advance len).gpr = s.gpr := rfl
@[simp] theorem advance_eflags : (s.advance len).eflags = s.eflags := rfl
@[simp] theorem advance_mxcsr : (s.advance len).mxcsr = s.mxcsr := rfl
@[simp] theorem advance_cr0 : (s.advance len).cr0 = s.cr0 := rfl
@[simp] theorem advance_cr4 : (s.advance len).cr4 = s.cr4 := rfl
@[simp] theorem advance_xcr0 : (s.advance len).xcr0 = s.xcr0 := rfl
@[simp] theorem advance_csBase : (s.advance len).csBase = s.csBase := rfl
@[simp] theorem advance_fsBase : (s.advance len).fsBase = s.fsBase := rfl
@[simp] theorem advance_gsBase : (s.advance len).gsBase = s.gsBase := rfl
@[simp] theorem advance_mode : (s.advance len).mode = s.mode := rfl
@[simp] theorem advance_cpl : (s.advance len).cpl = s.cpl := rfl
@[simp] theorem advance_cpuid : (s.advance len).cpuid = s.cpuid := rfl
@[simp] theorem advance_vaBits : (s.advance len).vaBits = s.vaBits := rfl
@[simp] theorem advance_faultSuppression : (s.advance len).faultSuppression = s.faultSuppression := rfl
@[simp] theorem advance_inaccessible : (s.advance len).inaccessible = s.inaccessible := rfl
@[simp] theorem advance_unfetchable : (s.advance len).unfetchable = s.unfetchable := rfl
@[simp] theorem advance_mem : (s.advance len).mem = s.mem := rfl
@[simp] theorem advance_draw : (s.advance len).draw = s.draw := rfl

@[simp] theorem complete_zmm : (s.complete n v len).zmm = s.zmm.set n.val v n.isLt := rfl
@[simp] theorem complete_rip : (s.complete n v len).rip = s.rip + BitVec.ofNat 64 len := rfl
@[simp] theorem complete_k : (s.complete n v len).k = s.k := rfl
@[simp] theorem complete_gpr : (s.complete n v len).gpr = s.gpr := rfl
@[simp] theorem complete_eflags : (s.complete n v len).eflags = s.eflags := rfl
@[simp] theorem complete_mxcsr : (s.complete n v len).mxcsr = s.mxcsr := rfl
@[simp] theorem complete_cr0 : (s.complete n v len).cr0 = s.cr0 := rfl
@[simp] theorem complete_cr4 : (s.complete n v len).cr4 = s.cr4 := rfl
@[simp] theorem complete_xcr0 : (s.complete n v len).xcr0 = s.xcr0 := rfl
@[simp] theorem complete_csBase : (s.complete n v len).csBase = s.csBase := rfl
@[simp] theorem complete_fsBase : (s.complete n v len).fsBase = s.fsBase := rfl
@[simp] theorem complete_gsBase : (s.complete n v len).gsBase = s.gsBase := rfl
@[simp] theorem complete_mode : (s.complete n v len).mode = s.mode := rfl
@[simp] theorem complete_cpl : (s.complete n v len).cpl = s.cpl := rfl
@[simp] theorem complete_cpuid : (s.complete n v len).cpuid = s.cpuid := rfl
@[simp] theorem complete_vaBits : (s.complete n v len).vaBits = s.vaBits := rfl
@[simp] theorem complete_faultSuppression : (s.complete n v len).faultSuppression = s.faultSuppression := rfl
@[simp] theorem complete_inaccessible : (s.complete n v len).inaccessible = s.inaccessible := rfl
@[simp] theorem complete_unfetchable : (s.complete n v len).unfetchable = s.unfetchable := rfl
@[simp] theorem complete_mem : (s.complete n v len).mem = s.mem := rfl
@[simp] theorem complete_draw : (s.complete n v len).draw = s.draw := rfl

theorem readZmm_writeZmm_same : (s.writeZmm n v).readZmm n = v := by
  simp [State.readZmm, State.writeZmm, Vector.get_eq_getElem]

theorem readZmm_writeZmm_ne {m : VReg} (h : m ≠ n) : (s.writeZmm n v).readZmm m = s.readZmm m := by
  have h' : n.val ≠ m.val := fun e => h (Fin.ext e.symm)
  simp [State.readZmm, State.writeZmm, Vector.get_eq_getElem, Vector.getElem_set_ne _ _ h']

@[simp] theorem readZmm_complete_same : (s.complete n v len).readZmm n = v := readZmm_writeZmm_same s n v

theorem readZmm_complete_ne {m : VReg} (h : m ≠ n) : (s.complete n v len).readZmm m = s.readZmm m :=
  readZmm_writeZmm_ne s n v h

@[simp] theorem readK_complete (k : KReg) : (s.complete n v len).readK k = s.readK k := rfl
@[simp] theorem readGpr_complete (r : Gpr) : (s.complete n v len).readGpr r = s.readGpr r := rfl
@[simp] theorem readByte_complete (a : Word) : (s.complete n v len).readByte a = s.readByte a := rfl
@[simp] theorem canonical_complete (a : Word) : (s.complete n v len).canonical a = s.canonical a := rfl
@[simp] theorem accessible_complete (a : Word) : (s.complete n v len).accessible a = s.accessible a := rfl
@[simp] theorem fetchable_complete (a : Word) : (s.complete n v len).fetchable a = s.fetchable a := rfl

/-- Everything `complete` does: the destination register and `rip`, and nothing else (10_state.md R32). -/
theorem complete_eq : s.complete n v len =
    { s with zmm := s.zmm.set n.val v n.isLt, rip := s.rip + BitVec.ofNat 64 len } := rfl

end Sys2Proof.Machine
end

