-- ==== Sys2Proof/Laws/Exec.lean ====
section
/-!
SUPPORT. `exec` of every row as one shared operation, and everything that operation can answer.
-/
namespace Sys2Proof.Machine
open Sys2Proof.Safety

/-- The row's treatment of the bits above `VL`. -/
def upperOf (i : Instr) : Upper := if i.isLegacy then .keep else .zero

/-- The row's `#UD` condition (60_exceptions.md R108 to R111). -/
def udOf : Instr → State → Bool
  | .pmulldSse _ _ _, s => s.udSse
  | .vpmulldVex128 _ _ _ _, s => s.udVex s.cpuid.avx
  | .vpmulldVex256 _ _ _ _, s => s.udVex s.cpuid.avx2
  | .vpmulldEvex128 _ _ _ _ _, s => s.udEvex (s.cpuid.avx512vl && s.cpuid.avx512f)
  | .vpmulldEvex256 _ _ _ _ _, s => s.udEvex (s.cpuid.avx512vl && s.cpuid.avx512f)
  | .vpmulldEvex512 _ _ _ _ _, s => s.udEvex s.cpuid.avx512f
  | .vpmullqEvex128 _ _ _ _ _, s => s.udEvex (s.cpuid.avx512vl && s.cpuid.avx512dq)
  | .vpmullqEvex256 _ _ _ _ _, s => s.udEvex (s.cpuid.avx512vl && s.cpuid.avx512dq)
  | .vpmullqEvex512 _ _ _ _ _, s => s.udEvex s.cpuid.avx512dq

/-- The fault of reading the row's second source. -/
def memFaultOf (i : Instr) (s : State) : Option Fault :=
  s.src2Fault i.elemBits i.vecLen i.isLegacy (s.maskValue i.writemask) i.len i.secondSource

/-- The value a completed row writes to its destination. -/
def resultOf (i : Instr) (s : State) : BitVec Config.maxVL :=
  pmull i.elemBits i.vecLen (upperOf i) (s.maskValue i.writemask) i.writemask.isZeroing (s.readZmm i.firstSource)
    (s.src2Elem i.elemBits i.len i.secondSource) (s.readZmm i.dst)

/-- Every row is `packedMultiply` at its parameters. -/
theorem exec_eq_packedMultiply (i : Instr) (s : State) : exec i s =
    packedMultiply i.elemBits i.vecLen (upperOf i) (udOf i s) i.isLegacy i.dst i.firstSource i.writemask i.secondSource
      i.len s := by
  cases i <;> rfl

/-- Everything a row can answer, in the order of its checks (40_common_lane_semantics.md R94). -/
theorem exec_eq (i : Instr) (s : State) : exec i s =
    if udOf i s then .fault .ud
    else if s.mode ≠ .long64 then .refused .unsupportedMode
    else if s.cr0TS then .fault .nm
    else match memFaultOf i s with
      | some f => .fault f
      | none => .next (s.complete i.dst (resultOf i s) i.len) := by
  rw [exec_eq_packedMultiply]; rfl

theorem xcr0Avx_eq_true {s : State} : s.xcr0Avx = true ↔ s.xcr0.getLsbD 1 = true ∧ s.xcr0.getLsbD 2 = true := by
  simp only [State.xcr0Avx, beq_iff_eq]
  constructor
  · intro h
    constructor
    · simpa using congrArg (fun x => x.getLsbD 0) h
    · simpa using congrArg (fun x => x.getLsbD 1) h
  · rintro ⟨h1, h2⟩
    apply BitVec.eq_of_getLsbD_eq
    intro b hb
    match b, hb with
    | 0, _ => simpa using h1
    | 1, _ => simpa using h2

theorem xcr0Avx512_eq_true {s : State} : s.xcr0Avx512 = true ↔
    s.xcr0.getLsbD 5 = true ∧ s.xcr0.getLsbD 6 = true ∧ s.xcr0.getLsbD 7 = true := by
  simp only [State.xcr0Avx512, beq_iff_eq]
  constructor
  · intro h
    refine ⟨?_, ?_, ?_⟩
    · simpa using congrArg (fun x => x.getLsbD 0) h
    · simpa using congrArg (fun x => x.getLsbD 1) h
    · simpa using congrArg (fun x => x.getLsbD 2) h
  · rintro ⟨h1, h2, h3⟩
    apply BitVec.eq_of_getLsbD_eq
    intro b hb
    match b, hb with
    | 0, _ => simpa using h1
    | 1, _ => simpa using h2
    | 2, _ => simpa using h3

/-- The `#UD` condition fails exactly under the launch premise. -/
theorem udOf_eq_false {i : Instr} {s : State} : udOf i s = false ↔ NoUd i s := by
  have ha := @xcr0Avx_eq_true s
  have hb := @xcr0Avx512_eq_true s
  cases i <;>
    simp only [udOf, State.udSse, State.udVex, State.udEvex, State.cr0EM, State.cr4OSFXSR, State.cr4OSXSAVE,
      Bool.or_eq_false_iff, Bool.not_eq_false', Bool.and_eq_true, NoUd, FlagsPresent, OsEnabled, EvexEnabled, VexEnabled,
      ha, hb] <;>
    tauto

/-- A row completes exactly when nothing stands against it. -/
theorem exec_eq_next {i : Instr} {s t : State} : exec i s = .next t ↔
    NoUd i s ∧ Mode64 s ∧ s.cr0TS = false ∧ memFaultOf i s = none ∧ t = s.complete i.dst (resultOf i s) i.len := by
  rw [exec_eq, ← udOf_eq_false, Mode64]
  by_cases h1 : udOf i s = true
  · simp [h1]
  · by_cases h2 : s.mode = .long64
    · by_cases h3 : s.cr0TS = true
      · simp [h1, h2, h3]
      · cases h4 : memFaultOf i s <;> simp [h1, h2, h3, eq_comm]
    · simp [h1, h2]

/-- An enabled row in 64-bit mode answers its memory fault or its result. -/
theorem exec_of_enabled {i : Instr} {s : State} (hm : Mode64 s) (he : Enabled i s) : exec i s =
    match memFaultOf i s with
    | some f => .fault f
    | none => .next (s.complete i.dst (resultOf i s) i.len) := by
  have h1 := udOf_eq_false.mpr he.1
  have h2 : s.cr0TS = false := he.2
  rw [exec_eq, h1, h2]
  simp [show s.mode = .long64 from hm]

theorem enabled_maskValue {i : Instr} {s : State} {j : Nat} :
    enabled (s.maskValue i.writemask) j = true ↔ LaneEnabled i s j := by
  cases h : i.writemask <;> simp [enabled, State.maskValue, LaneEnabled, h]

/-- Lane `j` of the result (40_common_lane_semantics.md R90 to R92). -/
theorem lane_resultOf {i : Instr} {s : State} {j : Nat} (hj : j < i.lanes) :
    lane i.elemBits (resultOf i s) j =
      resultLane i.elemBits (s.maskValue i.writemask) i.writemask.isZeroing (s.readZmm i.firstSource)
        (s.src2Elem i.elemBits i.len i.secondSource) (s.readZmm i.dst) j :=
  lane_pmull _ _ _ _ _ _ (by cases i <;> simp [Shape, Instr.elemBits, Instr.vecLen]) Config.fullRegister.atLeast512 hj

theorem shape_of_row (i : Instr) : Shape i.elemBits i.vecLen := by
  cases i <;> simp [Shape, Instr.elemBits, Instr.vecLen]

/-- The bytes an operand reads, in terms of the premises' `ReadsByte`. -/
theorem mem_operandBytes {i : Instr} {s : State} {ea : AddrForm} {b : Word} :
    (i.secondSource = .mem ea →
      (b ∈ s.operandBytes i.elemBits i.vecLen (s.maskValue i.writemask) (s.linearAddr i.len ea) false ↔ ReadsByte i s b)) ∧
    (i.secondSource = .bcst ea →
      (b ∈ s.operandBytes i.elemBits i.vecLen (s.maskValue i.writemask) (s.linearAddr i.len ea) true ↔ ReadsByte i s b)) := by
  constructor <;> intro h
  · simp only [mem_operandBytes_full, ReadsByte, h, LaneChecked, enabled_maskValue, Instr.lanes]
  · simp only [mem_operandBytes_bcst, ReadsByte, h, LaneChecked, enabled_maskValue, Instr.lanes]

/-- The canonical check of an operand's byte, in terms of the premises' `CanonicalByte`. -/
theorem canonicalFrom_eq_true {i : Instr} {s : State} {ea : AddrForm}
    (h : i.secondSource = .mem ea ∨ i.secondSource = .bcst ea) (b : Word) :
    s.canonicalFrom (s.linearAddr i.len ea) b = true ↔ CanonicalByte i s b := by
  rcases h with h | h <;> simp [State.canonicalFrom, CanonicalByte, h, and_comm]

theorem canonicalFrom_eq_false {i : Instr} {s : State} {ea : AddrForm}
    (h : i.secondSource = .mem ea ∨ i.secondSource = .bcst ea) (b : Word) :
    s.canonicalFrom (s.linearAddr i.len ea) b = false ↔ ¬ CanonicalByte i s b := by
  rw [← canonicalFrom_eq_true h, Bool.not_eq_true]

/-- The memory faults that apply to a row, as the operand gives them. -/
theorem memFaultOf_mem {i : Instr} {s : State} {f : Fault} (h : memFaultOf i s = some f) :
    (f = .gp0 ∧ GpApplies i s) ∨ (f = .ss0 ∧ SsApplies i s) ∨
      (∃ a, f = .pf (s.dataFaultCode a) a ∧ ReadsByte i s a ∧ s.accessible a = false) := by
  unfold memFaultOf at h
  cases h2 : i.secondSource with
  | reg n => simp [h2, State.src2Fault] at h
  | mem ea =>
    rw [h2] at h
    have hm := drawFault_mem h
    have hr := fun b => (mem_operandBytes (s := s) (b := b)).1 h2
    match f with
    | .gp0 =>
      rw [gp0_mem_operandFaults] at hm
      simp only [hr, canonicalFrom_eq_false (.inl h2)] at hm
      refine .inl ⟨rfl, hm.imp (fun hmis => ?_) (fun hn => ⟨hn.1, by simpa [ThroughSs, h2] using hn.2⟩)⟩
      simp only [Bool.and_eq_true, bne_iff_ne, ne_eq] at hmis
      refine ⟨hmis.1, ea, h2, fun hal => hmis.2 ?_⟩
      apply BitVec.eq_of_toNat_eq
      simpa [BitVec.extractLsb'_toNat, Aligned16] using hal
    | .ss0 =>
      rw [ss0_mem_operandFaults] at hm
      simp only [hr, canonicalFrom_eq_false (.inl h2)] at hm
      exact .inr (.inl ⟨rfl, hm.1, by simpa [ThroughSs, h2] using hm.2⟩)
    | .pf c a =>
      rw [pf_mem_operandFaults] at hm
      have := List.find?_some hm.1
      exact .inr (.inr ⟨a, by rw [hm.2], (hr a).mp (List.mem_of_find?_eq_some hm.1), by simpa using this⟩)
    | .ud => exact absurd hm ud_notMem_operandFaults
    | .nm => exact absurd hm nm_notMem_operandFaults
  | bcst ea =>
    rw [h2] at h
    have hm := drawFault_mem h
    have hr := fun b => (mem_operandBytes (s := s) (b := b)).2 h2
    match f with
    | .gp0 =>
      rw [gp0_mem_operandFaults] at hm
      simp only [hr, canonicalFrom_eq_false (.inr h2), Bool.false_eq_true, false_or] at hm
      exact .inl ⟨rfl, .inr ⟨hm.1, by simpa [ThroughSs, h2] using hm.2⟩⟩
    | .ss0 =>
      rw [ss0_mem_operandFaults] at hm
      simp only [hr, canonicalFrom_eq_false (.inr h2)] at hm
      exact .inr (.inl ⟨rfl, hm.1, by simpa [ThroughSs, h2] using hm.2⟩)
    | .pf c a =>
      rw [pf_mem_operandFaults] at hm
      have := List.find?_some hm.1
      exact .inr (.inr ⟨a, by rw [hm.2], (hr a).mp (List.mem_of_find?_eq_some hm.1), by simpa using this⟩)
    | .ud => exact absurd hm ud_notMem_operandFaults
    | .nm => exact absurd hm nm_notMem_operandFaults

/-- The operand has no fault exactly when it is readable. -/
theorem memFaultOf_eq_none {i : Instr} {s : State} : memFaultOf i s = none ↔ OperandReadable i s := by
  unfold memFaultOf OperandReadable Misaligned
  cases h2 : i.secondSource with
  | reg n => simp [State.src2Fault, ReadsByte, h2]
  | mem ea =>
    have hr := fun b => (mem_operandBytes (s := s) (b := b)).1 h2
    have hal : (s.linearAddr i.len ea).extractLsb' 0 4 = 0 ↔ Aligned16 (s.linearAddr i.len ea) := by
      rw [Aligned16, ← BitVec.toNat_inj]
      simp [BitVec.extractLsb'_toNat]
    simp only [State.src2Fault, drawFault_eq_none, operandFaults_eq_nil, hr, canonicalFrom_eq_true (.inl h2)]
    refine and_congr_left fun _ => ?_
    cases i.isLegacy with
    | false => simp
    | true => simpa using hal
  | bcst ea =>
    have hr := fun b => (mem_operandBytes (s := s) (b := b)).2 h2
    simp only [State.src2Fault, drawFault_eq_none, operandFaults_eq_nil, hr, canonicalFrom_eq_true (.inr h2)]
    simp

/-- Completion: exactly under the launch premises, with the state `complete` gives. -/
theorem exec_eq_next_iff_ready {i : Instr} {s t : State} :
    exec i s = .next t ↔ Ready i s ∧ t = s.complete i.dst (resultOf i s) i.len := by
  rw [exec_eq_next, memFaultOf_eq_none]
  unfold Ready Enabled State.cr0TS
  tauto

/-- The bits of the result above the vector length (40_common_lane_semantics.md R93). -/
theorem shiftRight_resultOf {i : Instr} {s : State} :
    resultOf i s >>> i.vecLen = if i.isLegacy then s.readZmm i.dst >>> i.vecLen else 0 := by
  unfold resultOf upperOf
  cases i.isLegacy
  · exact pmull_zero_upper _ _ _ _ _ (shape_of_row i)
  · exact pmull_keep_upper _ _ _ _ _ (shape_of_row i)

/-- A row's result depends on the two sources, the writemask and the destination's old value only. -/
theorem resultOf_congr (i : Instr) (s s' : State) (h1 : s.readZmm i.firstSource = s'.readZmm i.firstSource)
    (hd : s.readZmm i.dst = s'.readZmm i.dst)
    (hm : ∀ j, j < i.lanes → (LaneEnabled i s j ↔ LaneEnabled i s' j))
    (h2 : ∀ j, j < i.lanes → LaneEnabled i s j →
      s.src2Elem i.elemBits i.len i.secondSource j = s'.src2Elem i.elemBits i.len i.secondSource j) :
    resultOf i s = resultOf i s' := by
  apply eq_of_lanes_upper (shape_of_row i)
  · intro j hj
    rw [lane_resultOf hj, lane_resultOf hj]
    by_cases he : LaneEnabled i s j
    · rw [resultLane, resultLane, if_pos (enabled_maskValue.mpr he), if_pos (enabled_maskValue.mpr ((hm j hj).mp he)),
        h1, h2 j hj he]
    · have h3 : ¬ enabled (s.maskValue i.writemask) j = true := by rwa [enabled_maskValue]
      have h4 : ¬ enabled (s'.maskValue i.writemask) j = true := by rwa [enabled_maskValue, ← hm j hj]
      rw [resultLane, resultLane, if_neg h3, if_neg h4, hd]
  · rw [shiftRight_resultOf, shiftRight_resultOf, hd]

/-- Which bytes can fault does not depend on more than which lanes are enabled. -/
theorem operandBytes_congr {N VL : Nat} {s s' : State} {m m' : Option (BitVec Config.kw)} {a : Word} {c : Bool}
    (hs : s.faultSuppression = s'.faultSuppression) (hm : ∀ j, j < VL / N → enabled m j = enabled m' j) :
    s.operandBytes N VL m a c = s'.operandBytes N VL m' a c := by
  have : (List.range (VL / N)).filter (fun j => enabled m j || !s.faultSuppression) =
      (List.range (VL / N)).filter (fun j => enabled m' j || !s'.faultSuppression) := by
    apply List.filter_congr
    intro j hj
    rw [hm j (List.mem_range.mp hj), hs]
  simp only [State.operandBytes, this]

/-- A row's memory fault depends on the operand's address, the lanes enabled, the admission of the bytes it reads, the
parts of a page-fault code and the draw. -/
theorem memFaultOf_congr (i : Instr) (s s' : State) (hs : s.faultSuppression = s'.faultSuppression)
    (hm : ∀ j, j < i.lanes → (LaneEnabled i s j ↔ LaneEnabled i s' j))
    (ha : ∀ ea, i.secondSource = .mem ea ∨ i.secondSource = .bcst ea → s.linearAddr i.len ea = s'.linearAddr i.len ea)
    (hb : ∀ b, ReadsByte i s b → s.canonical b = s'.canonical b ∧ s.accessible b = s'.accessible b)
    (hc : ∀ a, s.dataFaultCode a = s'.dataFaultCode a) (hd : s.draw = s'.draw) : memFaultOf i s = memFaultOf i s' := by
  have hm' : ∀ j, j < i.vecLen / i.elemBits →
      enabled (s.maskValue i.writemask) j = enabled (s'.maskValue i.writemask) j := fun j hj => by
    rw [Bool.eq_iff_iff, enabled_maskValue, enabled_maskValue]; exact hm j hj
  unfold memFaultOf
  cases h2 : i.secondSource with
  | reg n => rfl
  | mem ea =>
    simp only [State.src2Fault, ← hd, ← ha ea (.inl h2), ← operandBytes_congr (c := false) hs hm']
    refine congrArg _ (operandFaults_congr (fun b hb' => ?_) hc)
    obtain ⟨h1, h3⟩ := hb b ((mem_operandBytes.1 h2).mp hb')
    exact ⟨by rw [State.canonicalFrom, State.canonicalFrom, h1], h3⟩
  | bcst ea =>
    simp only [State.src2Fault, ← hd, ← ha ea (.inr h2), ← operandBytes_congr (c := true) hs hm']
    refine congrArg _ (operandFaults_congr (fun b hb' => ?_) hc)
    obtain ⟨h1, h3⟩ := hb b ((mem_operandBytes.2 h2).mp hb')
    exact ⟨by rw [State.canonicalFrom, State.canonicalFrom, h1], h3⟩

/-- Two states in which every check and the result agree give the same outcome, the next state changed by `f`. -/
theorem exec_eq_mapNext (i : Instr) (s s' : State) (f : State → State) (hu : udOf i s' = udOf i s)
    (hm : s'.mode = s.mode) (ht : s'.cr0TS = s.cr0TS) (hf : memFaultOf i s' = memFaultOf i s)
    (hr : resultOf i s' = resultOf i s)
    (hc : ∀ v, s'.complete i.dst v i.len = f (s.complete i.dst v i.len)) : exec i s' = mapNext f (exec i s) := by
  rw [exec_eq, exec_eq, hu, hm, ht, hf, hr, hc]
  cases udOf i s <;> cases s.cr0TS <;> cases memFaultOf i s <;> by_cases h : s.mode = .long64 <;> simp [h, mapNext]

/-- The second source of a memory form, lane by lane, depends on the bytes the lane reads. -/
theorem src2Elem_congr (i : Instr) (s s' : State) (hz : ∀ n, i.secondSource = .reg n → s.readZmm n = s'.readZmm n)
    (ha : ∀ ea, i.secondSource = .mem ea ∨ i.secondSource = .bcst ea → s.linearAddr i.len ea = s'.linearAddr i.len ea)
    (hb : ∀ b, ReadsByte i s b → s.readByte b = s'.readByte b) {j : Nat} (hj : j < i.lanes) (he : LaneEnabled i s j) :
    s.src2Elem i.elemBits i.len i.secondSource j = s'.src2Elem i.elemBits i.len i.secondSource j := by
  cases h2 : i.secondSource with
  | reg n => rw [State.src2Elem, State.src2Elem, hz n h2]
  | mem ea =>
    rw [State.src2Elem, State.src2Elem, ← ha ea (.inl h2)]
    refine memRead_congr fun k hk => hb _ ?_
    rw [ReadsByte, h2]
    exact ⟨j, hj, .inl he, k, hk, by rw [elemAddr, BitVec.ofNat_add, BitVec.add_assoc]⟩
  | bcst ea =>
    rw [State.src2Elem, State.src2Elem, ← ha ea (.inr h2)]
    refine memRead_congr fun k hk => hb _ ?_
    rw [ReadsByte, h2]
    exact ⟨⟨j, hj, .inl he⟩, k, hk, rfl⟩

end Sys2Proof.Machine
end

