-- ==== Sys2Proof/Laws/Memory.lean ====
section
/-!
SUPPORT. Memory: a read after a write, and the canonical form.
-/
namespace Sys2Proof.Machine

@[simp] theorem read_nil (a : Nat) : Memory.read [] a = 0 := rfl

theorem read_cons (x : Nat) (v : Byte) (t : Memory) (a : Nat) :
    Memory.read ((x, v) :: t) a = if x = a then v else Memory.read t a := rfl

theorem wfFrom_cons {lo x : Nat} {v : Byte} {t : Memory} :
    Memory.wfFrom lo ((x, v) :: t) = true ↔ lo ≤ x ∧ x < 2 ^ 64 ∧ v ≠ 0 ∧ Memory.wfFrom (x + 1) t = true := by
  simp [Memory.wfFrom, and_assoc]

theorem wfFrom_mono {lo lo' : Nat} (h : lo' ≤ lo) {m : Memory} (hm : Memory.wfFrom lo m = true) :
    Memory.wfFrom lo' m = true := by
  cases m with
  | nil => rfl
  | cons c t =>
    obtain ⟨x, v⟩ := c
    rw [wfFrom_cons] at hm ⊢
    exact ⟨h.trans hm.1, hm.2⟩

/-- An address below every listed one reads as an unlisted byte. -/
theorem read_below {lo a : Nat} (h : a < lo) {m : Memory} (hm : Memory.wfFrom lo m = true) : Memory.read m a = 0 := by
  induction m generalizing lo with
  | nil => rfl
  | cons c t ih =>
    obtain ⟨x, v⟩ := c
    rw [wfFrom_cons] at hm
    rw [read_cons, if_neg (by omega)]
    exact ih (by omega) hm.2.2.2

/-- A write leaves every other address alone, in any list. -/
theorem read_write_ne (m : Memory) {a b : Nat} (v : Byte) (h : b ≠ a) :
    Memory.read (Memory.write m a v) b = Memory.read m b := by
  induction m with
  | nil => unfold Memory.write; split <;> simp [read_cons, Ne.symm h]
  | cons c t ih =>
    obtain ⟨x, u⟩ := c
    unfold Memory.write
    split
    · split <;> simp [read_cons, Ne.symm h]
    · split
      · rename_i hax
        split <;> simp [read_cons, Ne.symm h, ← hax]
      · simp only [read_cons, ih]

/-- A canonical memory reads back what was written. -/
theorem read_write_same {lo : Nat} {m : Memory} (hm : Memory.wfFrom lo m = true) (a : Nat) (v : Byte) :
    Memory.read (Memory.write m a v) a = v := by
  induction m generalizing lo with
  | nil => unfold Memory.write; split <;> simp_all [read_cons]
  | cons c t ih =>
    obtain ⟨x, u⟩ := c
    rw [wfFrom_cons] at hm
    unfold Memory.write
    split
    · split
      · rename_i h0
        rw [read_cons, if_neg (by omega), read_below (by omega) hm.2.2.2, h0]
      · simp [read_cons]
    · split
      · rename_i hax
        split
        · rename_i h0
          rw [read_below (lo := x + 1) (by omega) hm.2.2.2, h0]
        · simp [read_cons]
      · rename_i hne
        rw [read_cons, if_neg (Ne.symm hne)]
        exact ih hm.2.2.2

/-- A write keeps the canonical form. -/
theorem write_wfFrom {lo : Nat} {m : Memory} (hm : Memory.wfFrom lo m = true) {a : Nat} (ha : lo ≤ a) (h64 : a < 2 ^ 64)
    (v : Byte) : Memory.wfFrom lo (Memory.write m a v) = true := by
  induction m generalizing lo with
  | nil => unfold Memory.write; split <;> simp_all [Memory.wfFrom]
  | cons c t ih =>
    obtain ⟨x, u⟩ := c
    have hm' := wfFrom_cons.mp hm
    unfold Memory.write
    split
    · split
      · exact hm
      · rename_i hax h0
        exact wfFrom_cons.mpr ⟨ha, h64, h0, wfFrom_cons.mpr ⟨by omega, hm'.2⟩⟩
    · split
      · rename_i hax
        split
        · exact wfFrom_mono (by omega) hm'.2.2.2
        · rename_i h0
          exact wfFrom_cons.mpr ⟨ha, h64, h0, hax ▸ hm'.2.2.2⟩
      · exact wfFrom_cons.mpr ⟨hm'.1, hm'.2.1, hm'.2.2.1, ih hm'.2.2.2 (by omega)⟩

/-- Every memory operation keeps the canonical form: one written byte. -/
theorem write_wf {m : Memory} (hm : Memory.wf m = true) (a : Word) (v : Byte) :
    Memory.wf (Memory.write m a.toNat v) = true :=
  write_wfFrom hm (Nat.zero_le _) a.isLt v

/-- Every memory operation keeps the canonical form: placed bytes. -/
theorem placeBytes_wf (bs : List Byte) (s : State) (a : Word) (hm : Memory.wf s.mem = true) :
    Memory.wf (s.placeBytes a bs).mem = true := by
  induction bs generalizing s a with
  | nil => exact hm
  | cons b bs ih => exact ih _ _ (write_wf hm a b)

/-- Placing bytes changes memory only. -/
theorem placeBytes_eq (bs : List Byte) (s : State) (a : Word) :
    s.placeBytes a bs = { s with mem := (s.placeBytes a bs).mem } := by
  induction bs generalizing s a with
  | nil => rfl
  | cons b bs ih => rw [State.placeBytes, ih]

/-- Two canonical memories that read alike are equal: the canonical form is one per content. -/
theorem ext_of_wfFrom {lo : Nat} {m m' : Memory} (hm : Memory.wfFrom lo m = true) (hm' : Memory.wfFrom lo m' = true)
    (h : ∀ a, Memory.read m a = Memory.read m' a) : m = m' := by
  induction m generalizing lo m' with
  | nil =>
    cases m' with
    | nil => rfl
    | cons c t =>
      obtain ⟨x, v⟩ := c
      exact absurd (h x) (by simpa [read_cons] using Ne.symm (wfFrom_cons.mp hm').2.2.1)
  | cons c t ih =>
    obtain ⟨x, v⟩ := c
    have hc := wfFrom_cons.mp hm
    cases m' with
    | nil => exact absurd (h x) (by simpa [read_cons] using hc.2.2.1)
    | cons c' t' =>
      obtain ⟨y, w⟩ := c'
      have hc' := wfFrom_cons.mp hm'
      have hxy : x = y := by
        rcases Nat.lt_trichotomy x y with hlt | heq | hgt
        · have := h x
          rw [read_cons, if_pos rfl, read_cons, if_neg (by omega), read_below (by omega) hc'.2.2.2] at this
          exact absurd this hc.2.2.1
        · exact heq
        · have := h y
          rw [read_cons, if_neg (by omega), read_below (by omega) hc.2.2.2, read_cons, if_pos rfl] at this
          exact absurd this.symm hc'.2.2.1
      subst hxy
      have hvw : v = w := by simpa [read_cons] using h x
      subst hvw
      have : t = t' := ih hc.2.2.2 hc'.2.2.2 fun a => by
        rcases Nat.lt_or_ge a (x + 1) with hlt | hge
        · rw [read_below hlt hc.2.2.2, read_below hlt hc'.2.2.2]
        · simpa [read_cons, show x ≠ a by omega] using h a
      rw [this]

end Sys2Proof.Machine
end

