-- ==== Sys2Proof/Laws/PerInstr.lean ====
section
/-!
SUPPORT. The families of statements made per constructor of `Instr`.
-/
namespace Sys2Proof

theorem disp32Bytes_length (disp : Word) : (disp32Bytes disp).length = 4 := rfl

theorem modAndDisp_length (n : Nat) (base : Gpr) (disp : Word) :
    (modAndDisp n base disp).2.length =
      if disp = 0 ∧ base.val % 8 ≠ 5 then 0 else if (disp8Of n disp).isSome then 1 else 4 := by
  unfold modAndDisp
  split
  · rfl
  · cases disp8Of n disp <;> rfl

theorem AddrForm.segBytes_length (ea : AddrForm) : ea.segBytes.length = ea.segLen := by
  unfold AddrForm.segBytes AddrForm.segLen
  cases ea.seg <;> simp

/-- ModRM, SIB and displacement take the bytes WellFormed counts. RIP-relative has neither base nor index. -/
theorem AddrForm.modRmBytes_length {ea : AddrForm} (h : ea.wellFormed = true) (n : Nat) (reg : BitVec 3) :
    ea.segBytes.length + (ea.modRmBytes n reg).length = 1 + ea.extraLen n := by
  have hr : ea.ripRel = true → ea.base = none := by
    intro hrip
    simp only [AddrForm.wellFormed, hrip, Bool.and_eq_true, Bool.or_eq_true, Option.isNone_iff_eq_none] at h
    exact (by simpa using h.1.1.2 : _ ∧ _).1
  unfold AddrForm.modRmBytes AddrForm.extraLen AddrForm.dispLen
  rw [AddrForm.segBytes_length]
  cases hrip : ea.ripRel with
  | true => simp [hr hrip, disp32Bytes_length, AddrForm.needsSib, hrip]; omega
  | false =>
    cases hb : ea.base with
    | none => simp [disp32Bytes_length, AddrForm.needsSib, hrip, hb]; omega
    | some base =>
      simp only [Bool.false_eq_true, if_false]
      rw [← modAndDisp_length]
      split <;> simp <;> omega

theorem RegMem.bytes_length {o : RegMem} (h : o.wellFormed = true) (reg : BitVec 3) :
    o.segBytes.length + (o.modRmBytes reg).length = 1 + o.extraLen := by
  cases o with
  | reg n => rfl
  | mem ea => exact AddrForm.modRmBytes_length h 1 reg

theorem Src2.bytes_length {o : Src2} (h : o.wellFormed = true) (elemBits vl : Nat) (reg : BitVec 3) :
    o.segBytes.length + (o.modRmBytes elemBits vl reg).length = 1 + o.extraLen elemBits vl := by
  cases o with
  | reg n => rfl
  | mem ea => exact AddrForm.modRmBytes_length h _ reg
  | bcst ea => exact AddrForm.modRmBytes_length h _ reg

theorem encodeLegacy_length {dst : LoReg} {src : RegMem} (h : src.wellFormed = true) :
    (encodeLegacy dst src).length = 5 + (if needsRex dst src then 1 else 0) + src.extraLen := by
  have := RegMem.bytes_length h (low3 dst.val)
  unfold encodeLegacy
  split <;> simp <;> omega

theorem encodeVex_length {l : Bool} {dst src1 : LoReg} {src2 : RegMem} (h : src2.wellFormed = true) :
    (encodeVex l dst src1 src2).length = 5 + src2.extraLen := by
  have := RegMem.bytes_length h (low3 dst.val)
  simp [encodeVex]
  omega

theorem encodeEvex_length {elemBits vl : Nat} {dst src1 : VReg} {mask : Mask} {src2 : Src2}
    (h : src2.wellFormed = true) :
    (encodeEvex elemBits vl dst src1 mask src2).length = 6 + src2.extraLen elemBits vl := by
  have := Src2.bytes_length h elemBits vl (low3 dst.val)
  simp [encodeEvex]
  omega

namespace Laws.EncodeLength

/-- The encoder writes exactly `len` bytes (30_encoding.md R56). -/
def Statement (i : Instr) : Prop := i.wellFormed = true → (encode i).length = i.len

theorem of_operands {i : Instr} (h : i.operandsWellFormed = true → (encodeOperands i).length = i.minLen) :
    Statement i := by
  intro hw
  simp only [Instr.wellFormed, Bool.and_eq_true, decide_eq_true_eq] at hw
  rw [encode, List.length_append, List.length_replicate, h hw.1.1]
  omega

theorem pmulldSse (dst src len) : Statement (.pmulldSse dst src len) :=
  of_operands fun h => encodeLegacy_length h

theorem vpmulldVex128 (dst src1 src2 len) : Statement (.vpmulldVex128 dst src1 src2 len) :=
  of_operands fun h => encodeVex_length h

theorem vpmulldVex256 (dst src1 src2 len) : Statement (.vpmulldVex256 dst src1 src2 len) :=
  of_operands fun h => encodeVex_length h

theorem vpmulldEvex128 (dst src1 mask src2 len) : Statement (.vpmulldEvex128 dst src1 mask src2 len) :=
  of_operands fun h => encodeEvex_length (Bool.and_eq_true_iff.mp h).2

theorem vpmulldEvex256 (dst src1 mask src2 len) : Statement (.vpmulldEvex256 dst src1 mask src2 len) :=
  of_operands fun h => encodeEvex_length (Bool.and_eq_true_iff.mp h).2

theorem vpmulldEvex512 (dst src1 mask src2 len) : Statement (.vpmulldEvex512 dst src1 mask src2 len) :=
  of_operands fun h => encodeEvex_length (Bool.and_eq_true_iff.mp h).2

theorem vpmullqEvex128 (dst src1 mask src2 len) : Statement (.vpmullqEvex128 dst src1 mask src2 len) :=
  of_operands fun h => encodeEvex_length (Bool.and_eq_true_iff.mp h).2

theorem vpmullqEvex256 (dst src1 mask src2 len) : Statement (.vpmullqEvex256 dst src1 mask src2 len) :=
  of_operands fun h => encodeEvex_length (Bool.and_eq_true_iff.mp h).2

theorem vpmullqEvex512 (dst src1 mask src2 len) : Statement (.vpmullqEvex512 dst src1 mask src2 len) :=
  of_operands fun h => encodeEvex_length (Bool.and_eq_true_iff.mp h).2

end Laws.EncodeLength
end Sys2Proof
end

