-- ==== Sys2Proof/Laws/Step.lean ====
section
/-!
SUPPORT. Everything a step can answer, and what placing bytes does.
-/
namespace Sys2Proof.Machine
open Sys2Proof.Safety

/-- A step that completes ran the decoded instruction, in 64-bit mode. -/
theorem step_eq_next {s t : State} : step s = .next t ↔
    Mode64 s ∧ ∃ i, decode s.fetch.1 = .ok i ∧ exec i s = .next t := by
  unfold step Mode64
  by_cases hm : s.mode = .long64
  · rw [if_neg (by simpa using hm)]
    cases hd : decode s.fetch.1 with
    | ok i => simp [hm]
    | ud => simp [raise]
    | reject why => simp
    | truncated => cases hf : s.fetch.2 <;> simp [raise]
  · simp [hm]

/-- A step that raises a fault: the decoded instruction's, an invalid opcode, or the fetch's. -/
theorem step_eq_fault {s : State} {f : Fault} : step s = .fault f ↔
    Mode64 s ∧ ((∃ i, decode s.fetch.1 = .ok i ∧ exec i s = .fault f) ∨ (decode s.fetch.1 = .ud ∧ f = .ud) ∨
      (decode s.fetch.1 = .truncated ∧ s.fetch.2 = some f)) := by
  unfold step Mode64
  by_cases hm : s.mode = .long64
  · rw [if_neg (by simpa using hm)]
    cases hd : decode s.fetch.1 with
    | ok i => simp [hm]
    | ud => simp [raise, hm, eq_comm]
    | reject why => simp
    | truncated => cases hf : s.fetch.2 <;> simp [raise, hm]
  · simp [hm]

/-- In 64-bit mode the fetch starts at `pc` (10_state.md R28: the CS base is 0 there). -/
theorem fetchAddr_of_mode64 {s : State} (h : Mode64 s) : s.fetchAddr = s.rip := by
  rw [State.fetchAddr, show s.mode = .long64 from h]

end Sys2Proof.Machine
end

