-- ==== Sys2Proof/Tests/Slice0.lean ====
section
/-!
SUPPORT. Tests on fixed values, and witnesses that the premises of the obligations can be met. Expected values are the
spec's own: the worked examples of R97 to R105 and the vectors of 95_test_vectors.md (named V, E, X, M, N, P there).
-/
namespace Sys2Proof.Machine

def State.setGpr (s : State) (r : Gpr) (v : Word) : State := { s with gpr := s.gpr.set r.val v r.isLt }

def State.setK (s : State) (r : KReg) (v : BitVec 64) : State := { s with k := s.k.set r.val v r.isLt }

/-- Dwords at rising addresses. -/
def State.setDwords (s : State) (a : Word) (xs : List (BitVec 32)) : State :=
  s.placeBytes a (xs.flatMap fun x => [x.extractLsb' 0 8, x.extractLsb' 8 8, x.extractLsb' 16 8, x.extractLsb' 24 8])

end Sys2Proof.Machine

namespace Sys2Proof.Tests
open Sys2Proof Sys2Proof.Machine Sys2Proof.Safety

-- One theorem at a time: each `decide +kernel` waits for the kernel to have checked all before it, and run side by side the
-- waiting theorems take a thread of 256 MB of stack each.
set_option Elab.async false

/-! ## Helpers -/

/-- The default environment of 95_test_vectors.md section 0, code at 1000h. -/
def env : State := { State.reset with mode := .long64, rip := 0x1000, cr4 := 0x40200, xcr0 := 0xE7 }

/-- A register from its dwords, lowest lane first. -/
def dwords (xs : List (BitVec 32)) : BitVec Config.maxVL :=
  xs.foldr (fun x acc => acc <<< 32 ||| x.setWidth Config.maxVL) 0

/-- A register from its qwords, lowest lane first. -/
def qwords (xs : List (BitVec 64)) : BitVec Config.maxVL :=
  xs.foldr (fun x acc => acc <<< 64 ||| x.setWidth Config.maxVL) 0

/-- Every dword the same. -/
def allDwords (x : BitVec 32) : BitVec Config.maxVL := dwords (List.replicate 16 x)

/-- What `f` reads of the next state, if there is one. -/
def after {α : Type} (o : Outcome) (f : State → α) : Option α :=
  match o with
  | .next t => some (f t)
  | .fault _ => none
  | .refused _ => none

def faultOf : Outcome → Option Fault
  | .next _ => none
  | .fault f => some f
  | .refused _ => none

def refusalOf : Outcome → Option Refusal
  | .next _ => none
  | .fault _ => none
  | .refused r => some r

/-- A base register and a displacement through the default segment. -/
def at_ (b : Gpr) (disp : Word := 0) : AddrForm :=
  { seg := defaultSeg (some b), base := some b, index := none, scale := 0, disp := disp, ripRel := false }

/-! ## WellFormed refuses each ill-formed term -/

theorem test_wf_refuses_index_4 :
    Instr.wellFormed (.pmulldSse 0 (.mem { at_ 0 with index := some 4 }) 6) = false := by decide
theorem test_wf_refuses_scale_without_index :
    Instr.wellFormed (.pmulldSse 0 (.mem { at_ 0 with scale := 1 }) 6) = false := by decide
theorem test_wf_refuses_rip_relative_with_base :
    Instr.wellFormed (.vpmulldVex128 0 0 (.mem { at_ 0 with ripRel := true }) 9) = false := by decide
theorem test_wf_refuses_displacement_of_33_bits :
    Instr.wellFormed (.vpmulldVex256 0 0 (.mem (at_ 0 0x80000000)) 9) = false := by decide
theorem test_wf_refuses_segment_without_override :
    Instr.wellFormed (.vpmulldEvex128 0 0 .noMask (.mem { at_ 0 with seg := .ss }) 6) = false := by decide
theorem test_wf_refuses_ill_formed_broadcast_address :
    Instr.wellFormed (.vpmulldEvex512 0 0 .noMask (.bcst { at_ 5 with seg := .ds }) 7) = false := by decide
theorem test_wf_refuses_writemask_k0 :
    Instr.wellFormed (.vpmulldEvex256 0 0 (.merge 0) (.reg 1) 6) = false ∧
    Instr.wellFormed (.vpmullqEvex128 0 0 (.zero 0) (.reg 1) 6) = false := by decide
theorem test_wf_refuses_length_below_shortest :
    Instr.wellFormed (.vpmullqEvex256 0 0 .noMask (.reg 1) 5) = false ∧
    Instr.wellFormed (.pmulldSse 8 (.reg 1) 5) = false := by decide
theorem test_wf_refuses_length_16 : Instr.wellFormed (.vpmullqEvex512 0 0 .noMask (.reg 1) 16) = false := by decide

/-! ## Decoding of words written out from the encoding -/

/-- R97: 66 0F 38 40, ModRM C1h = 11 000 001. -/
theorem test_decode_pmulldSse : decode [0x66, 0x0F, 0x38, 0x40, 0xC1] = .ok (.pmulldSse 0 (.reg 1) 5) := by decide
/-- R98: C4, VEX1 E2h = 111 00010, VEX2 69h = 0 1101 0 01, ModRM CBh = 11 001 011. -/
theorem test_decode_vpmulldVex128 : decode [0xC4, 0xE2, 0x69, 0x40, 0xCB] = .ok (.vpmulldVex128 1 2 (.reg 3) 5) := by
  decide
/-- R99: VEX2 6Dh = 0 1101 1 01. -/
theorem test_decode_vpmulldVex256 : decode [0xC4, 0xE2, 0x6D, 0x40, 0xCB] = .ok (.vpmulldVex256 1 2 (.reg 3) 5) := by
  decide
/-- R100: P0 F2h = 1111 00 10, P1 6Dh = 0 1101 1 01, P2 09h = 0 00 0 1 001. -/
theorem test_decode_vpmulldEvex128 :
    decode [0x62, 0xF2, 0x6D, 0x09, 0x40, 0xCB] = .ok (.vpmulldEvex128 1 2 (.merge 1) (.reg 3) 6) := by decide
/-- R101: P0 02h = 0000 00 10, P1 0Dh = 0 0001 1 01, P2 A7h = 1 01 0 0 111, ModRM EFh = 11 101 111. -/
theorem test_decode_vpmulldEvex256 :
    decode [0x62, 0x02, 0x0D, 0xA7, 0x40, 0xEF] = .ok (.vpmulldEvex256 29 30 (.zero 7) (.reg 31) 6) := by decide
/-- R102: P2 58h = 0 10 1 1 000, ModRM 08h = 00 001 000. -/
theorem test_decode_vpmulldEvex512 :
    decode [0x62, 0xF2, 0x6D, 0x58, 0x40, 0x08] = .ok (.vpmulldEvex512 1 2 .noMask (.bcst (at_ 0)) 6) := by decide
/-- R103: P1 EDh = 1 1101 1 01. -/
theorem test_decode_vpmullqEvex128 :
    decode [0x62, 0xF2, 0xED, 0x08, 0x40, 0xCB] = .ok (.vpmullqEvex128 1 2 .noMask (.reg 3) 6) := by decide
/-- R104: P2 2Ah = 0 01 0 1 010. -/
theorem test_decode_vpmullqEvex256 :
    decode [0x62, 0xF2, 0xED, 0x2A, 0x40, 0xCB] = .ok (.vpmullqEvex256 1 2 (.merge 2) (.reg 3) 6) := by decide
/-- R105: P2 DBh = 1 10 1 1 011. -/
theorem test_decode_vpmullqEvex512 :
    decode [0x62, 0xF2, 0xED, 0xDB, 0x40, 0x08] = .ok (.vpmullqEvex512 1 2 (.zero 3) (.bcst (at_ 0)) 6) := by decide

/-- E3, E4, E5, E6, E7: legacy addressing forms. -/
theorem test_decode_legacy_addresses :
    decode [0x66, 0x0F, 0x38, 0x40, 0x5C, 0x8B, 0x10] =
      .ok (.pmulldSse 3 (.mem { at_ 3 0x10 with index := some 1, scale := 2 }) 7) ∧
    decode [0x66, 0x44, 0x0F, 0x38, 0x40, 0x3D, 0x78, 0x56, 0x34, 0x12] =
      .ok (.pmulldSse 15 (.mem { at_ 0 0x12345678 with base := none, ripRel := true }) 10) ∧
    decode [0x66, 0x41, 0x0F, 0x38, 0x40, 0x45, 0x00] = .ok (.pmulldSse 0 (.mem (at_ 13)) 7) ∧
    decode [0x66, 0x41, 0x0F, 0x38, 0x40, 0x04, 0x24] = .ok (.pmulldSse 0 (.mem (at_ 12)) 7) ∧
    decode [0x66, 0x0F, 0x38, 0x40, 0x45, 0x00] = .ok (.pmulldSse 0 (.mem { at_ 5 with seg := .ss }) 6) := by decide

/-- V9, E10: VEX addressing forms. -/
theorem test_decode_vex_addresses :
    decode [0xC4, 0x62, 0x0D, 0x40, 0x0F] = .ok (.vpmulldVex256 9 14 (.mem (at_ 7)) 5) ∧
    decode [0xC4, 0xE2, 0x6D, 0x40, 0x0C, 0xCD, 0, 0, 0, 0] =
      .ok (.vpmulldVex256 1 2 (.mem { at_ 0 with base := none, index := some 1, scale := 3 }) 10) := by decide

/-- E17, E18, E19, E20, E23: scaled and unscaled displacements. -/
theorem test_decode_evex_displacements :
    decode [0x62, 0xE2, 0x5D, 0x00, 0x40, 0x6A, 0x80] = .ok (.vpmulldEvex128 21 20 .noMask (.mem (at_ 2 (-0x800))) 7) ∧
    decode [0x62, 0xE2, 0x5D, 0x00, 0x40, 0xAA, 0xF0, 0xF7, 0xFF, 0xFF] =
      .ok (.vpmulldEvex128 21 20 .noMask (.mem (at_ 2 (-0x810))) 10) ∧
    decode [0x62, 0xF2, 0x85, 0x50, 0x40, 0x42, 0x80] = .ok (.vpmullqEvex512 0 31 .noMask (.bcst (at_ 2 (-0x400))) 7) ∧
    decode [0x62, 0xF2, 0xF5, 0x48, 0x40, 0x15, 0x00, 0x10, 0x00, 0x00] =
      .ok (.vpmullqEvex512 2 1 .noMask (.mem { at_ 0 0x1000 with base := none, ripRel := true }) 10) ∧
    decode [0x65, 0x62, 0xF2, 0x6D, 0x4D, 0x40, 0x48, 0x04] =
      .ok (.vpmulldEvex512 1 2 (.merge 5) (.mem { at_ 0 0x100 with seg := .gs }) 8) := by decide

/-- X1 to X12: invalid opcodes. -/
theorem test_decode_invalid_opcodes :
    decode [0x62, 0xF2, 0x6D, 0x18, 0x40, 0xCB] = .ud ∧ decode [0x62, 0xF2, 0x6D, 0x88, 0x40, 0xCB] = .ud ∧
    decode [0x62, 0xF2, 0x6D, 0x68, 0x40, 0xCB] = .ud ∧ decode [0x62, 0xF6, 0x6D, 0x48, 0x40, 0xCB] = .ud ∧
    decode [0x62, 0xFA, 0x6D, 0x48, 0x40, 0xCB] = .ud ∧ decode [0x62, 0xF2, 0x69, 0x48, 0x40, 0xCB] = .ud ∧
    decode [0xF0, 0x66, 0x0F, 0x38, 0x40, 0xC1] = .ud ∧ decode [0xF0, 0xC4, 0xE2, 0x69, 0x40, 0xCB] = .ud ∧
    decode [0x66, 0xC4, 0xE2, 0x69, 0x40, 0xCB] = .ud ∧ decode [0x48, 0xC4, 0xE2, 0x69, 0x40, 0xCB] = .ud ∧
    decode [0xF3, 0x62, 0xF2, 0x6D, 0x48, 0x40, 0xCB] = .ud ∧
    decode [0xF2, 0x62, 0xF2, 0x6D, 0x48, 0x40, 0xCB] = .ud := by decide

/-- X13 to X23: refused, or run with a redundant prefix. -/
theorem test_decode_neighbours :
    decode [0x0F, 0x38, 0x40, 0xC1] = .reject .noOperandSizePrefix ∧
    decode [0xF3, 0x66, 0x0F, 0x38, 0x40, 0xC1] = .reject .repeatPrefix ∧
    decode [0x67, 0x66, 0x0F, 0x38, 0x40, 0x10] = .reject .addressSizePrefix ∧
    decode [0xC5, 0xE9, 0x40, 0xCB] = .reject .notThisFamily ∧
    decode [0xC4, 0xE1, 0x69, 0x40, 0xCB] = .reject .notThisFamily ∧
    decode [0x62, 0xF2, 0x6C, 0x48, 0x40, 0xCB] = .reject .notThisFamily ∧
    decode [0x3E, 0x66, 0x0F, 0x38, 0x40, 0xC1] = .ok (.pmulldSse 0 (.reg 1) 6) ∧
    decode (List.replicate 9 0x2E ++ [0x66, 0x0F, 0x38, 0x40, 0x04, 0x25, 0, 0, 0, 0]) = .reject .tooLong := by decide

/-- The nine rows of spec/opcode_table.json, their match bytes in the numbering of the table. -/
theorem test_table_rows :
    decodeTableWord 24 0x40380F = some (.pmulldSse 0 (.mem (at_ 0)) 5) ∧
    decodeTableWord 32 0x400102C4 = some (.vpmulldVex128 8 15 (.mem (at_ 8)) 5) ∧
    decodeTableWord 32 0x400502C4 = some (.vpmulldVex256 8 15 (.mem (at_ 8)) 5) ∧
    decodeTableWord 40 0x4000050262 = some (.vpmulldEvex128 24 31 .noMask (.mem (at_ 8)) 6) ∧
    decodeTableWord 40 0x4020050262 = some (.vpmulldEvex256 24 31 .noMask (.mem (at_ 8)) 6) ∧
    decodeTableWord 40 0x4040050262 = some (.vpmulldEvex512 24 31 .noMask (.mem (at_ 8)) 6) ∧
    decodeTableWord 40 0x4000850262 = some (.vpmullqEvex128 24 31 .noMask (.mem (at_ 8)) 6) ∧
    decodeTableWord 40 0x4020850262 = some (.vpmullqEvex256 24 31 .noMask (.mem (at_ 8)) 6) ∧
    decodeTableWord 40 0x4040850262 = some (.vpmullqEvex512 24 31 .noMask (.mem (at_ 8)) 6) := by decide

/-- A row word placed where the first step after reset fetches: fetched, and `#UD` as R130 says. -/
theorem test_row_word_is_fetched_at_reset :
    decode (State.reset.withFetchWord 40 0x4040850262).fetch.1 =
      .ok (.vpmullqEvex512 24 31 .noMask (.mem (at_ 8)) 6) ∧
    faultOf (step (State.reset.withFetchWord 40 0x4040850262)) = some .ud := by decide

/-! ## One step of each instruction -/

/-- V1. -/
theorem test_pmulldSse_register :
    after (exec (.pmulldSse 0 (.reg 1) 5) ((env.writeZmm 0 (dwords [2, 0xFFFFFFFF, 0x80000000, 0x10000, 9, 8])).writeZmm 1
      (dwords [3, 5, 0xFFFFFFFF, 0x10000, 7]))) (fun t => (t.readZmm 0, t.rip)) =
    some (dwords [6, 0xFFFFFFFB, 0x80000000, 0, 9, 8], 0x1005) := by decide +kernel

/-- V2. -/
theorem test_pmulldSse_memory :
    after (exec (.pmulldSse 2 (.mem (at_ 0)) 5) ((env.setGpr 0 0x7010).setDwords 0x7010 [1, 2, 3, 4] |>.writeZmm 2
      (allDwords 2))) (fun t => t.readZmm 2) = some (dwords ([2, 4, 6, 8] ++ List.replicate 12 2)) := by decide +kernel

/-- V5. -/
theorem test_vpmulldVex128_register :
    after (exec (.vpmulldVex128 1 2 (.reg 3) 5) ((env.writeZmm 2 (dwords [0xFFFFFFFE, 3, 0x12345678, 0x7FFFFFFF])
      |>.writeZmm 3 (dwords [0x80000001, 0x55555556, 0x9ABCDEF0, 0x7FFFFFFF])).writeZmm 1 (allDwords 0xFFFFFFFF)))
      (fun t => (t.readZmm 1, t.rip)) = some (dwords [0xFFFFFFFE, 2, 0x242D2080, 1], 0x1005) := by decide +kernel

/-- V7. -/
theorem test_vpmulldVex128_in_place :
    after (exec (.vpmulldVex128 0 0 (.reg 0) 5) (env.writeZmm 0
      (dwords ([0xF, 0xE, 0x10000, 0xFFFFFFFE] ++ List.replicate 12 0x99999999)))) (fun t => t.readZmm 0) =
    some (dwords [0xE1, 0xC4, 0, 4]) := by decide +kernel

/-- V9. -/
theorem test_vpmulldVex256_misaligned_memory :
    after (exec (.vpmulldVex256 9 14 (.mem (at_ 7)) 5) ((env.setGpr 7 0x5001).setDwords 0x5001
      [0xFFFFFFFF, 2, 0x80000000, 0x10000, 3, 0x7FFFFFFF, 0, 0xFFFFFFFE] |>.writeZmm 14
      (dwords [0x80000000, 0x7FFFFFFF, 3, 0x10000, 0x55555556, 0x7FFFFFFF, 0x12345678, 0xFFFFFFFF]) |>.writeZmm 9
      (allDwords 0xFFFFFFFF))) (fun t => t.readZmm 9) =
    some (dwords [0x80000000, 0xFFFFFFFE, 0x80000000, 0, 2, 1, 0, 2]) := by decide +kernel

/-- V10. -/
theorem test_vpmulldEvex128_merging :
    after (exec (.vpmulldEvex128 1 2 (.merge 1) (.reg 3) 6) ((env.setK 1 5).writeZmm 2 (dwords [1, 2, 3, 4]) |>.writeZmm 3
      (dwords [0xA, 0x14, 0x1E, 0x28]) |>.writeZmm 1 (allDwords 0xAAAAAAAA))) (fun t => t.readZmm 1) =
    some (dwords [0xA, 0xAAAAAAAA, 0x5A, 0xAAAAAAAA]) := by decide +kernel

/-- V14. -/
theorem test_vpmulldEvex128_broadcast :
    after (exec (.vpmulldEvex128 1 2 .noMask (.bcst (at_ 0 4)) 7) ((env.setGpr 0 0x6000).setDwords 0x6004 [7] |>.writeZmm 2
      (dwords [1, 0xFFFFFFFF, 0x20000000, 0x12345678]) |>.writeZmm 1 (allDwords 0xFFFFFFFF))) (fun t => t.readZmm 1) =
    some (dwords [7, 0xFFFFFFF9, 0xE0000000, 0x7F6E5D48]) := by decide +kernel

/-- V15. -/
theorem test_vpmulldEvex256_zeroing :
    after (exec (.vpmulldEvex256 29 30 (.zero 7) (.reg 31) 6) ((env.setK 7 0xF0).writeZmm 30
      (dwords [0x10000, 0x10001, 0x10002, 0x10003, 0x10004, 0x10005, 0x10006, 0x10007]) |>.writeZmm 31
      (allDwords 0x10000) |>.writeZmm 29 (allDwords 0xFFFFFFFF))) (fun t => t.readZmm 29) =
    some (dwords [0, 0, 0, 0, 0x40000, 0x50000, 0x60000, 0x70000]) := by decide +kernel

/-- V19 (a). -/
theorem test_vpmulldEvex512_merging :
    after (exec (.vpmulldEvex512 1 2 (.merge 1) (.reg 3) 6) ((env.setK 1 0xF0).writeZmm 2 (allDwords 2) |>.writeZmm 3
      (allDwords 3) |>.writeZmm 1 (allDwords 7))) (fun t => t.readZmm 1) =
    some (dwords ([7, 7, 7, 7, 6, 6, 6, 6] ++ List.replicate 8 7)) := by decide +kernel

/-- E22, executed: an FS override. -/
theorem test_vpmulldEvex512_fs_memory :
    after (exec (.vpmulldEvex512 1 2 .noMask (.mem { at_ 0 with seg := .fs }) 7) ({ env.setGpr 0 0x100 with fsBase := 0x7000 }
      |>.setDwords 0x7100 (List.replicate 16 9) |>.writeZmm 2 (allDwords 2))) (fun t => t.readZmm 1) =
    some (allDwords 0x12) := by decide +kernel

/-- V16 (b). -/
theorem test_vpmullqEvex128_register :
    after (exec (.vpmullqEvex128 1 2 .noMask (.reg 3) 6) (env.writeZmm 2 (qwords [0x100000001, 0xFFFFFFFFFFFFFFFF])
      |>.writeZmm 3 (qwords [0x200000003, 2]) |>.writeZmm 1 (allDwords 0xFFFFFFFF))) (fun t => (t.readZmm 1, t.rip)) =
    some (qwords [0x500000003, 0xFFFFFFFFFFFFFFFE], 0x1006) := by decide +kernel

/-- V22. -/
theorem test_vpmullqEvex256_merging :
    after (exec (.vpmullqEvex256 1 2 (.merge 2) (.reg 3) 6) ((env.setK 2 10).writeZmm 2
      (qwords [3, 0x123456789ABCDEF0, 0x100000000, 0xFFFFFFFFFFFFFFFF]) |>.writeZmm 3
      (qwords [0x5555555555555556, 0x0FEDCBA987654321, 0x100000000, 5]) |>.writeZmm 1
      (qwords [0x1111111111111111, 0x2222222222222222, 0x3333333333333333, 0x4444444444444444, 0x5555555555555555])))
      (fun t => t.readZmm 1) =
    some (qwords [0x1111111111111111, 0x2236D88FE5618CF0, 0x3333333333333333, 0xFFFFFFFFFFFFFFFB]) := by decide +kernel

/-- V25. -/
theorem test_vpmullqEvex512_broadcast_zeroing :
    after (exec (.vpmullqEvex512 1 2 (.zero 3) (.bcst (at_ 0)) 6) ((env.setGpr 0 0x6000).setK 3 0x3C
      |>.setDwords 0x6000 [0x540BE400, 2] |>.writeZmm 2 (qwords [0, 1, 2, 3, 4, 5, 6, 7]))) (fun t => t.readZmm 1) =
    some (qwords [0, 0, 0x4A817C800, 0x6FC23AC00, 0x9502F9000, 0xBA43B7400]) := by decide +kernel

/-- V27: no enabled lane, no read; without fault suppression the first byte faults. -/
theorem test_vpmullqEvex512_fault_suppression :
    after (exec (.vpmullqEvex512 1 2 (.zero 3) (.bcst (at_ 0)) 6)
      { env.setK 3 0xFF00 with inaccessible := [⟨0, 0xFFFFFFFFFFFFFFFF⟩] }) (fun t => t.readZmm 1) = some 0 ∧
    (faultOf (exec (.vpmullqEvex512 1 2 (.zero 3) (.bcst (at_ 0)) 6)
      { env.setK 3 0xFF00 with inaccessible := [⟨0, 0xFFFFFFFFFFFFFFFF⟩], faultSuppression := false })).map Fault.vector =
      some 14 := by decide +kernel

/-! ## Witnesses: the premises of the obligations can be met

The states are `env` with a few fields set; the operand is a register, a memory operand at the edge of what a premise
allows, or a broadcast element. -/

/-- The bytes a form reads, as a list. -/
def bytesOf (i : Instr) (s : State) : List Word :=
  match i.secondSource with
  | .reg _ => []
  | .mem ea => s.operandBytes i.elemBits i.vecLen (s.maskValue i.writemask) (s.linearAddr i.len ea) false
  | .bcst ea => s.operandBytes i.elemBits i.vecLen (s.maskValue i.writemask) (s.linearAddr i.len ea) true

/-- The address of the operand's first byte. -/
def startOf (i : Instr) (s : State) : Word :=
  match i.secondSource with
  | .reg _ => 0
  | .mem ea => s.linearAddr i.len ea
  | .bcst ea => s.linearAddr i.len ea

theorem mem_bytesOf {i : Instr} {s : State} {b : Word} : b ∈ bytesOf i s ↔ ReadsByte i s b := by
  unfold bytesOf
  cases h : i.secondSource with
  | reg n => simp [ReadsByte, h]
  | mem ea => exact mem_operandBytes.1 h
  | bcst ea => exact mem_operandBytes.2 h

theorem ready_of {i : Instr} {s : State} (h : (udOf i s, s.mode, s.cr0TS) = (false, .long64, false))
    (hb : memFaultOf i s = none) : Ready i s := by
  simp only [Prod.mk.injEq] at h
  exact ⟨h.2.1, ⟨udOf_eq_false.mp h.1, h.2.2⟩, memFaultOf_eq_none.mp hb⟩

theorem enabled_of {i : Instr} {s : State} (h : (udOf i s, s.mode, s.cr0TS) = (false, .long64, false)) :
    Mode64 s ∧ Enabled i s := by
  simp only [Prod.mk.injEq] at h
  exact ⟨h.2.1, udOf_eq_false.mp h.1, h.2.2⟩

theorem completes_of {i : Instr} {s : State} (h : (udOf i s, s.mode, s.cr0TS) = (false, .long64, false))
    (hb : memFaultOf i s = none) : ∃ t, exec i s = .next t :=
  ⟨_, exec_eq_next_iff_ready.mpr ⟨ready_of h hb, rfl⟩⟩

theorem not_throughSs {i : Instr} {ea : AddrForm} (h : i.secondSource = .mem ea) (hs : ea.seg ≠ .ss) : ¬ ThroughSs i := by
  simp [ThroughSs, h, hs]

theorem readsNonCanonical_iff {i : Instr} {s : State} :
    ReadsNonCanonical i s ↔ (bytesOf i s).any (fun b => !s.canonicalFrom (startOf i s) b) = true := by
  cases h : i.secondSource with
  | reg n => simp [ReadsNonCanonical, ReadsByte, bytesOf, h]
  | mem ea => simp [ReadsNonCanonical, mem_bytesOf, startOf, h, canonicalFrom_eq_false (.inl h)]
  | bcst ea => simp [ReadsNonCanonical, mem_bytesOf, startOf, h, canonicalFrom_eq_false (.inr h)]

theorem pfApplies_iff {i : Instr} {s : State} :
    PfApplies i s ↔ (bytesOf i s).any (fun b => !s.accessible b) = true := by
  simp [PfApplies, mem_bytesOf]

/-- RAX at the last 16-byte block of low canonical addresses: the highest address a 16-byte operand may start at. -/
def topEnv : State := env.setGpr 0 0x00007FFFFFFFFFF0

/-- RAX one byte further: the operand's last byte is not canonical. -/
def pastEnv : State := env.setGpr 0 0x00007FFFFFFFFFF1

/-- Every form is ready with a register source. -/
theorem witness_ready_register :
    Ready (.pmulldSse 0 (.reg 15) 6) env ∧ Ready (.vpmulldVex128 1 2 (.reg 3) 5) env ∧
    Ready (.vpmulldVex256 1 2 (.reg 3) 5) env ∧ Ready (.vpmulldEvex128 31 2 (.merge 1) (.reg 3) 6) env ∧
    Ready (.vpmulldEvex256 1 2 (.zero 7) (.reg 3) 6) env ∧ Ready (.vpmulldEvex512 1 2 .noMask (.reg 3) 6) env ∧
    Ready (.vpmullqEvex128 1 2 (.merge 1) (.reg 3) 6) env ∧ Ready (.vpmullqEvex256 1 2 (.zero 1) (.reg 3) 6) env ∧
    Ready (.vpmullqEvex512 1 2 .noMask (.reg 31) 6) env := by
  refine ⟨ready_of ?_ ?_, ready_of ?_ ?_, ready_of ?_ ?_, ready_of ?_ ?_, ready_of ?_ ?_, ready_of ?_ ?_, ready_of ?_ ?_,
    ready_of ?_ ?_, ready_of ?_ ?_⟩ <;> decide +kernel

/-- Every form is ready with a memory source, at the top of the low canonical addresses or misaligned where that is
allowed, and with a broadcast source where the form has one. -/
theorem witness_ready_memory :
    Ready (.pmulldSse 0 (.mem (at_ 0)) 5) topEnv ∧ Ready (.vpmulldVex128 1 2 (.mem (at_ 0)) 5) topEnv ∧
    Ready (.vpmulldVex256 1 2 (.mem (at_ 0 (-17))) 9) topEnv ∧
    Ready (.vpmulldEvex128 1 2 (.merge 1) (.mem (at_ 0)) 6) topEnv ∧
    Ready (.vpmulldEvex256 1 2 (.zero 7) (.bcst (at_ 0 12)) 7) topEnv ∧
    Ready (.vpmulldEvex512 1 2 .noMask (.bcst (at_ 0 12)) 7) topEnv ∧
    Ready (.vpmullqEvex128 1 2 (.merge 1) (.mem (at_ 0)) 6) topEnv ∧
    Ready (.vpmullqEvex256 1 2 (.zero 1) (.bcst (at_ 0 8)) 7) topEnv ∧
    Ready (.vpmullqEvex512 1 2 .noMask (.mem (at_ 0 (-48))) 10) topEnv := by
  refine ⟨ready_of ?_ ?_, ready_of ?_ ?_, ready_of ?_ ?_, ready_of ?_ ?_, ready_of ?_ ?_, ready_of ?_ ?_, ready_of ?_ ?_,
    ready_of ?_ ?_, ready_of ?_ ?_⟩ <;> decide +kernel

/-- DecodeEncodeAgree, EncodedInstructionRuns: well-formed instructions at both ends of the lengths and displacements. -/
theorem witness_wellFormed :
    Instr.wellFormed (.pmulldSse 15 (.mem { at_ 13 0x7FFFFFFF with index := some 12, scale := 3 }) 15) = true ∧
    Instr.wellFormed (.vpmulldVex128 0 15 (.reg 15) 5) = true ∧
    Instr.wellFormed (.vpmulldVex256 15 0 (.mem (at_ 4 (-0x80000000))) 15) = true ∧
    Instr.wellFormed (.vpmulldEvex128 31 16 (.merge 7) (.mem (at_ 2 0x7F0)) 7) = true ∧
    Instr.wellFormed (.vpmulldEvex256 0 31 (.zero 1) (.bcst (at_ 2 (-0x200))) 7) = true ∧
    Instr.wellFormed (.vpmulldEvex512 31 31 .noMask (.reg 31) 6) = true ∧
    Instr.wellFormed (.vpmullqEvex128 31 0 .noMask (.mem { at_ 0 0 with base := none, ripRel := true }) 10) = true ∧
    Instr.wellFormed (.vpmullqEvex256 31 0 .noMask (.bcst (at_ 0 0x3F8)) 7) = true ∧
    Instr.wellFormed (.vpmullqEvex512 1 2 (.zero 3) (.mem { at_ 5 with seg := .gs }) 15) = true := by decide

/-- DecodeGivesWellFormed, DecodeReadsOnlyItsBytes, IgnoredSegmentPrefixOnlyLengthens, DecodedRowMatchesItsPattern: a
decoding of 14 bytes with others after it, and its leading bytes. -/
theorem witness_decode :
    decode (List.replicate 9 0x3E ++ [0x66, 0x0F, 0x38, 0x40, 0xC1, 0x90]) = .ok (.pmulldSse 0 (.reg 1) 14) ∧
    AllPrefixes [0x3E, 0x66, 0x67, 0x4F] ∧ ¬ AllPrefixes [0x0F] ∧ ¬ AllPrefixes [0xC4] ∧ ¬ AllPrefixes [0x62] ∧
    decode ([0x3E, 0x66] ++ 0x0F :: [0x38, 0x40, 0xC1]) = .ok (.pmulldSse 0 (.reg 1) 6) := by
  refine ⟨by decide, ?_, ?_, ?_, ?_, by decide⟩ <;> unfold AllPrefixes <;> decide

/-- `env` with the bytes at its `pc`. -/
def codeEnv (bytes : List Byte) : State := env.placeBytes 0x1000 bytes

theorem mode64_codeEnv (bytes : List Byte) : Mode64 (codeEnv bytes) := by
  have : ∀ (bs : List Byte) (s : State) (a : Word), (s.placeBytes a bs).mode = s.mode := by
    intro bs
    induction bs with
    | nil => intro s a; rfl
    | cons b bs ih => intro s a; exact ih _ _
  exact this bytes env 0x1000

/-- ForbiddenPrefixRaisesUd: LOCK, 66h, F2h, F3h and REX before VEX or EVEX, LOCK with the legacy form. -/
theorem witness_forbidden_prefix :
    (∀ b ∈ ([0xF0, 0x66, 0xF2, 0xF3, 0x40] : List Byte),
      (codeEnv [b, 0x3E, 0xC4, 0xE2, 0x69, 0x40, 0xCB]).fetch.1 =
        [b, 0x3E] ++ 0xC4 :: [0xE2, 0x69, 0x40, 0xCB, 0, 0, 0, 0, 0, 0, 0, 0] ∧
      decode (codeEnv [b, 0x3E, 0xC4, 0xE2, 0x69, 0x40, 0xCB]).fetch.1 = .ud) ∧
    (codeEnv [0x66, 0xF0, 0x0F, 0x38, 0x40, 0xC1]).fetch.1 =
      [0x66, 0xF0] ++ 0x0F :: 0x38 :: 0x40 :: [0xC1, 0, 0, 0, 0, 0, 0, 0, 0, 0] ∧
    decode (codeEnv [0x66, 0xF0, 0x0F, 0x38, 0x40, 0xC1]).fetch.1 = .ud := by decide +kernel

/-- The premises of EvexFieldConditionRaisesUd for the bytes 64 62 `p0 p1 p2` 40 CB, ModRM CBh naming a register. -/
def evexFieldPremises (p0 p1 p2 : Byte) : Bool :=
  (codeEnv [0x64, 0x62, p0, p1, p2, 0x40, 0xCB]).fetch.1 ==
      [0x64] ++ 0x62 :: p0 :: p1 :: p2 :: 0x40 :: 0xCB :: [0, 0, 0, 0, 0, 0, 0, 0] &&
    p0.extractLsb' 0 2 == 2 && p1.extractLsb' 0 2 == 1 &&
    decode (codeEnv [0x64, 0x62, p0, p1, p2, 0x40, 0xCB]).fetch.1 == .ud

/-- EvexFieldConditionRaisesUd: each field condition alone (X1 to X6), after a segment prefix. -/
theorem witness_evex_fields :
    evexFieldPremises 0xF6 0x6D 0x48 = true ∧ evexFieldPremises 0xFA 0x6D 0x48 = true ∧
    evexFieldPremises 0xF2 0x69 0x48 = true ∧ evexFieldPremises 0xF2 0x6D 0x68 = true ∧
    evexFieldPremises 0xF2 0x6D 0x88 = true ∧ evexFieldPremises 0xF2 0x6D 0x18 = true := by decide +kernel

/-- NeighbourEncodingsRefused: for each clause, prefixes with just room for the opcode and one more; 67h between a segment
prefix and 66h of an instruction that has 14 bytes without it. -/
theorem witness_neighbours :
    (AllPrefixes (List.replicate 12 0xF3) ∧ 0x66 ∉ List.replicate 12 (0xF3 : Byte)) ∧
    (AllPrefixes (0x66 :: List.replicate 12 0xF2) ∧ 0x66 ∈ 0x66 :: List.replicate 12 (0xF2 : Byte) ∧
      0xF2 ∈ 0x66 :: List.replicate 12 (0xF2 : Byte)) ∧
    (AllPrefixes (List.replicate 14 0x66) ∧ AllPrefixes (List.replicate 15 0x66)) ∧
    (AllPrefixes (List.replicate 11 0x67) ∧ NoVexForbiddenPrefix (List.replicate 11 0x67) ∧
      (0xE1 : Byte).extractLsb' 0 5 ≠ 2 ∧ (0x68 : Byte).extractLsb' 0 2 ≠ 1) ∧
    (AllPrefixes (List.replicate 10 0x3E) ∧ NoVexForbiddenPrefix (List.replicate 10 0x3E) ∧
      (0xF1 : Byte).extractLsb' 0 2 ≠ 2) ∧
    (AllPrefixes [0x66, 0x67] ∧ 0x67 ∈ ([0x66, 0x67] : List Byte)) ∧
    (AllPrefixes (List.replicate 9 0x3E) ∧ AllPrefixes [0x66] ∧ ¬ AllPrefixes [0x0F] ∧
      decode (List.replicate 9 0x3E ++ [0x66] ++ 0x0F :: [0x38, 0x40, 0xC1]) = .ok (.pmulldSse 0 (.reg 1) 14)) := by
  unfold AllPrefixes NoVexForbiddenPrefix
  refine ⟨?_, ?_, ?_, ⟨?_, ?_, ?_⟩, ⟨?_, ?_, ?_⟩, ?_, ⟨?_, ?_, ?_, ?_⟩⟩ <;> decide

/-- NeighbourEncodingsRefused: the answers on both sides of the bounds of `witness_neighbours`. -/
theorem test_neighbour_bounds :
    decode (List.replicate 12 0xF3 ++ [0x0F, 0x38, 0x40]) = .reject .noOperandSizePrefix ∧
    decode (0x66 :: List.replicate 12 0xF2 ++ [0x0F, 0x38, 0x40]) = .reject .tooLong ∧
    decode (List.replicate 14 0x66 ++ [0xC5]) = .reject .notThisFamily ∧
    decode (List.replicate 15 0x66 ++ [0xC5]) = .reject .tooLong ∧
    decode (List.replicate 11 0x67 ++ [0xC4, 0xE1, 0x69, 0x40]) = .reject .notThisFamily ∧
    decode (List.replicate 11 0x3E ++ [0x62, 0xF1, 0x6D, 0x48, 0x40]) = .reject .tooLong ∧
    decode (List.replicate 9 0x3E ++ 0x67 :: [0x66] ++ 0x0F :: [0x38, 0x40, 0xC1]) = .reject .addressSizePrefix := by decide

/-- WBitsIgnored, ModRmBaseForms, SibForms: values that meet each clause's condition. -/
theorem witness_field_conditions :
    (0x40 : Byte).extractLsb' 4 4 = 4 ∧ (0x4F : Byte).extractLsb' 4 4 = 4 ∧
    (0 : BitVec 3) ≠ 4 ∧ (7 : BitVec 3) ≠ 5 ∧ (none : Option Gpr) = (if false = false ∧ (4 : BitVec 3) = 4 then none else some 4) ∧
    (some 12 : Option Gpr) = (if true = false ∧ (4 : BitVec 3) = 4 then none else some (regNum true 4)) ∧
    (at_ 3).ripRel = false := by decide

/-- SibForms, last clause: R63 by hand for `[RBX - 8]`, `[RBX + RCX*4 + 16]` and a bare displacement. -/
theorem test_effective_addresses :
    let s := (env.setGpr 3 0x1000).setGpr 1 0x30
    s.effectiveAddr 7 (at_ 3 (-8)) = 0xFF8 ∧
    s.effectiveAddr 7 { at_ 3 16 with index := some 1, scale := 2 } = 0x10D0 ∧
    s.effectiveAddr 7 { at_ 3 0x2000 with base := none } = 0x2000 := by decide +kernel

/-- EvexDisp8Scaled: a scaled disp8 at both ends of its range, with and without broadcast, and a disp32. -/
theorem witness_disp8 :
    decode (0x62 :: 0xE2 :: 0x5D :: 0x00 :: 0x40 :: modRmByte 1 5 2 :: 0x7F :: [0]) =
      .ok (.vpmulldEvex128 21 20 .noMask (.mem (at_ 2 0x7F0)) 7) ∧
    decode (0x62 :: 0xF2 :: 0x85 :: 0x50 :: 0x40 :: modRmByte 1 0 2 :: 0x80 :: [0]) =
      .ok (.vpmullqEvex512 0 31 .noMask (.bcst (at_ 2 (-0x400))) 7) ∧
    decode (0x62 :: 0xE2 :: 0x5D :: 0x20 :: 0x40 :: modRmByte 2 5 2 :: 0xFF :: 0xFF :: 0xFF :: 0x7F :: [0]) =
      .ok (.vpmulldEvex256 21 20 .noMask (.mem (at_ 2 0x7FFFFFFF)) 10) ∧
    AllPrefixes [0x64] ∧
    decode ([0x64] ++ 0x62 :: 0xF2 :: 0x6D :: 0x48 :: 0x40 :: modRmByte 1 1 4 :: [0x24, 0x02] ++ [0]) =
      .ok (.vpmulldEvex512 1 2 .noMask (.mem { at_ 4 0x80 with seg := .fs }) 9) ∧
    decode (0x62 :: 0xF2 :: 0xF5 :: 0x48 :: 0x40 :: modRmByte 0 2 5 :: [0x00, 0x10, 0x00, 0x00] ++ [0]) =
      .ok (.vpmullqEvex512 2 1 .noMask (.mem { at_ 0 0x1000 with base := none, ripRel := true }) 10) ∧
    decode (0x62 :: 0xF2 :: 0x6D :: 0x58 :: 0x40 :: modRmByte 0 1 4 :: [0x25, 0x00, 0x10, 0x00, 0x00] ++ [0]) =
      .ok (.vpmulldEvex512 1 2 .noMask (.bcst { at_ 0 0x1000 with base := none }) 11) := by
  refine ⟨by decide, by decide, by decide, ?_, by decide, by decide, by decide⟩
  unfold AllPrefixes; decide

/-- UpperBitsKeptOrCleared, FrameOfEveryForm, MergingMaskKeepsOldLanes, ZeroingMaskClearsLanes: forms that complete, with
a lane that is not enabled; a zeroing form whose destination is no source. -/
theorem witness_masked_forms_complete :
    (∃ t, exec (.pmulldSse 0 (.mem (at_ 0)) 5) topEnv = .next t) ∧
    (∃ t, exec (.vpmulldEvex128 1 2 (.merge 1) (.reg 3) 6) (env.setK 1 5) = .next t) ∧
    (∃ t, exec (.vpmullqEvex512 1 2 (.zero 3) (.bcst (at_ 0)) 6) (topEnv.setK 3 0x7F) = .next t) ∧
    (((env.setK 1 5).readK 1).getLsbD 1 = false ∧ ((topEnv.setK 3 0x7F).readK 3).getLsbD 7 = false ∧
      (1 : Nat) < Instr.lanes (.vpmulldEvex128 1 2 (.merge 1) (.reg 3) 6) ∧
      (7 : Nat) < Instr.lanes (.vpmullqEvex512 1 2 (.zero 3) (.bcst (at_ 0)) 6)) ∧
    Instr.firstSource (.vpmulldEvex128 1 2 (.zero 1) (.reg 3) 6) ≠ 1 ∧
    Instr.secondSource (.vpmulldEvex128 1 2 (.zero 1) (.reg 3) 6) ≠ .reg 1 := by
  refine ⟨completes_of ?_ ?_, completes_of ?_ ?_, completes_of ?_ ?_, ?_, ?_, ?_⟩ <;> decide +kernel

/-- UpperBitsKeptOrCleared: a full register wider than 512 bits that R5 admits. -/
theorem witness_maxVL : ∃ c : Config.MaxVL, c.bits = 640 := ⟨⟨640, by decide, by decide⟩, rfl⟩

/-- LanesAreIndependent: two states that agree in lane 3 of the sources and differ in lane 0; and under merging-masking,
old destinations that agree in the masked-off lane 3 only. -/
theorem witness_lanes :
    (∃ t, exec (.vpmulldVex128 1 2 (.reg 3) 5) (env.writeZmm 2 (dwords [7, 0, 0, 9])) = .next t) ∧
    (∃ t, exec (.vpmulldVex128 1 2 (.reg 3) 5) (env.writeZmm 2 (dwords [8, 0, 0, 9])) = .next t) ∧
    lane 32 ((env.writeZmm 2 (dwords [7, 0, 0, 9])).readZmm 2) 3 = lane 32 ((env.writeZmm 2 (dwords [8, 0, 0, 9])).readZmm 2) 3 ∧
    lane 32 ((env.writeZmm 2 (dwords [7, 0, 0, 9])).readZmm 2) 0 ≠ lane 32 ((env.writeZmm 2 (dwords [8, 0, 0, 9])).readZmm 2) 0 ∧
    (∃ t, exec (.vpmulldEvex128 1 2 (.merge 1) (.reg 3) 6) ((env.setK 1 5).writeZmm 1 (dwords [7, 0, 0, 9])) = .next t) ∧
    (∃ t, exec (.vpmulldEvex128 1 2 (.merge 1) (.reg 3) 6) ((env.setK 1 5).writeZmm 1 (dwords [8, 1, 1, 9])) = .next t) ∧
    lane 32 (((env.setK 1 5).writeZmm 1 (dwords [7, 0, 0, 9])).readZmm 1) 3 =
      lane 32 (((env.setK 1 5).writeZmm 1 (dwords [8, 1, 1, 9])).readZmm 1) 3 := by
  refine ⟨completes_of ?_ ?_, completes_of ?_ ?_, ?_, ?_, completes_of ?_ ?_, completes_of ?_ ?_, ?_⟩ <;> decide +kernel

/-- VexAndUnmaskedEvexAgree: both forms enabled, the VEX form completes on a memory operand. -/
theorem witness_vex_evex :
    Enabled (.vpmulldEvex128 (LoReg.toVReg 1) (LoReg.toVReg 2) .noMask (RegMem.toSrc2 (.mem (at_ 0))) 6) topEnv ∧
    Enabled (.vpmulldEvex256 (LoReg.toVReg 1) (LoReg.toVReg 2) .noMask (RegMem.toSrc2 (.reg 3)) 6) topEnv ∧
    (∃ t, exec (.vpmulldVex128 1 2 (.mem (at_ 0)) 5) topEnv = .next t) ∧
    (∃ t, exec (.vpmulldVex256 1 2 (.reg 3) 5) topEnv = .next t) := by
  refine ⟨(enabled_of ?_).2, (enabled_of ?_).2, completes_of ?_ ?_, completes_of ?_ ?_⟩ <;> decide +kernel

/-- MissingFeatureFlagRaisesUd, for one form of each class of flags. -/
theorem witness_missing_flag :
    ¬ FlagsPresent (.pmulldSse 0 (.reg 1) 5) { env with cpuid := { env.cpuid with sse41 := false } } ∧
    ¬ FlagsPresent (.vpmulldVex256 0 1 (.reg 1) 5) { env with cpuid := { env.cpuid with avx2 := false } } ∧
    ¬ FlagsPresent (.vpmullqEvex128 0 1 .noMask (.reg 1) 6) { env with cpuid := { env.cpuid with avx512vl := false } } := by
  refine ⟨?_, ?_, ?_⟩ <;> simp [FlagsPresent]

/-- LegacyFormNeedsOsfxsrAndNoEmulation, VexFormsNeedAvxState, EvexFormsNeedAvx512State: each condition alone. -/
theorem witness_os_enables :
    (State.cr0 { env with cr0 := 4 }).getLsbD 2 = true ∧ (State.cr4 { env with cr4 := 0x40000 }).getLsbD 9 = false ∧
    (State.cr4 { env with cr4 := 0x200 }).getLsbD 18 = false ∧
    (State.xcr0 { env with xcr0 := 3 }).extractLsb' 1 2 ≠ 3 ∧ (State.xcr0 { env with xcr0 := 0x67 }).extractLsb' 5 3 ≠ 7 := by
  decide

/-- TaskSwitchedRaisesNm. -/
theorem witness_task_switched :
    Mode64 { env with cr0 := 8 } ∧ NoUd (.pmulldSse 0 (.mem (at_ 0)) 5) { env with cr0 := 8 } ∧
    NoUd (.vpmullqEvex512 0 1 .noMask (.reg 2) 6) { env with cr0 := 8 } ∧
    (State.cr0 { env with cr0 := 8 }).getLsbD 3 = true := by
  refine ⟨rfl, udOf_eq_false.mp ?_, udOf_eq_false.mp ?_, ?_⟩ <;> decide +kernel

/-- GeneralProtectionExactly: a misaligned legacy operand, and a form whose last byte is the first address that is not
canonical; neither of the other faults applies. -/
theorem witness_general_protection :
    (Mode64 (env.setGpr 0 0x7001) ∧ Enabled (.pmulldSse 0 (.mem (at_ 0)) 5) (env.setGpr 0 0x7001) ∧
      GpApplies (.pmulldSse 0 (.mem (at_ 0)) 5) (env.setGpr 0 0x7001) ∧
      ¬ SsApplies (.pmulldSse 0 (.mem (at_ 0)) 5) (env.setGpr 0 0x7001) ∧
      ¬ PfApplies (.pmulldSse 0 (.mem (at_ 0)) 5) (env.setGpr 0 0x7001)) ∧
    (Mode64 pastEnv ∧ Enabled (.vpmulldVex128 1 2 (.mem (at_ 0)) 5) pastEnv ∧
      GpApplies (.vpmulldVex128 1 2 (.mem (at_ 0)) 5) pastEnv ∧
      ¬ SsApplies (.vpmulldVex128 1 2 (.mem (at_ 0)) 5) pastEnv ∧
      ¬ PfApplies (.vpmulldVex128 1 2 (.mem (at_ 0)) 5) pastEnv) := by
  refine ⟨⟨rfl, (enabled_of ?_).2, .inl ⟨rfl, _, rfl, ?_⟩, fun h => ?_, ?_⟩,
    ⟨rfl, (enabled_of ?_).2, .inr ⟨readsNonCanonical_iff.mpr ?_, fun h => ?_⟩, fun h => ?_, ?_⟩⟩
  · decide +kernel
  · unfold Aligned16; decide +kernel
  · exact not_throughSs rfl (by decide) h.2
  · rw [pfApplies_iff]; decide +kernel
  · decide +kernel
  · decide +kernel
  · exact not_throughSs rfl (by decide) h
  · exact not_throughSs rfl (by decide) h.2
  · rw [pfApplies_iff]; decide +kernel

/-- R37: an operand of 16 bytes may end at the last address and not go past it, through DS or SS; elements past it that
are masked off do not count (R46). -/
theorem test_operand_does_not_wrap :
    faultOf (exec (.vpmulldVex128 1 2 (.mem (at_ 0)) 5) (env.setGpr 0 (-16))) = none ∧
    faultOf (exec (.vpmulldVex128 1 2 (.mem (at_ 0)) 5) (env.setGpr 0 (-15))) = some .gp0 ∧
    faultOf (exec (.vpmulldVex128 1 2 (.mem (at_ 4)) 6) (env.setGpr 4 (-15))) = some .ss0 ∧
    faultOf (exec (.vpmulldEvex128 1 2 (.merge 1) (.mem (at_ 0)) 6) ((env.setGpr 0 (-8)).setK 1 3)) = none ∧
    faultOf (exec (.vpmulldEvex128 1 2 (.merge 1) (.mem (at_ 0)) 6) ((env.setGpr 0 (-8)).setK 1 4)) = some .gp0 ∧
    faultOf (exec (.vpmullqEvex512 1 2 .noMask (.bcst (at_ 0)) 6) (env.setGpr 0 (-7))) = some .gp0 := by decide +kernel

/-- LittleEndianReads, first clause: an enabled form whose last byte would stand at address 0. -/
theorem witness_wrapping_operand :
    let s := env.setGpr 0 (-15)
    let i : Instr := .vpmulldVex128 1 2 (.mem (at_ 0)) 5
    Mode64 s ∧ Enabled i s ∧ i.secondSource = .mem (at_ 0) ∧ ReadsByte i s 0 ∧ 0 < s.linearAddr i.len (at_ 0) :=
  ⟨rfl, (enabled_of (by decide +kernel)).2, rfl, mem_bytesOf.mp (by decide +kernel), by decide +kernel⟩

/-- StackFaultExactly: a byte that is not canonical, through SS. -/
theorem witness_stack_fault :
    let s := env.setGpr 4 0x00007FFFFFFFFFF1
    let i : Instr := .vpmulldVex128 1 2 (.mem (at_ 4)) 6
    Mode64 s ∧ Enabled i s ∧ SsApplies i s ∧ ¬ GpApplies i s ∧ ¬ PfApplies i s := by
  refine ⟨rfl, (enabled_of (by decide +kernel)).2, ⟨readsNonCanonical_iff.mpr (by decide +kernel), rfl⟩, ?_, ?_⟩
  · rintro (⟨h, -⟩ | ⟨-, h⟩)
    · cases h
    · exact h rfl
  · rw [pfApplies_iff]; decide +kernel

/-- PageFaultExactly: the last byte of the operand alone is not accessible. -/
theorem witness_page_fault :
    let s := { env.setGpr 0 0x6000 with inaccessible := [⟨0x601F, 0x601F⟩] }
    let i : Instr := .vpmulldVex256 1 2 (.mem (at_ 0)) 5
    Mode64 s ∧ Enabled i s ∧ PfApplies i s ∧ ¬ GpApplies i s ∧ ¬ SsApplies i s := by
  refine ⟨rfl, (enabled_of (by decide +kernel)).2, pfApplies_iff.mpr (by decide +kernel), ?_, ?_⟩
  · rintro (⟨h, -⟩ | ⟨h, -⟩)
    · cases h
    · rw [readsNonCanonical_iff] at h; revert h; decide +kernel
  · rintro ⟨h, -⟩
    rw [readsNonCanonical_iff] at h; revert h; decide +kernel

/-- SomeApplicableMemoryFaultIsRaised: all of alignment, canonicity and admission fail at once. -/
theorem witness_several_faults :
    let s := { env.setGpr 0 0x00007FFFFFFFFFF1 with inaccessible := [⟨0, 0xFFFFFFFFFFFFFFFF⟩] }
    let i : Instr := .pmulldSse 1 (.mem (at_ 0)) 5
    Mode64 s ∧ Enabled i s ∧ GpApplies i s ∧ PfApplies i s :=
  ⟨rfl, (enabled_of (by decide +kernel)).2, .inr ⟨readsNonCanonical_iff.mpr (by decide +kernel), not_throughSs rfl (by decide)⟩,
    pfApplies_iff.mpr (by decide +kernel)⟩

/-- The table of R107. -/
theorem test_exception_records :
    [Fault.ud, .nm, .ss0, .gp0, .pf 5 9].map (fun f => (f.vector, f.errorCode, f.address)) =
      [(6, none, none), (7, none, none), (12, some 0, none), (13, some 0, none), (14, some 5, some 9)] := by decide

/-- PrivilegeLevelHasNoEffect: a page fault. -/
theorem witness_page_fault_outcome :
    ∃ code addr, exec (.vpmulldVex128 1 2 (.mem (at_ 0)) 5)
      { env.setGpr 0 0x6000 with inaccessible := [⟨0x600F, 0x600F⟩] } = .fault (.pf code addr) := ⟨_, _, rfl⟩

/-- PrivilegeLevelHasNoEffect: a next state, a fault and a refusal. -/
theorem witness_outcomes :
    (∃ t, exec (.pmulldSse 0 (.reg 1) 5) env = .next t) ∧ (∃ f, exec (.pmulldSse 0 (.reg 1) 5) State.reset = .fault f) ∧
    refusalOf (exec (.pmulldSse 0 (.reg 1) 5) { env with mode := .compatibility }) = some .unsupportedMode :=
  ⟨completes_of (by decide +kernel) (by decide +kernel), ⟨_, rfl⟩, by decide +kernel⟩

/-- OnlyNamedOpmaskBitsMatter: opmask registers that differ above bit 3 of k1 and in all of k2. -/
theorem witness_opmask :
    let i : Instr := .vpmulldEvex128 1 2 (.merge 1) (.reg 3) 6
    (∀ r, MaskRegister i r → ∀ j, j < i.lanes →
      ((env.setK 1 5).k.get r).getLsbD j = (((env.setK 1 0xFFFFFFFFFFFFFFF5).setK 2 1).k.get r).getLsbD j) ∧
    ∃ t, exec i (env.setK 1 5) = .next t := by
  refine ⟨?_, completes_of (by decide +kernel) (by decide +kernel)⟩
  rintro r (h | h) j hj
  · obtain rfl : (1 : KReg) = r := by injection h
    change j < 4 at hj
    revert j hj; decide +kernel
  · cases h

/-- GeneralRegistersOnlyAddress: general registers that differ in all but base and index. -/
theorem witness_general_registers :
    let i : Instr := .vpmulldVex128 1 2 (.mem { at_ 3 with index := some 1, scale := 2 }) 6
    (∀ r, AddressRegister i r → (env.setGpr 0 1).gpr.get r = (env.setGpr 7 2).gpr.get r) ∧
    ∃ t, exec i (env.setGpr 0 1) = .next t := by
  refine ⟨?_, completes_of (by decide +kernel) (by decide +kernel)⟩
  rintro r (h | h)
  · obtain rfl : (3 : Gpr) = r := by injection h
    decide +kernel
  · obtain rfl : (1 : Gpr) = r := by injection h
    decide +kernel

/-- UnreadMemoryHasNoEffect: a masked-off element with other contents and not accessible. -/
theorem witness_unread_memory :
    let i : Instr := .vpmulldEvex128 1 2 (.zero 1) (.mem (at_ 0)) 6
    let s := (env.setGpr 0 0x6000).setK 1 1
    (∀ b, ReadsByte i s b →
      State.readByte { s with mem := [(0x6004, 9)], inaccessible := [⟨0x6004, 0x600F⟩] } b = s.readByte b ∧
      State.accessible { s with mem := [(0x6004, 9)], inaccessible := [⟨0x6004, 0x600F⟩] } b = s.accessible b) ∧
    ∃ t, exec i s = .next t := by
  refine ⟨?_, completes_of (by decide +kernel) (by decide +kernel)⟩
  have h : (bytesOf (.vpmulldEvex128 1 2 (.zero 1) (.mem (at_ 0)) 6) ((env.setGpr 0 0x6000).setK 1 1)) =
      [0x6000, 0x6001, 0x6002, 0x6003] := by decide +kernel
  intro b hb
  rw [← mem_bytesOf, h] at hb
  fin_cases hb <;> decide +kernel

/-- LittleEndianReads, ElementsOfAMemoryVector: bytes in the ranges the clauses name. -/
theorem witness_reads :
    (3 : Nat) < 4 ∧ (14 : Nat) < (codeEnv [0x66]).fetch.1.length ∧ (15 : Nat) < 512 / 32 ∧ (1 : Nat) < 128 / 64 := by decide +kernel

/-- BroadcastReadsOneElement: the byte right after the element has other contents and is not accessible. -/
theorem witness_broadcast_bytes :
    let i : Instr := .vpmulldEvex512 1 2 .noMask (.bcst (at_ 0)) 6
    let s := env.setGpr 0 0x6000
    i.secondSource = .bcst (at_ 0) ∧
    (∀ k, k < i.elemBits / 8 →
      State.readByte { s with mem := [(0x6004, 9)], inaccessible := [⟨0x6004, 0x6004⟩] }
          (s.linearAddr i.len (at_ 0) + BitVec.ofNat 64 k) = s.readByte (s.linearAddr i.len (at_ 0) + BitVec.ofNat 64 k) ∧
      State.accessible { s with mem := [(0x6004, 9)], inaccessible := [⟨0x6004, 0x6004⟩] }
          (s.linearAddr i.len (at_ 0) + BitVec.ofNat 64 k) = s.accessible (s.linearAddr i.len (at_ 0) + BitVec.ofNat 64 k)) ∧
    ∃ t, exec i s = .next t := by
  refine ⟨rfl, ?_, completes_of (by decide +kernel) (by decide +kernel)⟩
  change ∀ k, k < 4 → _
  decide +kernel

/-- StepRunsDecodedInstruction, EncodedInstructionRuns, StepAdvancesPastInstruction, StepKeepsInvariant,
RunsKeepEnvironment: an instruction at `pc` whose step completes, in a state with the invariant. -/
theorem witness_step :
    let s := codeEnv (encode (.pmulldSse 0 (.reg 1) 5))
    decode s.fetch.1 = .ok (.pmulldSse 0 (.reg 1) 5) ∧ CodeAt s.rip (encode (.pmulldSse 0 (.reg 1) 5)) s ∧
    (∃ t, step s = .next t) ∧ Inv s ∧ SameEnvironment s s := by
  have hd : decode (codeEnv (encode (.pmulldSse 0 (.reg 1) 5))).fetch.1 = .ok (.pmulldSse 0 (.reg 1) 5) := by decide +kernel
  refine ⟨hd, ?_, ?_, ⟨by decide +kernel, ?_⟩, rfl⟩
  · unfold CodeAt; decide +kernel
  · obtain ⟨t, ht⟩ := completes_of (i := .pmulldSse 0 (.reg 1) 5) (s := codeEnv (encode (.pmulldSse 0 (.reg 1) 5)))
      (by decide +kernel) (by decide +kernel)
    exact ⟨t, step_eq_next.mpr ⟨mode64_codeEnv _, _, hd, ht⟩⟩
  · unfold FeaturesWellFormed; decide +kernel

theorem noFaultRecorded_of {k : Nat} {s : State} (h : faultOf (Host.Core.run Sys2Proof.core k s) = none) :
    NoFaultRecorded k s := by
  intro f hf
  rw [hf] at h
  cases h

/-- The premise `NoFaultRecorded` holds of a run of one step that completes, and not of one that raises `#UD`. -/
theorem test_noFaultRecorded :
    NoFaultRecorded 1 (codeEnv (encode (.pmulldSse 0 (.reg 1) 5))) ∧
    ¬ NoFaultRecorded 1 (codeEnv [0xF0, 0xC4, 0xE2, 0x69, 0x40, 0xCB]) :=
  ⟨noFaultRecorded_of (by decide +kernel), fun h => h .ud rfl⟩

/-- FetchFaultsAndRefusedModes: the first address that is not canonical, a byte that is not fetchable, another mode. -/
theorem witness_fetch_faults :
    State.canonical { env with rip := 0x0000800000000000 } 0x0000800000000000 = false ∧
    (State.canonical { env with unfetchable := [⟨0x1000, 0x1000⟩] } 0x1000 = true ∧
      State.fetchable { env with unfetchable := [⟨0x1000, 0x1000⟩] } 0x1000 = false) ∧
    ¬ Mode64 State.reset := by
  refine ⟨by decide +kernel, by decide +kernel, ?_⟩
  unfold Mode64; decide

/-- `env` with `bytes` as the last canonical bytes of the low half, `pc` at the first of them. -/
def edgeEnv (bytes : List Byte) : State :=
  let a := 0x0000800000000000 - BitVec.ofNat 64 bytes.length
  State.placeBytes { env with rip := a } a bytes

/-- FetchFaultsAndRefusedModes, its clauses on later bytes: two bytes of an instruction and then no canonical address, or
none that is fetchable; and a whole instruction before such a byte. -/
theorem witness_later_fetch_faults :
    (CodeAt (edgeEnv [0x66, 0x0F]).rip [0x66, 0x0F] (edgeEnv [0x66, 0x0F]) ∧ decode [0x66, 0x0F] = .truncated ∧
      (edgeEnv [0x66, 0x0F]).canonical ((edgeEnv [0x66, 0x0F]).rip + BitVec.ofNat 64 2) = false ∧
      faultOf (step (edgeEnv [0x66, 0x0F])) = some .gp0) ∧
    (CodeAt 0x1000 [0x66, 0x0F] { codeEnv [0x66, 0x0F] with unfetchable := [⟨0x1002, 0x1002⟩] } ∧
      State.fetchable { codeEnv [0x66, 0x0F] with unfetchable := [⟨0x1002, 0x1002⟩] } 0x1002 = false) ∧
    (CodeAt (edgeEnv (encode (.pmulldSse 0 (.reg 1) 5))).rip (encode (.pmulldSse 0 (.reg 1) 5))
        (edgeEnv (encode (.pmulldSse 0 (.reg 1) 5))) ∧
      decode (encode (.pmulldSse 0 (.reg 1) 5)) = .ok (.pmulldSse 0 (.reg 1) 5) ∧
      after (step (edgeEnv (encode (.pmulldSse 0 (.reg 1) 5)))) (fun t => t.rip) = some 0x0000800000000000) := by
  unfold CodeAt
  refine ⟨⟨?_, ?_, ?_, ?_⟩, ⟨?_, ?_⟩, ⟨?_, ?_, ?_⟩⟩ <;> decide +kernel

/-- `env` with `bytes` as the last bytes of the address space, `pc` at the first of them. -/
def topCode (bytes : List Byte) : State :=
  State.placeBytes { env with rip := -BitVec.ofNat 64 bytes.length } (-BitVec.ofNat 64 bytes.length) bytes

/-- FetchFaultsAndRefusedModes: an instruction that ends at the last address runs, and `pc` becomes 0 (R25); one that would
go on past it raises `#GP(0)`. -/
theorem witness_fetch_does_not_wrap :
    (CodeAt (topCode [0x66, 0x0F]).rip [0x66, 0x0F] (topCode [0x66, 0x0F]) ∧
      (topCode [0x66, 0x0F]).rip.toNat + 2 = 2 ^ 64 ∧ faultOf (step (topCode [0x66, 0x0F])) = some .gp0) ∧
    after (step (topCode (encode (.pmulldSse 0 (.reg 1) 5)))) (fun t => t.rip) = some 0 := by
  unfold CodeAt
  refine ⟨⟨?_, ?_, ?_⟩, ?_⟩ <;> decide +kernel

/-- StraightLineCodeRunsInOrder: two encodings one after the other, both of which complete. -/
theorem witness_straight_line :
    let is : List Instr := [.pmulldSse 0 (.reg 1) 5, .vpmulldVex256 1 2 (.reg 3) 15]
    let s := codeEnv (is.flatMap encode)
    Mode64 s ∧ (∀ i ∈ is, i.wellFormed = true) ∧ CodeAt s.rip (is.flatMap encode) s ∧
    after (execAll is s) (fun t => t.rip) = some 0x1014 := by
  refine ⟨mode64_codeEnv _, by decide, ?_, by decide +kernel⟩
  unfold CodeAt; decide +kernel

/-- R135: the end comes after a completed step, so that a start state is not final. -/
theorem test_start_is_not_final : ¬ FinalAt env.rip 0 env env := fun h => Nat.lt_irrefl 0 h.1

end Sys2Proof.Tests
end

section
/-!
PROOFS. The statements about the opmask registers, the general registers, EFLAGS and MXCSR (10_state.md R21, R23, R26).
Each is one use of `exec_withOtherRegisters`, for what a form reads, and of `eq_complete_of_exec_eq_next`, for what it
writes.
-/
namespace Sys2Proof.Machine
open Sys2Proof.Safety

/-- The `#UD` condition looks at the feature flags, CR0, CR4 and XCR0 only. -/
theorem udOf_congr (i : Instr) {s s' : State} (hf : s.cpuid = s'.cpuid) (h0 : s.cr0 = s'.cr0) (h4 : s.cr4 = s'.cr4)
    (hx : s.xcr0 = s'.xcr0) : udOf i s = udOf i s' := by
  cases i <;>
    simp only [udOf, State.udSse, State.udVex, State.udEvex, State.cr0EM, State.cr4OSFXSR, State.cr4OSXSAVE,
      State.xcr0Avx, State.xcr0Avx512, hf, h0, h4, hx]

/-- Which lanes are enabled depends on the named opmask register alone, and there on the bit of the lane. -/
theorem laneEnabled_congr {i : Instr} {s s' : State} {j : Nat}
    (h : ∀ r, MaskRegister i r → (s.k.get r).getLsbD j = (s'.k.get r).getLsbD j) :
    LaneEnabled i s j ↔ LaneEnabled i s' j := by
  unfold LaneEnabled
  cases hw : i.writemask with
  | noMask => exact Iff.rfl
  | merge r => exact Bool.eq_iff_iff.mp (h r (.inl hw))
  | zero r => exact Bool.eq_iff_iff.mp (h r (.inr hw))

/-- An effective address is computed from `rip` and the registers the address form names. -/
theorem effectiveAddr_congr {s s' : State} (ea : AddrForm) (len : Nat) (hp : s.rip = s'.rip)
    (hg : ∀ r, ea.base = some r ∨ ea.index = some r → s.gpr.get r = s'.gpr.get r) :
    s.effectiveAddr len ea = s'.effectiveAddr len ea := by
  rw [State.effectiveAddr, State.effectiveAddr, State.nextRip, State.nextRip, hp]
  refine congrArg (· + ea.disp) (congrArg₂ (· + ·) (congrArg₂ (· + ·) rfl ?base) ?index)
  case base =>
    cases hb : ea.base with
    | none => rfl
    | some r => exact hg r (.inl hb)
  case index =>
    cases hx : ea.index with
    | none => rfl
    | some r => exact congrArg (fun x : Word => x <<< ea.scale.val) (hg r (.inr hx))

/-- The address of a form's memory operand depends on `rip`, the FS and GS bases and its address registers. -/
theorem linearAddr_congr {i : Instr} {s s' : State} {ea : AddrForm}
    (h2 : i.secondSource = .mem ea ∨ i.secondSource = .bcst ea) (hp : s.rip = s'.rip) (hfs : s.fsBase = s'.fsBase)
    (hgs : s.gsBase = s'.gsBase) (hg : ∀ r, AddressRegister i r → s.gpr.get r = s'.gpr.get r) :
    s.linearAddr i.len ea = s'.linearAddr i.len ea := by
  have hseg : s.segBase ea.seg = s'.segBase ea.seg := by
    cases ea.seg with
    | fs => exact hfs
    | gs => exact hgs
    | ds => rfl
    | ss => rfl
  rw [State.linearAddr, State.linearAddr, hseg,
    effectiveAddr_congr ea i.len hp fun r hr => hg r (by rcases h2 with h2 | h2 <;> simpa only [AddressRegister, h2])]

/-- `s` with other opmask registers, general registers, EFLAGS and MXCSR. -/
def State.withOtherRegisters (s : State) (k : Vector (BitVec Config.kw) Config.nk) (g : Vector Word Config.ngpr)
    (e m : BitVec 32) : State :=
  { s with k := k, gpr := g, eflags := e, mxcsr := m }

/-- Other values of these registers go through a form unseen, as long as they agree with the old ones on the low KL bits
of its writemask and on its address registers (10_state.md R21, R23, R26). -/
theorem exec_withOtherRegisters (i : Instr) (s : State) (k : Vector (BitVec Config.kw) Config.nk)
    (g : Vector Word Config.ngpr) (e m : BitVec 32) (f : State → State)
    (hk : ∀ r, MaskRegister i r → ∀ j, j < i.lanes → (s.k.get r).getLsbD j = (k.get r).getLsbD j)
    (hg : ∀ r, AddressRegister i r → s.gpr.get r = g.get r)
    (hf : ∀ v, (s.withOtherRegisters k g e m).complete i.dst v i.len = f (s.complete i.dst v i.len)) :
    exec i (s.withOtherRegisters k g e m) = mapNext f (exec i s) := by
  have hlane (j : Nat) (hj : j < i.lanes) :
      LaneEnabled i s j ↔ LaneEnabled i (s.withOtherRegisters k g e m) j :=
    laneEnabled_congr fun r hr => hk r hr j hj
  have haddr (ea : AddrForm) (h2 : i.secondSource = .mem ea ∨ i.secondSource = .bcst ea) :
      s.linearAddr i.len ea = (s.withOtherRegisters k g e m).linearAddr i.len ea :=
    linearAddr_congr h2 rfl rfl rfl hg
  have hfault : memFaultOf i s = memFaultOf i (s.withOtherRegisters k g e m) :=
    memFaultOf_congr i _ _ rfl hlane haddr (fun _ _ => ⟨rfl, rfl⟩) (fun _ => rfl) rfl
  have hresult : resultOf i s = resultOf i (s.withOtherRegisters k g e m) :=
    resultOf_congr i _ _ rfl rfl hlane fun _ hj he =>
      src2Elem_congr i s (s.withOtherRegisters k g e m) (fun _ _ => rfl) haddr (fun _ _ => rfl) hj he
  exact exec_eq_mapNext i s _ f (udOf_congr i rfl rfl rfl rfl) rfl rfl hfault.symm hresult.symm hf

/-- The next state of a completed form is the one `complete` gives. -/
theorem eq_complete_of_exec_eq_next {i : Instr} {s t : State} (h : exec i s = .next t) :
    t = s.complete i.dst (resultOf i s) i.len :=
  (exec_eq_next_iff_ready.mp h).2

/-- Settles O45: `exec_withOtherRegisters` asks nothing of EFLAGS and MXCSR. -/
theorem statusRegistersNeitherReadNorWritten : Obligations.StatusRegistersNeitherReadNorWritten := by
  intro i s e m
  refine ⟨exec_withOtherRegisters i s s.k s.gpr e m _ (fun _ _ _ _ => rfl) (fun _ _ => rfl) fun _ => rfl, fun t ht => ?_⟩
  rw [eq_complete_of_exec_eq_next ht]
  exact ⟨complete_eflags .., complete_mxcsr ..⟩

/-- Settles O46: the premise is what `exec_withOtherRegisters` asks of the opmask registers. -/
theorem onlyNamedOpmaskBitsMatter : Obligations.OnlyNamedOpmaskBitsMatter := by
  intro i s k' hk
  refine ⟨exec_withOtherRegisters i s k' s.gpr s.eflags s.mxcsr _ hk (fun _ _ => rfl) fun _ => rfl, fun t ht => ?_⟩
  rw [eq_complete_of_exec_eq_next ht, complete_k]

/-- Settles O47: the premise is what `exec_withOtherRegisters` asks of the general registers. -/
theorem generalRegistersOnlyAddress : Obligations.GeneralRegistersOnlyAddress := by
  intro i s g hg
  refine ⟨exec_withOtherRegisters i s s.k g s.eflags s.mxcsr _ (fun _ _ _ _ => rfl) hg fun _ => rfl, fun t ht => ?_⟩
  rw [eq_complete_of_exec_eq_next ht, complete_gpr]

end Sys2Proof.Machine
end

section
/-!
PROOFS. The statements about memory: byte order and wrapping (20_memory.md R37), the elements of a memory vector (R38),
broadcast (R40). The first two rest on `extractLsb'_memRead`, that a slice of a wide read is the narrower read at its
place; the third on `exec_withOtherMemory`, that a form sees memory only through the bytes it reads.
-/
namespace Sys2Proof.Machine
open Sys2Proof.Safety

/-! ## Slices of a wide read -/

/-- A little-endian read of `n` bytes fits in `8 * n` bits. -/
theorem readLE_lt (s : State) (a : Word) (n : Nat) : s.readLE a n < 2 ^ (8 * n) := by
  induction n generalizing a with
  | zero => exact Nat.one_pos
  | succ n ih =>
    have hbyte := (s.readByte a).isLt
    have hrest := ih (a + 1)
    rw [State.readLE, Nat.mul_succ, Nat.pow_add]
    omega

/-- A read of `m + n` bytes is the read of the first `m`, with the read of the next `n` above it. -/
theorem readLE_add (s : State) (a : Word) (m n : Nat) :
    s.readLE a (m + n) = s.readLE a m + 2 ^ (8 * m) * s.readLE (a + BitVec.ofNat 64 m) n := by
  induction m generalizing a with
  | zero => simp [State.readLE]
  | succ m ih =>
    have hplace : a + 1 + BitVec.ofNat 64 m = a + BitVec.ofNat 64 (m + 1) := by rw [BitVec.ofNat_add]; ac_rfl
    rw [Nat.add_right_comm, State.readLE, State.readLE, ih, hplace, Nat.mul_succ, Nat.pow_add]
    ring

/-- A read of whole bytes loses nothing of the number read. -/
theorem memRead_toNat (s : State) (a : Word) (bits : Nat) : (s.memRead a bits).toNat = s.readLE a (bits / 8) := by
  rw [State.memRead, BitVec.toNat_ofNat]
  exact Nat.mod_eq_of_lt ((readLE_lt s a _).trans_le (Nat.pow_le_pow_right Nat.two_pos (by omega)))

/-- `N` bits from byte `k` on of a wider read are the `N`-bit read at `a + k`. -/
theorem extractLsb'_memRead (s : State) (a : Word) {W N k : Nat} (hN : 8 * (N / 8) = N) (h : k + N / 8 ≤ W / 8) :
    (s.memRead a W).extractLsb' (8 * k) N = s.memRead (a + BitVec.ofNat 64 k) N := by
  obtain ⟨r, hr⟩ := Nat.exists_eq_add_of_le h
  have hlow := readLE_lt s (a + BitVec.ofNat 64 k) (N / 8)
  rw [hN] at hlow
  apply BitVec.eq_of_toNat_eq
  rw [BitVec.extractLsb'_toNat, memRead_toNat, memRead_toNat, hr, Nat.add_assoc, readLE_add, Nat.shiftRight_eq_div_pow,
    Nat.add_mul_div_left _ _ (Nat.two_pow_pos _), Nat.div_eq_of_lt (readLE_lt s a k), Nat.zero_add, readLE_add, hN,
    Nat.add_mul_mod_self_left, Nat.mod_eq_of_lt hlow]

/-- A read of eight bits is the byte. -/
theorem memRead_eight (s : State) (a : Word) : s.memRead a 8 = s.readByte a := by
  apply BitVec.eq_of_toNat_eq
  rw [memRead_toNat]
  simp [State.readLE]

/-- A qword in memory is its two dwords, the one at the higher address in the higher half. -/
theorem memRead_qword (s : State) (a : Word) :
    s.memRead a 64 = (s.memRead (a + 4) 32 ++ s.memRead a 32 : BitVec 64) := by
  have hlow : (s.memRead a 64).extractLsb' 0 32 = s.memRead a 32 := by
    simpa using extractLsb'_memRead s a (W := 64) (N := 32) (k := 0) rfl (by decide)
  have hhigh : (s.memRead a 64).extractLsb' 32 32 = s.memRead (a + 4) 32 :=
    extractLsb'_memRead s a (W := 64) (N := 32) (k := 4) rfl (by decide)
  rw [← hlow, ← hhigh, BitVec.extractLsb'_append_extractLsb'_eq_extractLsb' (by rfl)]
  exact BitVec.extractLsb'_eq_self.symm

/-! ## Memory a form does not read -/

/-- `s` with other memory contents and another accessibility of data bytes. -/
def State.withOtherMemory (s : State) (mem' : Memory) (blocked : List AddrRange) : State :=
  { s with mem := mem', inaccessible := blocked }

/-- Other memory contents and another accessibility go through a form unseen, as long as they agree with the old ones on
the bytes it reads (20_memory.md R39, R40, R46). -/
theorem exec_withOtherMemory (i : Instr) (s : State) (mem' : Memory) (blocked : List AddrRange)
    (h : ∀ b, ReadsByte i s b →
      (s.withOtherMemory mem' blocked).readByte b = s.readByte b ∧
      (s.withOtherMemory mem' blocked).accessible b = s.accessible b) :
    exec i (s.withOtherMemory mem' blocked) = mapNext (·.withOtherMemory mem' blocked) (exec i s) := by
  have hfault : memFaultOf i s = memFaultOf i (s.withOtherMemory mem' blocked) :=
    memFaultOf_congr i _ _ rfl (fun _ _ => Iff.rfl) (fun _ _ => rfl) (fun b hb => ⟨rfl, (h b hb).2.symm⟩)
      (fun _ => rfl) rfl
  have hresult : resultOf i s = resultOf i (s.withOtherMemory mem' blocked) :=
    resultOf_congr i _ _ rfl rfl (fun _ _ => Iff.rfl) fun _ hj he =>
      src2Elem_congr i s (s.withOtherMemory mem' blocked) (fun _ _ => rfl) (fun _ _ => rfl)
        (fun b hb => (h b hb).1.symm) hj he
  exact exec_eq_mapNext i s _ _ (udOf_congr i rfl rfl rfl rfl) rfl rfl hfault.symm hresult.symm fun _ => rfl

/-! ## An operand that cannot be read -/

/-- An enabled form whose operand cannot be read raises a fault. -/
theorem exists_fault_of_not_operandReadable {i : Instr} {s : State} (hm : Mode64 s) (he : Enabled i s)
    (h : ¬ OperandReadable i s) : ∃ f, exec i s = .fault f := by
  cases hf : memFaultOf i s with
  | none => exact absurd (memFaultOf_eq_none.mp hf) h
  | some f => exact ⟨f, by rw [exec_of_enabled hm he, hf]⟩

/-! ## The statements -/

/-- Settles O49: a byte below the operand's first one is no canonical byte of the operand; byte `k` of a read is its
slice of eight bits. -/
theorem littleEndianReads : Obligations.LittleEndianReads := by
  refine ⟨fun i ea s b hm he h2 hb hlt => ?_, fun s a n => ⟨fun k hk => ?_, fun k hk => ?_⟩⟩
  · refine exists_fault_of_not_operandReadable hm he fun ⟨_, hread⟩ => ?_
    have hcanonical := (canonicalFrom_eq_true h2 b).mpr (hread b hb).1
    rw [State.canonicalFrom, Bool.and_eq_true, decide_eq_true_eq] at hcanonical
    exact BitVec.not_le.mpr hlt hcanonical.1
  · rw [extractLsb'_memRead s a rfl (by omega), memRead_eight]
  · exact ((fetchFrom_spec s s.fetchAddr Config.maxInstrLen s.fetchAddr).1 k hk).1

/-- Settles O50: an element is a slice of the whole operand, and a qword element stands where its two dwords do. -/
theorem elementsOfAMemoryVector : Obligations.ElementsOfAMemoryVector := by
  intro s len ea N VL j hN hVL hj
  refine ⟨?slice, rfl, ?qword⟩
  case slice =>
    have hbits : 8 * (N / 8) = N := by omega
    have hbytes : VL / N * (N / 8) = VL / 8 := by rcases hN with rfl | rfl <;> omega
    have hplace : j * N = 8 * (j * (N / 8)) := by rw [Nat.mul_left_comm, hbits]
    have hfits : j * (N / 8) + N / 8 ≤ VL / 8 := by
      rw [← Nat.succ_mul, ← hbytes]
      exact Nat.mul_le_mul_right _ hj
    rw [hplace, extractLsb'_memRead s _ hbits hfits]
    rfl
  case qword =>
    have heven : elemAddr 32 (s.linearAddr len ea) (2 * j) = elemAddr 64 (s.linearAddr len ea) j := by
      rw [elemAddr, elemAddr, show 2 * j * (32 / 8) = j * (64 / 8) by omega]
    have hodd : elemAddr 32 (s.linearAddr len ea) (2 * j + 1) = elemAddr 64 (s.linearAddr len ea) j + 4 := by
      rw [elemAddr, elemAddr, show (2 * j + 1) * (32 / 8) = j * (64 / 8) + 4 by omega, BitVec.ofNat_add,
        BitVec.add_assoc]
      rfl
    simp only [State.src2Elem, heven, hodd]
    exact memRead_qword s _

/-- Settles O51: the bytes a broadcast form reads are those of the one element. -/
theorem broadcastReadsOneElement : Obligations.BroadcastReadsOneElement := by
  intro i ea s h2
  refine ⟨fun j => by rw [h2, State.src2Elem], fun mem' blocked h => exec_withOtherMemory i s mem' blocked fun b hb => ?_⟩
  rw [ReadsByte, h2] at hb
  obtain ⟨-, k, hk, rfl⟩ := hb
  exact h k hk

end Sys2Proof.Machine
end

section
/-!
PROOFS. The statements about displacements: the scaled disp8 of the EVEX forms (30_encoding.md R70) and RIP-relative
operands (R64). Both rest on what `takeModRm` answers on the bytes of an operand. The bytes of an EVEX form reach it
through the prefixes and cut off at 15 bytes: `takeModRm_evex_of_decode` undoes both, because `takeModRm` answers the
same when more bytes follow (`takeModRm_append`).
-/
namespace Sys2Proof.Machine
open Sys2Proof.Safety

/-! ## What is taken does not depend on the bytes after it (R77 step 5) -/

theorem takeDisp32_append {bs rest : List Byte} {disp : Word} (h : takeDisp32 bs = some (disp, rest)) (t : List Byte) :
    takeDisp32 (bs ++ t) = some (disp, rest ++ t) := by
  match bs, h with
  | _ :: _ :: _ :: _ :: _, h =>
    obtain ⟨rfl, rfl⟩ := Prod.mk.inj (Option.some.inj h)
    rfl

theorem takeDisp_append {mod : BitVec 2} {n : Nat} {bs rest : List Byte} {disp : Word}
    (h : takeDisp mod n bs = some (disp, rest)) (t : List Byte) :
    takeDisp mod n (bs ++ t) = some (disp, rest ++ t) := by
  unfold takeDisp at h ⊢
  split_ifs at h ⊢ with h0 h1
  · obtain ⟨rfl, rfl⟩ := Prod.mk.inj (Option.some.inj h)
    rfl
  · cases bs with
    | nil => cases h
    | cons d bs =>
      obtain ⟨rfl, rfl⟩ := Prod.mk.inj (Option.some.inj h)
      rfl
  · exact takeDisp32_append h t

theorem takeSib_append {ov : Option Seg} {x b : Bool} {n : Nat} {mod : BitVec 2} {bs rest : List Byte} {ea : AddrForm}
    (h : takeSib ov x b n mod bs = some (ea, rest)) (t : List Byte) :
    takeSib ov x b n mod (bs ++ t) = some (ea, rest ++ t) := by
  cases bs with
  | nil => cases h
  | cons sib bs =>
    simp only [takeSib, List.cons_append] at h ⊢
    by_cases h5 : mod = 0 ∧ sib.extractLsb' 0 3 = 5
    · rw [if_pos h5] at h ⊢
      split at h
      · next hd => cases h; rw [takeDisp32_append hd t]
      · cases h
    · rw [if_neg h5] at h ⊢
      split at h
      · next hd => cases h; rw [takeDisp_append hd t]
      · cases h

theorem takeModRm_append {ov : Option Seg} {x b : Bool} {n : Nat} {bs rest : List Byte} {reg : BitVec 3} {o : RmOperand}
    (h : takeModRm ov x b n bs = some (reg, o, rest)) (t : List Byte) :
    takeModRm ov x b n (bs ++ t) = some (reg, o, rest ++ t) := by
  cases bs with
  | nil => cases h
  | cons m bs =>
    simp only [takeModRm, List.cons_append] at h ⊢
    split_ifs at h ⊢ with h3 h4 h5
    · cases h; rfl
    · split at h
      · next hs => cases h; rw [takeSib_append hs t]
      · cases h
    · split at h
      · next hd => cases h; rw [takeDisp32_append hd t]
      · cases h
    · split at h
      · next hd => cases h; rw [takeDisp_append hd t]
      · cases h

/-! ## Memory operands by their displacement bytes (R60, R61, R64) -/

section
variable (ov : Option Seg) (x b : Bool) (n : Nat) (reg rm : BitVec 3) (sib : Byte)

/-- `mod = 00, rm = 101` (R64): no base and no index, whatever the extension bits. -/
theorem takeModRm_ripRel {bs rest : List Byte} {disp : Word} (hd : takeDisp32 bs = some (disp, rest)) :
    takeModRm ov x b n (modRmByte 0 reg 5 :: bs) =
      some (reg, .mem { seg := segInForce ov none, base := none, index := none, scale := 0, disp, ripRel := true },
        rest) := by
  simp [takeModRm, hd]

/-- `mod` 01 and 10 give a memory operand with the displacement that follows ModRM and SIB. -/
theorem takeModRm_withBase {mod : BitVec 2} (h0 : mod ≠ 0) (h3 : mod ≠ 3) {ds rest rest' : List Byte} {disp : Word}
    (hd : takeDisp mod n (ds ++ rest) = some (disp, rest')) :
    ∃ ea, takeModRm ov x b n (modRmByte mod reg rm :: ((if rm = 4 then sib :: ds else ds) ++ rest)) =
        some (reg, .mem ea, rest') ∧ ea.disp = disp := by
  have hmod (c : Prop) : ¬ (mod = 0 ∧ c) := fun h => h0 h.1
  by_cases h4 : rm = 4
  case pos =>
    simp only [if_pos h4, List.cons_append, takeModRm, takeSib, fields_modRmByte, if_neg h3, if_neg (hmod _), hd]
    exact ⟨_, rfl, rfl⟩
  case neg =>
    simp only [if_neg h4, takeModRm, fields_modRmByte, if_neg h3, if_neg (hmod _), hd]
    exact ⟨_, rfl, rfl⟩

/-- `mod = 00` with SIB `base = 101`, or with `rm = 101`, gives a memory operand with a disp32 and no base. -/
theorem takeModRm_withoutBase (h : (rm = 4 ∧ sib.extractLsb' 0 3 = 5) ∨ rm = 5) {ds rest rest' : List Byte}
    {disp : Word} (hd : takeDisp32 (ds ++ rest) = some (disp, rest')) :
    ∃ ea, takeModRm ov x b n (modRmByte 0 reg rm :: ((if rm = 4 then sib :: ds else ds) ++ rest)) =
        some (reg, .mem ea, rest') ∧ ea.base = none ∧ ea.disp = disp := by
  rcases h with ⟨rfl, h5⟩ | rfl
  case inl => simp [takeModRm, takeSib, h5, hd]
  case inr => exact ⟨_, takeModRm_ripRel ov x b n reg hd, rfl, rfl⟩

end

/-! ## From the bytes of an EVEX form to its second source (R68, R77 steps 1 and 2) -/

/-- A byte the spec lists as a prefix is one to the decoder. -/
theorem classifyPrefix_isSome_of_allPrefixes {pre : List Byte} (h : AllPrefixes pre) {b : Byte} (hb : b ∈ pre) :
    (classifyPrefix b).isSome = true := by
  have table : ∀ c : Byte, c ∈ ([0x66, 0xF2, 0xF3, 0xF0, 0x2E, 0x36, 0x3E, 0x26, 0x64, 0x65, 0x67] : List Byte) ∨
      c.extractLsb' 4 4 = 4 → (classifyPrefix c).isSome = true := by decide
  exact table b (h b hb)

/-- Prefixes are consumed, whatever follows them. -/
theorem scanPrefixes_append {pre : List Byte} (h : ∀ b ∈ pre, (classifyPrefix b).isSome = true) (p : Prefixes) :
    ∃ p', ∀ bs, scanPrefixes p (pre ++ bs) = scanPrefixes p' bs := by
  induction pre generalizing p with
  | nil => exact ⟨p, fun _ => rfl⟩
  | cons b pre ih =>
    obtain ⟨c, hc⟩ := Option.isSome_iff_exists.mp (h b List.mem_cons_self)
    obtain ⟨p', hp'⟩ := ih (fun b' hb' => h b' (List.mem_cons_of_mem b hb')) (p.add c)
    exact ⟨p', fun bs => by rw [List.cons_append, scanPrefixes_step hc, hp']⟩

/-- An instruction is decoded from the first 15 bytes. -/
theorem decodeUnbounded_of_decode {bytes : List Byte} {i : Instr} (h : decode bytes = .ok i) :
    decodeUnbounded (bytes.take Config.maxInstrLen) = .ok i := by
  unfold decode at h
  split at h
  · split_ifs at h
  · exact h

/-- Prefixes and 62h before an instruction are those of an EVEX form; the 15 bytes leave some of what follows. -/
theorem decodeEvex_of_decode {pre r : List Byte} {i : Instr} (hpre : AllPrefixes pre)
    (h : decode (pre ++ 0x62 :: r) = .ok i) : ∃ p total k, decodeEvex p total (r.take k) = .ok i := by
  have hu := decodeUnbounded_of_decode h
  rw [List.take_append] at hu
  obtain ⟨p, hp⟩ := scanPrefixes_append
    (fun b hb => classifyPrefix_isSome_of_allPrefixes hpre (List.mem_of_mem_take hb)) {}
  rw [decodeUnbounded, hp] at hu
  cases hk : Config.maxInstrLen - pre.length with
  | zero => simp [hk, scanPrefixes] at hu
  | succ k =>
    rw [hk, List.take_succ_cons, scanPrefixes_stop (by decide)] at hu
    exact ⟨p, _, k, by simpa using hu⟩

/-- Guarding against prefixes makes no instruction. -/
theorem eq_ok_of_guardPrefixes {p : Prefixes} {d : Decoded} {i : Instr} (h : guardPrefixes p d = .ok i) :
    d = .ok i := by
  unfold guardPrefixes at h
  split at h
  · cases h
  · split_ifs at h
    exact h

/-- The row an EVEX form selects keeps the second source. -/
@[simp] theorem secondSource_evexRow (w : Bool) (ll : BitVec 2) (dst src1 : VReg) (mask : Mask) (src2 : Src2)
    (len : Nat) : (evexRow w ll dst src1 mask src2 len).secondSource = src2 := by
  unfold evexRow
  split_ifs <;> rfl

/-- The factor of a disp8 after the EVEX bytes P1 and P2. -/
def evexScale (p1 p2 : Byte) : Nat :=
  evexDisp8Scale (if p1.getLsbD 7 then 64 else 32) (vlOf (p2.extractLsb' 5 2)) (p2.getLsbD 4)

/-- It is N of the table of R70, tuple type Full. -/
theorem ofNat_evexScale (p1 p2 : Byte) : BitVec.ofNat 64 (evexScale p1 p2) =
    if p2.getLsbD 4 then (if p1.getLsbD 7 then 8 else 4)
    else if p2.extractLsb' 5 2 = 0 then 16 else if p2.extractLsb' 5 2 = 1 then 32 else 64 := by
  unfold evexScale
  generalize p1.getLsbD 7 = w
  generalize p2.getLsbD 4 = bcst
  generalize p2.extractLsb' 5 2 = ll
  revert w bcst ll; decide

/-- The second source of an EVEX form is what ModRM and the bytes after it say, under the disp8 factor and the broadcast
bit of the header. -/
theorem takeModRm_of_decodeEvexBody {p : Prefixes} {total : Nat} {p0 p1 p2 op : Byte} {r : List Byte} {i : Instr}
    (h : decodeEvexBody p total p0 p1 p2 op r = .ok i) :
    ∃ reg o rest, takeModRm p.seg (!p0.getLsbD 6) (!p0.getLsbD 5) (evexScale p1 p2) r = some (reg, o, rest) ∧
      i.secondSource = o.toSrc2 (!p0.getLsbD 6) (!p0.getLsbD 5) (p2.getLsbD 4) := by
  simp only [decodeEvexBody] at h
  split at h
  · cases h
  · split at h
    · cases h
    · next reg o rest ht =>
      split_ifs at h
      cases h
      exact ⟨reg, o, rest, ht, secondSource_evexRow ..⟩

/-- The same from the bytes of the instruction, with its prefixes and whatever follows it. -/
theorem takeModRm_evex_of_decode {pre r : List Byte} {p0 p1 p2 op : Byte} {i : Instr} (hpre : AllPrefixes pre)
    (h : decode (pre ++ 0x62 :: p0 :: p1 :: p2 :: op :: r) = .ok i) :
    ∃ ov reg o rest, takeModRm ov (!p0.getLsbD 6) (!p0.getLsbD 5) (evexScale p1 p2) r = some (reg, o, rest) ∧
      i.secondSource = o.toSrc2 (!p0.getLsbD 6) (!p0.getLsbD 5) (p2.getLsbD 4) := by
  obtain ⟨p, total, k, hk⟩ := decodeEvex_of_decode hpre h
  match k, hk with
  | 0, hk | 1, hk | 2, hk | 3, hk => cases hk
  | k + 4, hk =>
    obtain ⟨reg, o, rest, ht, h2⟩ := takeModRm_of_decodeEvexBody (eq_ok_of_guardPrefixes hk)
    refine ⟨p.seg, reg, o, rest ++ r.drop k, ?_, h2⟩
    rw [← takeModRm_append ht, List.take_append_drop]

/-- What holds of the memory operand that the bytes after the opcode spell holds of the second source. -/
theorem memory_of_decode_evex {pre r : List Byte} {p0 p1 p2 op : Byte} {i : Instr} {P : AddrForm → Prop}
    (hpre : AllPrefixes pre)
    (hmem : ∀ ov x b, ∃ ea reg rest,
      takeModRm ov x b (evexScale p1 p2) r = some (reg, .mem ea, rest) ∧ P ea)
    (h : decode (pre ++ 0x62 :: p0 :: p1 :: p2 :: op :: r) = .ok i) :
    ∃ ea, i.secondSource = (if p2.getLsbD 4 then .bcst ea else .mem ea) ∧ P ea := by
  obtain ⟨ov, reg, o, rest, ht, h2⟩ := takeModRm_evex_of_decode hpre h
  obtain ⟨ea, reg', rest', hea, hP⟩ := hmem ov (!p0.getLsbD 6) (!p0.getLsbD 5)
  cases ht.symm.trans hea
  exact ⟨ea, h2, hP⟩

/-! ## The obligations -/

/-- Settles O11: the displacement is what `takeDisp` gives under the factor of the table, and a disp32 has no factor. -/
theorem evexDisp8Scaled : Obligations.EvexDisp8Scaled := by
  intro pre p0 p1 p2 reg rm sib d d0 d1 d2 d3 rest i hpre
  simp only [List.append_assoc, List.cons_append]
  refine ⟨?disp8, ?disp32, fun hbase => ?noBase⟩
  case disp8 =>
    rw [← ofNat_evexScale]
    exact memory_of_decode_evex hpre fun ov x b =>
      have ⟨ea, ht, hdisp⟩ := takeModRm_withBase ov x b _ reg rm sib (mod := 1) (ds := [d]) (by decide)
        (by decide) rfl
      ⟨ea, _, _, ht, hdisp⟩
  case disp32 =>
    exact memory_of_decode_evex hpre fun ov x b =>
      have ⟨ea, ht, hdisp⟩ := takeModRm_withBase ov x b _ reg rm sib (mod := 2) (ds := [d0, d1, d2, d3]) (by decide)
        (by decide) rfl
      ⟨ea, _, _, ht, hdisp⟩
  case noBase =>
    exact memory_of_decode_evex hpre fun ov x b =>
      have ⟨ea, ht, hb, hdisp⟩ := takeModRm_withoutBase ov x b _ reg rm sib hbase (ds := [d0, d1, d2, d3]) rfl
      ⟨ea, _, _, ht, hb, hdisp⟩

/-- The effective address of a RIP-relative form, which has no base and no index (R64). -/
theorem effectiveAddr_ripRel (s : State) (len : Nat) (seg : Seg) (scale : Fin 4) (disp : Word) :
    s.effectiveAddr len { seg, base := none, index := none, scale, disp, ripRel := true } =
      s.rip + BitVec.ofNat 64 len + disp := by
  simp [State.effectiveAddr, State.nextRip]

/-- Settles O14: the operand is the one of `takeModRm_ripRel`, and the default segment of no base is DS. -/
theorem ripRelativeAddress : Obligations.RipRelativeAddress := by
  intro ov x b n reg d0 d1 d2 d3 rest s len
  refine ⟨_, takeModRm_ripRel ov x b n reg rfl, effectiveAddr_ripRel .., ?_⟩
  rintro rfl
  rfl

end Sys2Proof.Machine
end

section
/-!
PROOFS. The statements about lanes (40_common_lane_semantics.md): the lane multiply is wrapping multiplication (R86);
what the destination holds above the vector length (R93) and, lane by lane, under the writemask (R91, R92), and what a
result lane depends on (R88). `exec` is met through `eq_complete_of_exec_eq_next` only; the rest is about `resultOf`.
-/
namespace Sys2Proof.Machine
open Sys2Proof.Safety

/-! ## The lane multiply -/

/-- The low `n` bits of the `m`-bit pattern of an integer are its `n`-bit pattern. -/
theorem setWidth_ofInt {n m : Nat} (h : n ≤ m) (x : Int) : (BitVec.ofInt m x).setWidth n = BitVec.ofInt n x := by
  have hdvd : ((2 ^ n : Nat) : Int) ∣ ((2 ^ m : Nat) : Int) := Int.natCast_dvd_natCast.mpr (Nat.pow_dvd_pow 2 h)
  have hpos : ((2 ^ m : Nat) : Int) ≠ 0 := by positivity
  apply BitVec.eq_of_toNat_eq
  rw [BitVec.toNat_setWidth, BitVec.toNat_ofInt, BitVec.toNat_ofInt, ← Int.emod_emod_of_dvd x hdvd,
    Int.toNat_emod (Int.emod_nonneg x hpos) (Int.natCast_nonneg _), Int.toNat_natCast]

/-- The lane multiply (R85) is `N`-bit wrapping multiplication (R86). -/
theorem mullo_eq_mul {N : Nat} (a b : BitVec N) : mullo N a b = a * b :=
  calc mullo N a b
      = (BitVec.ofInt (2 * N) (a.toInt * b.toInt)).setWidth N := (BitVec.setWidth_eq_extractLsb' (by omega)).symm
    _ = BitVec.ofInt N (a.toInt * b.toInt) := setWidth_ofInt (by omega) _
    _ = a * b := by rw [BitVec.ofInt_mul, BitVec.ofInt_toInt, BitVec.ofInt_toInt]

/-! ## The destination of a completed form -/

/-- The destination of a completed form holds the row's result. -/
theorem readZmm_dst_of_exec_eq_next {i : Instr} {s t : State} (h : exec i s = .next t) :
    t.readZmm i.dst = resultOf i s := by
  rw [eq_complete_of_exec_eq_next h, readZmm_complete_same]

/-- A lane is not enabled where its bit of the named opmask register is 0 (R90). -/
theorem not_laneEnabled {i : Instr} {k : KReg} {s : State} {j : Nat} (hk : MaskRegister i k)
    (hbit : (s.readK k).getLsbD j = false) : ¬ LaneEnabled i s j := by
  rcases hk with hw | hw <;> simp [LaneEnabled, hw, hbit]

section
variable {i : Instr} {s s' : State} {j : Nat} (hj : j < i.lanes)
include hj

/-- An enabled lane of the result holds the product (R90). -/
theorem lane_resultOf_of_laneEnabled (he : LaneEnabled i s j) :
    lane i.elemBits (resultOf i s) j =
      mullo i.elemBits (lane i.elemBits (s.readZmm i.firstSource) j)
        (s.src2Elem i.elemBits i.len i.secondSource j) := by
  rw [lane_resultOf hj, resultLane, if_pos (enabled_maskValue.mpr he)]

/-- A lane of the result that is not enabled (R91, R92). -/
theorem lane_resultOf_of_not_laneEnabled (he : ¬ LaneEnabled i s j) :
    lane i.elemBits (resultOf i s) j =
      if i.writemask.isZeroing then 0 else lane i.elemBits (s.readZmm i.dst) j := by
  rw [lane_resultOf hj, resultLane, if_neg (mt enabled_maskValue.mp he)]

/-- A lane of the result depends on its mask bit, where it is enabled on the same lane of the sources, and under
merging-masking on the same lane of the old destination (R88). -/
theorem lane_resultOf_congr (hm : LaneEnabled i s j ↔ LaneEnabled i s' j)
    (h1 : lane i.elemBits (s.readZmm i.firstSource) j = lane i.elemBits (s'.readZmm i.firstSource) j)
    (h2 : LaneEnabled i s j →
      s.src2Elem i.elemBits i.len i.secondSource j = s'.src2Elem i.elemBits i.len i.secondSource j)
    (hd : ∀ k, i.writemask = .merge k →
      lane i.elemBits (s.readZmm i.dst) j = lane i.elemBits (s'.readZmm i.dst) j) :
    lane i.elemBits (resultOf i s) j = lane i.elemBits (resultOf i s') j := by
  by_cases he : LaneEnabled i s j
  · rw [lane_resultOf_of_laneEnabled hj he, lane_resultOf_of_laneEnabled hj (hm.mp he), h1, h2 he]
  · rw [lane_resultOf_of_not_laneEnabled hj he, lane_resultOf_of_not_laneEnabled hj (mt hm.mpr he)]
    cases hw : i.writemask with
    | noMask => exact absurd (by simp only [LaneEnabled, hw]) he
    | merge k => exact hd k hw
    | zero k => rfl

end

/-! ## The old destination under zeroing-masking (R92) -/

/-- The legacy form has no writemask (R90). -/
theorem writemask_of_isLegacy {i : Instr} (h : i.isLegacy = true) : i.writemask = .noMask := by
  cases i with
  | pmulldSse => rfl
  | _ => cases h

/-- A form that completes overwrites what its destination held. -/
theorem complete_writeZmm (s : State) (n : VReg) (v w : BitVec Config.maxVL) (len : Nat) :
    (s.writeZmm n v).complete n w len = s.complete n w len := by
  simp only [complete_eq, State.writeZmm, Vector.set_set]

theorem mapNext_id (o : Outcome) : mapNext id o = o := by
  cases o <;> rfl

section
variable {i : Instr} {k : KReg} (s : State) (v : BitVec Config.maxVL) (hw : i.writemask = .zero k)
  (h1 : i.firstSource ≠ i.dst) (h2 : i.secondSource ≠ .reg i.dst)
include hw h1 h2

/-- Under zeroing-masking the result does not depend on the old destination where that is no source. -/
theorem resultOf_writeZmm_dst : resultOf i (s.writeZmm i.dst v) = resultOf i s := by
  have hfirst : (s.writeZmm i.dst v).readZmm i.firstSource = s.readZmm i.firstSource := readZmm_writeZmm_ne s _ v h1
  have hsecond (n : VReg) (hn : i.secondSource = .reg n) : (s.writeZmm i.dst v).readZmm n = s.readZmm n :=
    readZmm_writeZmm_ne s _ v fun e => h2 (e ▸ hn)
  apply eq_of_lanes_upper (shape_of_row i)
  case hl =>
    refine fun j hj => lane_resultOf_congr hj Iff.rfl (by rw [hfirst]) (fun he => ?_) fun r hr => ?_
    · exact src2Elem_congr i _ s hsecond (fun _ _ => rfl) (fun _ _ => rfl) hj he
    · rw [hw] at hr
      cases hr
  case hu =>
    have hlegacy : ¬ i.isLegacy = true := fun h => by
      rw [writemask_of_isLegacy h] at hw
      cases hw
    rw [shiftRight_resultOf, shiftRight_resultOf, if_neg hlegacy, if_neg hlegacy]

/-- Under zeroing-masking the outcome does not depend on the old destination where that is no source. -/
theorem exec_writeZmm_dst : exec i (s.writeZmm i.dst v) = exec i s := by
  have hfault : memFaultOf i (s.writeZmm i.dst v) = memFaultOf i s :=
    memFaultOf_congr i _ _ rfl (fun _ _ => Iff.rfl) (fun _ _ => rfl) (fun _ _ => ⟨rfl, rfl⟩) (fun _ => rfl) rfl
  rw [exec_eq_mapNext i s (s.writeZmm i.dst v) id (udOf_congr i rfl rfl rfl rfl) rfl rfl hfault
    (resultOf_writeZmm_dst s v hw h1 h2) fun _ => complete_writeZmm .., mapNext_id]

end

/-! ## The statements -/

/-- Settles O16: both parts say that the lane multiply is wrapping multiplication. -/
theorem mulloDoesNotDependOnSignedness : Obligations.MulloDoesNotDependOnSignedness := by
  intro N a b
  rw [mullo_eq_mul]
  exact ⟨BitVec.toNat_mul a b, rfl⟩

/-- Settles O28: for the completed forms by the upper part of `resultOf`, for every width by the laws of `pmull`. -/
theorem upperBitsKeptOrCleared : Obligations.UpperBitsKeptOrCleared := by
  refine ⟨fun i s t h => ?forms, fun c N VL mask z a old s2 hN hVL => ?widths⟩
  case forms =>
    rw [UpperKept, UpperZeroed, readZmm_dst_of_exec_eq_next h, shiftRight_resultOf]
    exact ⟨fun hl => by rw [if_pos hl], fun hl => by rw [hl, if_neg Bool.false_ne_true]⟩
  case widths =>
    have hshape : Shape N VL := ⟨hN, hVL⟩
    exact ⟨pmull_keep_upper mask z a s2 old hshape, pmull_zero_upper mask z a s2 old hshape,
      fun upper _ hj => lane_pmull upper mask z a s2 old hshape c.atLeast512 hj⟩

/-- Settles O29: the mask bit says that the lane is not enabled. -/
theorem mergingMaskKeepsOldLanes : Obligations.MergingMaskKeepsOldLanes := by
  intro i k s t hw h j hj hbit
  rw [readZmm_dst_of_exec_eq_next h, lane_resultOf_of_not_laneEnabled hj (not_laneEnabled (.inl hw) hbit), hw]
  rfl

/-- Settles O30: the mask bit says that the lane is not enabled; the old destination is `exec_writeZmm_dst`. -/
theorem zeroingMaskClearsLanes : Obligations.ZeroingMaskClearsLanes := by
  refine fun i k s hw => ⟨fun t h j hj hbit => ?_, fun h1 h2 v => exec_writeZmm_dst s v hw h1 h2⟩
  rw [readZmm_dst_of_exec_eq_next h, lane_resultOf_of_not_laneEnabled hj (not_laneEnabled (.inr hw) hbit), hw]
  rfl

/-- Settles O32: `lane_resultOf_congr` in both states. -/
theorem lanesAreIndependent : Obligations.LanesAreIndependent := by
  intro i s s' t t' j h h' hj h1 h2 hk hd
  rw [readZmm_dst_of_exec_eq_next h, readZmm_dst_of_exec_eq_next h']
  exact lane_resultOf_congr hj (laneEnabled_congr hk) h1 (fun _ => h2) hd

end Sys2Proof.Machine
end

section
/-!
PROOFS. The statements about exceptions (60_exceptions.md). What the state decides, R108 to R111 and R114, is read off
`exec_eq` with `udOf_eq_false`. What the encoding decides, R112 and R113, is shown for the decoder: after any prefixes it
answers `#UD` unless the bytes end before the instruction does (`UdUnlessCut`), and the statements exclude bytes that do.
-/
namespace Sys2Proof.Machine
open Sys2Proof.Safety

/-! ## What the state decides (R108 to R111, R114) -/

/-- A `#UD` cause of the row goes before everything else (R120 item 2). -/
theorem exec_of_not_noUd {i : Instr} {s : State} (h : ¬ NoUd i s) : exec i s = .fault .ud := by
  have hud : udOf i s = true := by rwa [← udOf_eq_false, Bool.not_eq_false] at h
  rw [exec_eq, if_pos hud]

/-- `VexEnabled` as R110 writes it. -/
theorem vexEnabled_iff {s : State} : VexEnabled s ↔ s.cr4.getLsbD 18 = true ∧ s.xcr0.extractLsb' 1 2 = 3 := by
  rw [VexEnabled, ← xcr0Avx_eq_true, State.xcr0Avx, beq_iff_eq]

/-- `EvexEnabled` as R111 writes it. -/
theorem evexEnabled_iff {s : State} : EvexEnabled s ↔ VexEnabled s ∧ s.xcr0.extractLsb' 5 3 = 7 := by
  rw [EvexEnabled, ← xcr0Avx512_eq_true, State.xcr0Avx512, beq_iff_eq]

/-- A value of CR0 with the same TS bit goes through a form unseen where the `#UD` condition does not see it. -/
theorem exec_withCr0 (i : Instr) (s : State) (c : Word) (hud : udOf i { s with cr0 := c } = udOf i s)
    (hts : c.getLsbD 3 = s.cr0.getLsbD 3) :
    exec i { s with cr0 := c } = mapNext (fun t => { t with cr0 := c }) (exec i s) :=
  have hresult : resultOf i s = resultOf i { s with cr0 := c } :=
    resultOf_congr i s _ rfl rfl (fun _ _ => Iff.rfl) fun _ hj he =>
      src2Elem_congr i s { s with cr0 := c } (fun _ _ => rfl) (fun _ _ => rfl) (fun _ _ => rfl) hj he
  exec_eq_mapNext i s { s with cr0 := c } _ hud rfl hts rfl hresult.symm fun _ => rfl

/-- Settles O34: the flags are part of `NoUd`. -/
theorem missingFeatureFlagRaisesUd : Obligations.MissingFeatureFlagRaisesUd :=
  fun _ _ h => exec_of_not_noUd fun hno => h hno.1

/-- Settles O35: `OsEnabled` of the legacy form. -/
theorem legacyFormNeedsOsfxsrAndNoEmulation : Obligations.LegacyFormNeedsOsfxsrAndNoEmulation := by
  intro dst src len s h
  refine exec_of_not_noUd fun ⟨_, (hos : s.cr0.getLsbD 2 = false ∧ s.cr4.getLsbD 9 = true)⟩ => ?_
  rcases h with hem | hfx
  · exact Bool.false_ne_true (hos.1.symm.trans hem)
  · exact Bool.false_ne_true (hfx.symm.trans hos.2)

/-- Settles O36: `OsEnabled` of a VEX form is `VexEnabled`, and its `#UD` condition does not look at CR0. -/
theorem vexFormsNeedAvxState : Obligations.VexFormsNeedAvxState := by
  intro dst src1 src2 len s i hi
  have hos : OsEnabled i s = VexEnabled s := by rcases hi with rfl | rfl <;> rfl
  have hud : udOf i { s with cr0 := s.cr0 ^^^ 4 } = udOf i s := by rcases hi with rfl | rfl <;> rfl
  refine ⟨fun h => exec_of_not_noUd fun hno => ?_, exec_withCr0 i s _ hud (by simp)⟩
  obtain ⟨hosx, havx⟩ := vexEnabled_iff.mp (hos ▸ hno.2)
  rcases h with h | h
  · exact Bool.false_ne_true (h.symm.trans hosx)
  · exact h havx

/-- Settles O37: `OsEnabled` of an EVEX form is `EvexEnabled`. -/
theorem evexFormsNeedAvx512State : Obligations.EvexFormsNeedAvx512State := by
  intro dst src1 mask src2 len s i hi h
  have hos : OsEnabled i s = EvexEnabled s := by
    rcases hi with rfl | rfl | rfl | rfl | rfl | rfl <;> rfl
  refine exec_of_not_noUd fun hno => ?_
  obtain ⟨hvex, havx512⟩ := evexEnabled_iff.mp (hos ▸ hno.2)
  obtain ⟨hosx, havx⟩ := vexEnabled_iff.mp hvex
  rcases h with h | h | h
  · exact Bool.false_ne_true (h.symm.trans hosx)
  · exact h havx
  · exact h havx512

/-- Settles O38: the check of TS stands after the `#UD` and mode checks, before the operand. -/
theorem taskSwitchedRaisesNm : Obligations.TaskSwitchedRaisesNm := by
  intro i s hm hno (hts : s.cr0TS = true)
  rw [exec_eq, udOf_eq_false.mpr hno, if_neg Bool.false_ne_true, if_neg (fun h => h hm), if_pos hts]

/-! ## What the prefixes say (30_encoding.md R57, R58, R77 step 1) -/

/-- What a list of prefixes says to the decoder. -/
def prefixesOf (pre : List Byte) : Prefixes := (scanPrefixes {} pre).1

/-- Scanning consumes the prefixes before a byte that is none. -/
theorem scanPrefixes_prefixesOf {pre r : List Byte} {lead : Byte} (hpre : AllPrefixes pre)
    (hlead : classifyPrefix lead = none) : scanPrefixes {} (pre ++ lead :: r) = (prefixesOf pre, lead :: r) := by
  obtain ⟨p, hp⟩ := scanPrefixes_append (fun b hb => classifyPrefix_isSome_of_allPrefixes hpre hb) {}
  have hpre' : prefixesOf pre = p := by rw [prefixesOf, ← List.append_nil pre, hp, scanPrefixes]
  rw [hp, scanPrefixes_stop hlead, hpre']

/-- A flag that a prefix raises exactly when it is of some kinds is raised exactly by a byte of those kinds. -/
theorem flag_scanPrefixes {flag : Prefixes → Bool} {raises : PrefixKind → Bool} {q : Byte → Prop}
    (hadd : ∀ p c, flag (p.add c) = (flag p || raises c))
    (hq : ∀ b, (classifyPrefix b).any raises = true ↔ q b) {pre : List Byte} (hpre : AllPrefixes pre) (p : Prefixes) :
    flag (scanPrefixes p pre).1 = true ↔ flag p = true ∨ ∃ b ∈ pre, q b := by
  induction pre generalizing p with
  | nil => simp [scanPrefixes]
  | cons b pre ih =>
    obtain ⟨c, hc⟩ := Option.isSome_iff_exists.mp (classifyPrefix_isSome_of_allPrefixes hpre List.mem_cons_self)
    have hb : raises c = true ↔ q b := by rw [← hq, hc, Option.any_some]
    rw [scanPrefixes_step hc, ih (fun b' hb' => hpre b' (List.mem_cons_of_mem b hb')), hadd, Bool.or_eq_true, hb,
      List.exists_mem_cons_iff, or_assoc]

/-- The same from the start, where no flag is raised. -/
theorem flag_prefixesOf {flag : Prefixes → Bool} {raises : PrefixKind → Bool} {q : Byte → Prop}
    (hnone : flag {} = false) (hadd : ∀ p c, flag (p.add c) = (flag p || raises c))
    (hq : ∀ b, (classifyPrefix b).any raises = true ↔ q b) {pre : List Byte} (hpre : AllPrefixes pre) :
    flag (prefixesOf pre) = true ↔ ∃ b ∈ pre, q b := by
  rw [prefixesOf, flag_scanPrefixes hadd hq hpre, hnone]
  simp

/-- The kinds that may not precede C4h or 62h (R112). -/
def forbidsVexEvex : PrefixKind → Bool
  | .opSize | .rep | .lock | .rex _ => true
  | .segIgnored | .segFs | .segGs | .addrSize => false

section
variable {pre : List Byte} (hpre : AllPrefixes pre)
include hpre

theorem lock_prefixesOf : (prefixesOf pre).lock = true ↔ 0xF0 ∈ pre := by
  rw [flag_prefixesOf (flag := (·.lock)) (raises := (· == .lock)) (q := (· = 0xF0)) rfl
    (fun p c => by cases c <;> simp [Prefixes.add]) (by decide) hpre, exists_eq_right]

theorem opSize_prefixesOf : (prefixesOf pre).opSize = true ↔ 0x66 ∈ pre := by
  rw [flag_prefixesOf (flag := (·.opSize)) (raises := (· == .opSize)) (q := (· = 0x66)) rfl
    (fun p c => by cases c <;> simp [Prefixes.add]) (by decide) hpre, exists_eq_right]

theorem rep_prefixesOf : (prefixesOf pre).rep = true ↔ ∃ b ∈ pre, b = 0xF2 ∨ b = 0xF3 :=
  flag_prefixesOf (flag := (·.rep)) (raises := (· == .rep)) rfl
    (fun p c => by cases c <;> simp [Prefixes.add]) (by decide) hpre

theorem forbidVexEvex_prefixesOf : (prefixesOf pre).forbidVexEvex = true ↔
    ∃ b ∈ pre, b = 0xF0 ∨ b = 0x66 ∨ b = 0xF2 ∨ b = 0xF3 ∨ b.extractLsb' 4 4 = 4 :=
  flag_prefixesOf (raises := forbidsVexEvex) rfl
    (fun p c => by cases c <;> simp [Prefixes.add, Prefixes.forbidVexEvex, forbidsVexEvex]) (by decide) hpre

/-- After the prefixes, the first byte selects the shape (R77 steps 2 to 4). -/
theorem decodeUnbounded_prefixed {lead : Byte} (hlead : classifyPrefix lead = none) (r : List Byte) :
    decodeUnbounded (pre ++ lead :: r) =
      if lead = 0x62 then decodeEvex (prefixesOf pre) (pre ++ lead :: r).length r
      else if lead = 0xC4 then decodeVex (prefixesOf pre) (pre ++ lead :: r).length r
      else decodeLegacy (prefixesOf pre) (pre ++ lead :: r).length (lead :: r) := by
  rw [decodeUnbounded, scanPrefixes_prefixesOf hpre hlead]

/-- Prefixes alone are no instruction yet. -/
theorem decodeUnbounded_allPrefixes : decodeUnbounded pre = .truncated := by
  obtain ⟨p, hp⟩ := scanPrefixes_append (fun b hb => classifyPrefix_isSome_of_allPrefixes hpre hb) {}
  rw [← List.append_nil pre, decodeUnbounded, hp, scanPrefixes]

end

/-! ## Answers that are `#UD` once the bytes are all there (R120 item 1) -/

/-- The answer is `#UD`, unless the bytes end before the instruction does. -/
def UdUnlessCut (d : Decoded) : Prop := d = .ud ∨ d = .truncated

/-- Bytes that reach the end of the instruction within 15 are answered by what the 15 bytes hold. -/
theorem decode_eq_ud {bytes : List Byte} (hcut : decode bytes ≠ .truncated) (hlong : decode bytes ≠ .reject .tooLong)
    (h : UdUnlessCut (decodeUnbounded (bytes.take Config.maxInstrLen))) : decode bytes = .ud := by
  rcases h with hud | htr
  · rw [decode, hud]
  · have hans : decode bytes = if Config.maxInstrLen ≤ bytes.length then .reject .tooLong else .truncated := by
      rw [decode, htr]
    split_ifs at hans
    · exact absurd hans hlong
    · exact absurd hans hcut

/-- A step raises `#UD` where what follows the prefixes is `#UD` however many of its bytes the 15 leave room for. -/
theorem step_of_udUnlessCut {s : State} {pre r : List Byte} {lead : Byte} (hm : Mode64 s) (hpre : AllPrefixes pre)
    (hcut : decode s.fetch.1 ≠ .truncated) (hlong : decode s.fetch.1 ≠ .reject .tooLong)
    (hbytes : s.fetch.1 = pre ++ lead :: r)
    (h : ∀ k, UdUnlessCut (decodeUnbounded (pre ++ lead :: r.take k))) : step s = .fault .ud := by
  refine step_eq_fault.mpr ⟨hm, .inr (.inl ⟨decode_eq_ud hcut hlong ?_, rfl⟩)⟩
  rw [hbytes, List.take_append]
  cases hk : Config.maxInstrLen - pre.length with
  | zero =>
    rw [List.take_zero, List.append_nil]
    exact .inr (decodeUnbounded_allPrefixes fun b hb => hpre b (List.mem_of_mem_take hb))
  | succ k =>
    rw [List.take_succ_cons, List.take_of_length_le (by omega)]
    exact h k

/-- The guard keeps such an answer. -/
theorem UdUnlessCut.guardPrefixes {p : Prefixes} {d : Decoded} (h : UdUnlessCut d) :
    UdUnlessCut (guardPrefixes p d) := by
  rcases h with rfl | rfl
  · exact .inl (ite_self _)
  · exact .inr rfl

/-- A forbidden prefix makes every answer such a one (R112). -/
theorem guardPrefixes_of_forbid {p : Prefixes} (h : p.forbidVexEvex = true) (d : Decoded) :
    UdUnlessCut (guardPrefixes p d) := by
  cases d with
  | truncated => exact .inr rfl
  | _ => exact .inl (if_pos h)

theorem decodeVex_of_forbid {p : Prefixes} (h : p.forbidVexEvex = true) (total : Nat) (bs : List Byte) :
    UdUnlessCut (decodeVex p total bs) := by
  match bs with
  | [] | [_] | [_, _] => exact .inr rfl
  | _ :: _ :: _ :: _ => exact guardPrefixes_of_forbid h _

theorem decodeEvex_of_forbid {p : Prefixes} (h : p.forbidVexEvex = true) (total : Nat) (bs : List Byte) :
    UdUnlessCut (decodeEvex p total bs) := by
  match bs with
  | [] | [_] | [_, _] | [_, _, _] => exact .inr rfl
  | _ :: _ :: _ :: _ :: _ => exact guardPrefixes_of_forbid h _

/-- LOCK with the legacy opcode and its 66h (R112). -/
theorem decodeLegacy_of_lock {p : Prefixes} (hlock : p.lock = true) (hop : p.opSize = true) (hrep : p.rep = false)
    (total : Nat) (r : List Byte) (k : Nat) :
    UdUnlessCut (decodeLegacy p total (0x0F :: (0x38 :: 0x40 :: r).take k)) := by
  match k with
  | 0 | 1 => exact .inr rfl
  | k + 2 =>
    simp only [List.take_succ_cons, decodeLegacy, ne_eq, not_true_eq_false, if_false, hop, hrep, hlock,
      Bool.not_true, Bool.false_eq_true, if_true]
    split
    · exact .inr rfl
    · exact .inl rfl

/-! ## The field conditions of EVEX (R113) -/

/-- The operand is a register exactly for `mod = 11b` (30_encoding.md R60). -/
theorem isReg_of_takeModRm {ov : Option Seg} {x b : Bool} {n : Nat} {m : Byte} {bs rest : List Byte} {reg : BitVec 3}
    {o : RmOperand} (h : takeModRm ov x b n (m :: bs) = some (reg, o, rest)) :
    o.isReg = (m.extractLsb' 6 2 == 3) := by
  simp only [takeModRm] at h
  by_cases h3 : m.extractLsb' 6 2 = 3
  case pos =>
    rw [if_pos h3] at h
    cases h
    simp [RmOperand.isReg, h3]
  case neg =>
    rw [if_neg h3] at h
    have hmem : o.isReg = false := by
      split_ifs at h <;> split at h <;> cases h <;> rfl
    rw [hmem, eq_comm, beq_eq_false_iff_ne]
    exact h3

/-- `evexInvalid` says the five conditions of R113. -/
theorem evexInvalid_eq_true {p0 p1 p2 : Byte} {rmIsReg : Bool} : evexInvalid p0 p1 p2 rmIsReg = true ↔
    p0.extractLsb' 2 2 ≠ 0 ∨ p1.getLsbD 2 = false ∨ p2.extractLsb' 5 2 = 3 ∨
      (p2.getLsbD 7 = true ∧ p2.extractLsb' 0 3 = 0) ∨ (p2.getLsbD 4 = true ∧ rmIsReg = true) := by
  simp [evexInvalid, or_assoc]

section
variable {p0 p1 p2 modrm : Byte} (h0 : p0.extractLsb' 0 2 = 2) (h1 : p1.extractLsb' 0 2 = 1)
  (hinv : evexInvalid p0 p1 p2 (modrm.extractLsb' 6 2 == 3) = true)
include h0 h1 hinv

theorem decodeEvexBody_of_evexInvalid (p : Prefixes) (total : Nat) (r : List Byte) (k : Nat) :
    UdUnlessCut (decodeEvexBody p total p0 p1 p2 0x40 ((modrm :: r).take k)) := by
  simp only [decodeEvexBody, h0, h1, ne_eq, not_true_eq_false, or_self, if_false]
  split
  · exact .inr rfl
  · next reg o rest ht =>
    cases k with
    | zero => cases ht
    | succ k => rw [isReg_of_takeModRm ht, if_pos hinv]; exact .inl rfl

theorem decodeEvex_of_evexInvalid (p : Prefixes) (total : Nat) (r : List Byte) (k : Nat) :
    UdUnlessCut (decodeEvex p total ((p0 :: p1 :: p2 :: 0x40 :: modrm :: r).take k)) := by
  match k with
  | 0 | 1 | 2 | 3 => exact .inr rfl
  | k + 4 => exact (decodeEvexBody_of_evexInvalid h0 h1 hinv p total r k).guardPrefixes

end

/-! ## The statements about encodings -/

/-- Settles O6: the guard before C4h and 62h, and the LOCK check of the legacy form. -/
theorem forbiddenPrefixRaisesUd : Obligations.ForbiddenPrefixRaisesUd := by
  intro s pre rest hm hpre hcut hlong
  refine ⟨?vexEvex, ?legacy⟩
  case vexEvex =>
    rintro ⟨lead, hlead, hbytes, hforbidden⟩
    have hforbid := (forbidVexEvex_prefixesOf hpre).mpr hforbidden
    have hnone : classifyPrefix lead = none := by rcases hlead with rfl | rfl <;> decide
    refine step_of_udUnlessCut hm hpre hcut hlong hbytes fun k => ?_
    rw [decodeUnbounded_prefixed hpre hnone]
    rcases hlead with rfl | rfl
    · exact decodeVex_of_forbid hforbid _ _
    · exact decodeEvex_of_forbid hforbid _ _
  case legacy =>
    intro hbytes hlock hop hF2 hF3
    have hrep : (prefixesOf pre).rep = false := by
      rw [Bool.eq_false_iff, ne_eq, rep_prefixesOf hpre]
      rintro ⟨b, hb, rfl | rfl⟩
      · exact hF2 hb
      · exact hF3 hb
    refine step_of_udUnlessCut hm hpre hcut hlong hbytes fun k => ?_
    rw [decodeUnbounded_prefixed hpre (by decide)]
    exact decodeLegacy_of_lock ((lock_prefixesOf hpre).mpr hlock) ((opSize_prefixesOf hpre).mpr hop) hrep _ _ _

/-- Settles O7: the conditions are those of `evexInvalid`, whose answer a guard against prefixes keeps. -/
theorem evexFieldConditionRaisesUd : Obligations.EvexFieldConditionRaisesUd := by
  intro s pre rest p0 p1 p2 modrm hm hpre hbytes h0 h1 hcut hlong hcond
  have hinv : evexInvalid p0 p1 p2 (modrm.extractLsb' 6 2 == 3) = true := by
    rwa [evexInvalid_eq_true, beq_iff_eq]
  refine step_of_udUnlessCut hm hpre hcut hlong hbytes fun k => ?_
  rw [decodeUnbounded_prefixed hpre (by decide), if_pos rfl]
  exact decodeEvex_of_evexInvalid h0 h1 hinv _ _ _ _

end Sys2Proof.Machine
end

section
/-!
PROOFS. The statement about the reset state (70_reset_and_hazards.md R130). Each form needs an operating-system enable in
CR4, and reset leaves CR4 at 0.
-/
namespace Sys2Proof.Machine
open Sys2Proof.Safety

/-- The OS enables of every form include a bit of CR4: OSFXSR for the legacy form (R109), OSXSAVE for the others (R110,
R111). -/
theorem cr4_of_osEnabled {i : Instr} {s : State} (h : OsEnabled i s) :
    s.cr4.getLsbD 9 = true ∨ s.cr4.getLsbD 18 = true := by
  cases i with
  | pmulldSse => exact .inl h.2
  | vpmulldVex128 | vpmulldVex256 => exact .inr h.1
  | vpmulldEvex128 | vpmulldEvex256 | vpmulldEvex512 | vpmullqEvex128 | vpmullqEvex256 | vpmullqEvex512 =>
    exact .inr h.1.1

/-- With both enables of CR4 off, every form raises `#UD`, whatever the mode and the operands. -/
theorem exec_of_cr4_disabled (i : Instr) {s : State} (hfx : s.cr4.getLsbD 9 = false)
    (hosx : s.cr4.getLsbD 18 = false) : exec i s = .fault .ud := by
  refine exec_of_not_noUd fun ⟨_, hos⟩ => ?_
  rcases cr4_of_osEnabled hos with h | h
  · exact Bool.false_ne_true (hfx.symm.trans h)
  · exact Bool.false_ne_true (hosx.symm.trans h)

/-- The reset value of CR4 (R33). -/
@[simp] theorem reset_cr4 : State.reset.cr4 = 0 := rfl

/-- Settles O43: `exec_of_cr4_disabled` at the reset value of CR4. -/
theorem everyFormRaisesUdAtReset : Obligations.EveryFormRaisesUdAtReset := by
  have hfx : State.reset.cr4.getLsbD 9 = false := by simp
  have hosx : State.reset.cr4.getLsbD 18 = false := by simp
  exact ⟨fun i => exec_of_cr4_disabled i hfx hosx, hfx, hosx, rfl⟩

end Sys2Proof.Machine
end

section
/-!
PROOFS. What a form does when it completes (41_pmulld_legacy_sse.md to 44_vpmullq_evex.md): the lanes, the bits above
the vector length and the frame are shown once for every form, from `exec_eq_next_iff_ready`; each form's statement is
the case of its constructor.
-/
namespace Sys2Proof.Machine
open Sys2Proof.Safety

/-- The frame of `complete` (10_state.md R32). -/
theorem onlyDstAndPc_complete (i : Instr) (s : State) (v : BitVec Config.maxVL) :
    OnlyDstAndPc i s (s.complete i.dst v i.len) :=
  ⟨rfl, fun _ hn => readZmm_complete_ne s i.dst v i.len hn, fun _ => rfl⟩

/-- The lanes of the result, as the claims write them (40_common_lane_semantics.md R88 to R92). -/
theorem lanesMultiplied_complete (i : Instr) (s : State) :
    LanesMultiplied i.elemBits i s (s.complete i.dst (resultOf i s) i.len) := by
  intro j hj
  rw [readZmm_complete_same]
  refine ⟨fun he => ?_, fun he => ?_⟩
  · rw [lane_resultOf_of_laneEnabled hj he, mullo_eq_mul]
  · rw [lane_resultOf_of_not_laneEnabled hj he]
    cases i.writemask <;> rfl

/-- A ready legacy form completes, and keeps the bits above its vector length. -/
theorem completes_keeping {i : Instr} {s : State} (hl : i.isLegacy = true) (h : Ready i s) :
    ∃ t, exec i s = .next t ∧ LanesMultiplied i.elemBits i s t ∧ UpperKept i s t ∧ OnlyDstAndPc i s t := by
  refine ⟨_, exec_eq_next_iff_ready.mpr ⟨h, rfl⟩, lanesMultiplied_complete i s, ?_, onlyDstAndPc_complete i s _⟩
  rw [UpperKept, readZmm_complete_same, shiftRight_resultOf, if_pos hl]

/-- A ready VEX or EVEX form completes, and clears the bits above its vector length. -/
theorem completes_zeroing {i : Instr} {s : State} (hl : i.isLegacy = false) (h : Ready i s) :
    ∃ t, exec i s = .next t ∧ LanesMultiplied i.elemBits i s t ∧ UpperZeroed i t ∧ OnlyDstAndPc i s t := by
  refine ⟨_, exec_eq_next_iff_ready.mpr ⟨h, rfl⟩, lanesMultiplied_complete i s, ?_, onlyDstAndPc_complete i s _⟩
  rw [UpperZeroed, readZmm_complete_same, shiftRight_resultOf, hl, if_neg Bool.false_ne_true]

/-- Settles O18: the legacy form is the one that keeps the bits above. -/
theorem pmulldSseCompletes : Obligations.PmulldSseCompletes :=
  fun _ _ _ _ h => completes_keeping rfl h

/-- Settles O19: `completes_zeroing` for VEX.128. -/
theorem vpmulldVex128Completes : Obligations.VpmulldVex128Completes :=
  fun _ _ _ _ _ h => completes_zeroing rfl h

/-- Settles O20: `completes_zeroing` for VEX.256. -/
theorem vpmulldVex256Completes : Obligations.VpmulldVex256Completes :=
  fun _ _ _ _ _ h => completes_zeroing rfl h

/-- Settles O21: `completes_zeroing` for the dword form of 128 bits. -/
theorem vpmulldEvex128Completes : Obligations.VpmulldEvex128Completes :=
  fun _ _ _ _ _ _ h => completes_zeroing rfl h

/-- Settles O22: `completes_zeroing` for the dword form of 256 bits. -/
theorem vpmulldEvex256Completes : Obligations.VpmulldEvex256Completes :=
  fun _ _ _ _ _ _ h => completes_zeroing rfl h

/-- Settles O23: `completes_zeroing` for the dword form of 512 bits. -/
theorem vpmulldEvex512Completes : Obligations.VpmulldEvex512Completes :=
  fun _ _ _ _ _ _ h => completes_zeroing rfl h

/-- Settles O24: `completes_zeroing` for the qword form of 128 bits. -/
theorem vpmullqEvex128Completes : Obligations.VpmullqEvex128Completes :=
  fun _ _ _ _ _ _ h => completes_zeroing rfl h

/-- Settles O25: `completes_zeroing` for the qword form of 256 bits. -/
theorem vpmullqEvex256Completes : Obligations.VpmullqEvex256Completes :=
  fun _ _ _ _ _ _ h => completes_zeroing rfl h

/-- Settles O26: `completes_zeroing` for the qword form of 512 bits. -/
theorem vpmullqEvex512Completes : Obligations.VpmullqEvex512Completes :=
  fun _ _ _ _ _ _ h => completes_zeroing rfl h

/-- Settles O27: `exec_eq_next_iff_ready` names the next state. -/
theorem completesExactlyWhenReady : Obligations.CompletesExactlyWhenReady := by
  intro i s
  simp only [exec_eq_next_iff_ready, exists_and_left, exists_eq, and_true]

/-- Settles O31: the next state is the one `complete` gives. -/
theorem frameOfEveryForm : Obligations.FrameOfEveryForm := by
  intro i s t h
  rw [eq_complete_of_exec_eq_next h]
  exact onlyDstAndPc_complete i s _

/-- Settles O48: the premise is that of `exec_withOtherMemory`. -/
theorem unreadMemoryHasNoEffect : Obligations.UnreadMemoryHasNoEffect :=
  fun i s mem' blocked h => exec_withOtherMemory i s mem' blocked h

/-! ## A VEX form beside the unmasked EVEX form of the same length (R93) -/

/-- An address that is not RIP-relative does not depend on the length of the instruction. -/
theorem linearAddr_of_not_ripRel {ea : AddrForm} (h : ea.ripRel = false) (s : State) (m n : Nat) :
    s.linearAddr m ea = s.linearAddr n ea := by
  simp only [State.linearAddr, State.effectiveAddr, h, Bool.false_eq_true, if_false]

/-- `i'` has the parameters of `i` but for its length: the lanes, the operands, the treatment of the upper bits. -/
structure SameOperation (i i' : Instr) : Prop where
  elemBits : i'.elemBits = i.elemBits
  vecLen : i'.vecLen = i.vecLen
  isLegacy : i'.isLegacy = i.isLegacy
  dst : i'.dst = i.dst
  firstSource : i'.firstSource = i.firstSource
  writemask : i'.writemask = i.writemask
  secondSource : i'.secondSource = i.secondSource

/-- An enabled form whose operand is not RIP-relative does what a completed form of the same parameters does, but for
its own length. -/
theorem exec_of_sameOperation {i i' : Instr} {s t : State} (h : SameOperation i i') (he : Enabled i' s)
    (hrip : ∀ ea, i.secondSource = .mem ea ∨ i.secondSource = .bcst ea → ea.ripRel = false)
    (ht : exec i s = .next t) : exec i' s = .next { t with rip := s.rip + BitVec.ofNat 64 i'.len } := by
  obtain ⟨_, hmode, _, hfault, rfl⟩ := exec_eq_next.mp ht
  have haddr (ea : AddrForm) (h2 : i.secondSource = .mem ea ∨ i.secondSource = .bcst ea) :
      s.linearAddr i'.len ea = s.linearAddr i.len ea := linearAddr_of_not_ripRel (hrip ea h2) s _ _
  have hfault' : memFaultOf i' s = memFaultOf i s := by
    rw [memFaultOf, memFaultOf, h.elemBits, h.vecLen, h.isLegacy, h.writemask, h.secondSource]
    cases h2 : i.secondSource with
    | reg n => rfl
    | mem ea => simp only [State.src2Fault, haddr ea (.inl h2)]
    | bcst ea => simp only [State.src2Fault, haddr ea (.inr h2)]
  have helem : s.src2Elem i.elemBits i'.len i.secondSource = s.src2Elem i.elemBits i.len i.secondSource := by
    funext j
    cases h2 : i.secondSource with
    | reg n => rfl
    | mem ea => simp only [State.src2Elem, haddr ea (.inl h2)]
    | bcst ea => simp only [State.src2Elem, haddr ea (.inr h2)]
  have hresult : resultOf i' s = resultOf i s := by
    rw [resultOf, resultOf, upperOf, upperOf, h.elemBits, h.vecLen, h.isLegacy, h.dst, h.firstSource, h.writemask,
      h.secondSource, helem]
  rw [exec_of_enabled hmode he, hfault', hfault, hresult, h.dst]
  rfl

/-- The memory operand of a legacy or VEX form. -/
theorem eq_mem_of_toSrc2 {o : RegMem} {ea : AddrForm} (h : o.toSrc2 = .mem ea ∨ o.toSrc2 = .bcst ea) :
    o = .mem ea := by
  cases o with
  | reg n => rcases h with h | h <;> cases h
  | mem ea' => rcases h with h | h <;> cases h; rfl

/-- Settles O33: the VEX form has the parameters of the unmasked EVEX form. -/
theorem vexAndUnmaskedEvexAgree : Obligations.VexAndUnmaskedEvexAgree := by
  intro dst src1 src2 m n s t hrip
  have hrip' (ea : AddrForm) (h : src2.toSrc2 = .mem ea ∨ src2.toSrc2 = .bcst ea) : ea.ripRel = false :=
    hrip ea (eq_mem_of_toSrc2 h)
  exact ⟨fun he ht => exec_of_sameOperation (i := .vpmulldVex128 dst src1 src2 m) ⟨rfl, rfl, rfl, rfl, rfl, rfl, rfl⟩ he
      hrip' ht,
    fun he ht => exec_of_sameOperation (i := .vpmulldVex256 dst src1 src2 m) ⟨rfl, rfl, rfl, rfl, rfl, rfl, rfl⟩ he
      hrip' ht⟩

end Sys2Proof.Machine
end

section
/-!
PROOFS. What every step keeps (10_state.md R32), and the reset state (R33). A step that completes is one completed form
(`step_eq_next`), whose next state `complete` gives.
-/
namespace Sys2Proof.Machine
open Sys2Proof.Safety

/-- A step that completes changes the decoded instruction's destination and `pc`, and nothing else. -/
theorem complete_of_step {s t : State} (h : step s = .next t) :
    ∃ i, decode s.fetch.1 = .ok i ∧ t = s.complete i.dst (resultOf i s) i.len := by
  obtain ⟨_, i, hd, he⟩ := step_eq_next.mp h
  exact ⟨i, hd, eq_complete_of_exec_eq_next he⟩

/-- Settles O57: memory and the feature flags are among what a completed form leaves alone. -/
theorem stepKeepsInvariant : Obligations.StepKeepsInvariant := by
  intro s t hinv h
  obtain ⟨i, _, rfl⟩ := complete_of_step h
  rwa [Safety.Inv, complete_mem, complete_cpuid]

/-- Completing a form stays in the environment. -/
theorem sameEnvironment_complete {s₀ s : State} (h : SameEnvironment s₀ s) (n : VReg) (v : BitVec Config.maxVL)
    (len : Nat) : SameEnvironment s₀ (s.complete n v len) := by
  rw [SameEnvironment] at h ⊢
  rw [h]
  rfl

/-- Settles O58: the environment by `sameEnvironment_complete`, the other vector registers by the frame of `complete`. -/
theorem runsKeepEnvironment : Obligations.RunsKeepEnvironment := by
  intro s₀ s t henv h
  obtain ⟨i, hd, rfl⟩ := complete_of_step h
  exact ⟨sameEnvironment_complete henv _ _ _, i, hd, fun n hn => readZmm_complete_ne s i.dst _ i.len hn⟩

/-- In 64-bit mode a step runs the instruction decoded at `pc`. -/
theorem step_of_decode {s : State} {i : Instr} (hm : Mode64 s) (hd : decode s.fetch.1 = .ok i) : step s = exec i s := by
  rw [step, if_neg (fun h => h hm), hd]

/-- Settles O52: `step_of_decode`. -/
theorem stepRunsDecodedInstruction : Obligations.StepRunsDecodedInstruction :=
  fun _ _ hm hd => step_of_decode hm hd

/-- Settles O59: memory is empty and every feature flag is 1 at reset. -/
theorem resetHasInvariant : Obligations.ResetHasInvariant :=
  ⟨rfl, fun _ => rfl, fun _ => rfl, fun _ => rfl⟩

/-- Settles O60: register by register for the register files, the other values by evaluation. -/
theorem resetValues : Obligations.ResetValues := by
  refine ⟨fun n => ?zmm, fun n => ?k, fun n _ => ?gpr, rfl, rfl, rfl, rfl, rfl, rfl, rfl, rfl, rfl, rfl, rfl⟩
  case zmm => exact Vector.getElem_replicate n.isLt
  case k => exact Vector.getElem_replicate n.isLt
  case gpr => exact Vector.getElem_replicate n.isLt

end Sys2Proof.Machine
end

section
/-!
PROOFS. The statements about memory-operand faults (60_exceptions.md R115 to R117, R120 item 4) and about the privilege
level (R125). In an enabled form a fault is the one `memFaultOf` gives, there is one when some fault applies
(`exists_memFaultOf`), and the one given applies (`memFaultOf_mem`).
-/
namespace Sys2Proof.Machine
open Sys2Proof.Safety

/-! ## Memory faults -/

/-- An operand is readable exactly when no memory fault applies. -/
theorem operandReadable_iff {i : Instr} {s : State} :
    OperandReadable i s ↔ ¬ GpApplies i s ∧ ¬ SsApplies i s ∧ ¬ PfApplies i s := by
  constructor
  · rintro ⟨hal, hread⟩
    have hcanonical : ¬ ReadsNonCanonical i s := fun ⟨b, hb, hn⟩ => hn (hread b hb).1
    refine ⟨fun hgp => ?_, fun hss => hcanonical hss.1, fun ⟨b, hb, hn⟩ => ?_⟩
    · rcases hgp with hmis | hnc
      · exact hal hmis
      · exact hcanonical hnc.1
    · exact Bool.false_ne_true (hn.symm.trans (hread b hb).2)
  · rintro ⟨hgp, hss, hpf⟩
    refine ⟨fun hmis => hgp (.inl hmis), fun b hb => ⟨?canonical, ?accessible⟩⟩
    case canonical =>
      by_contra hn
      by_cases hseg : ThroughSs i
      · exact hss ⟨⟨b, hb, hn⟩, hseg⟩
      · exact hgp (.inr ⟨⟨b, hb, hn⟩, hseg⟩)
    case accessible =>
      by_contra hn
      exact hpf ⟨b, hb, Bool.eq_false_of_not_eq_true hn⟩

/-- When a memory fault applies, an enabled form raises one. -/
theorem exists_memFaultOf {i : Instr} {s : State} (h : GpApplies i s ∨ SsApplies i s ∨ PfApplies i s) :
    ∃ f, memFaultOf i s = some f := by
  cases hf : memFaultOf i s with
  | some f => exact ⟨f, rfl⟩
  | none =>
    obtain ⟨hgp, hss, hpf⟩ := operandReadable_iff.mp (memFaultOf_eq_none.mp hf)
    rcases h with h | h | h
    · exact absurd h hgp
    · exact absurd h hss
    · exact absurd h hpf

/-- U/S is 1 exactly at level 3, W/R and I/D are 0 (R117). -/
theorem dataFaultCode_bits (s : State) (a : Word) :
    (s.dataFaultCode a).getLsbD 1 = false ∧ (s.dataFaultCode a).getLsbD 4 = false ∧
      ((s.dataFaultCode a).getLsbD 2 = true ↔ s.cpl = 3) := by
  rw [State.dataFaultCode]
  generalize Config.dataFaultBits s.draw a = free
  generalize s.cpl = level
  revert free level
  decide

section
variable {i : Instr} {s : State} (hm : Mode64 s) (he : Enabled i s)
include hm he

/-- An enabled form raises exactly the fault of its memory operand. -/
theorem exec_eq_fault_iff {f : Fault} : exec i s = .fault f ↔ memFaultOf i s = some f := by
  rw [exec_of_enabled hm he]
  cases memFaultOf i s <;> simp

/-- When a memory fault applies, an enabled form raises one that applies (R120 item 4). -/
theorem exec_of_applies (h : GpApplies i s ∨ SsApplies i s ∨ PfApplies i s) :
    (exec i s = .fault .gp0 ∧ GpApplies i s) ∨ (exec i s = .fault .ss0 ∧ SsApplies i s) ∨
      (∃ code addr, exec i s = .fault (.pf code addr) ∧ PfApplies i s) := by
  obtain ⟨f, hf⟩ := exists_memFaultOf h
  have hexec := (exec_eq_fault_iff hm he).mpr hf
  rcases memFaultOf_mem hf with ⟨rfl, hgp⟩ | ⟨rfl, hss⟩ | ⟨a, rfl, hread, hacc⟩
  · exact .inl ⟨hexec, hgp⟩
  · exact .inr (.inl ⟨hexec, hss⟩)
  · exact .inr (.inr ⟨_, a, hexec, a, hread, hacc⟩)

theorem gpApplies_of_exec (h : exec i s = .fault .gp0) : GpApplies i s := by
  rcases memFaultOf_mem ((exec_eq_fault_iff hm he).mp h) with ⟨_, hgp⟩ | ⟨hf, _⟩ | ⟨_, hf, _⟩
  · exact hgp
  · cases hf
  · cases hf

theorem ssApplies_of_exec (h : exec i s = .fault .ss0) : SsApplies i s := by
  rcases memFaultOf_mem ((exec_eq_fault_iff hm he).mp h) with ⟨hf, _⟩ | ⟨_, hss⟩ | ⟨_, hf, _⟩
  · cases hf
  · exact hss
  · cases hf

/-- A page fault names an inaccessible byte the form reads. -/
theorem pageFault_of_exec {code : BitVec 6} {addr : Word} (h : exec i s = .fault (.pf code addr)) :
    code = s.dataFaultCode addr ∧ ReadsByte i s addr ∧ s.accessible addr = false := by
  rcases memFaultOf_mem ((exec_eq_fault_iff hm he).mp h) with ⟨hf, _⟩ | ⟨hf, _⟩ | ⟨a, hf, hread, hacc⟩
  · cases hf
  · cases hf
  · cases hf
    exact ⟨rfl, hread, hacc⟩

end

/-- Settles O42: `exec_of_applies`. -/
theorem someApplicableMemoryFaultIsRaised : Obligations.SomeApplicableMemoryFaultIsRaised :=
  fun _ _ hm he h => exec_of_applies hm he h

/-- Settles O39: the fault raised applies, and only `#GP(0)` does. -/
theorem generalProtectionExactly : Obligations.GeneralProtectionExactly := by
  refine fun i s hm he => ⟨gpApplies_of_exec hm he, fun hgp hss hpf => ?_⟩
  rcases exec_of_applies hm he (.inl hgp) with ⟨h, _⟩ | ⟨_, h⟩ | ⟨_, _, _, h⟩
  · exact h
  · exact absurd h hss
  · exact absurd h hpf

/-- Settles O40: the fault raised applies, and only `#SS(0)` does. -/
theorem stackFaultExactly : Obligations.StackFaultExactly := by
  refine fun i s hm he => ⟨ssApplies_of_exec hm he, fun hss hgp hpf => ?_⟩
  rcases exec_of_applies hm he (.inr (.inl hss)) with ⟨_, h⟩ | ⟨h, _⟩ | ⟨_, _, _, h⟩
  · exact absurd h hgp
  · exact h
  · exact absurd h hpf

/-- Settles O41: the code by `dataFaultCode_bits`; the fault raised applies, and only `#PF` does. -/
theorem pageFaultExactly : Obligations.PageFaultExactly := by
  refine fun i s hm he => ⟨fun code addr h => ?_, fun hpf hgp hss => ?_⟩
  · obtain ⟨rfl, hread, hacc⟩ := pageFault_of_exec hm he h
    exact ⟨hread, hacc, dataFaultCode_bits s addr⟩
  · rcases exec_of_applies hm he (.inr (.inr hpf)) with ⟨_, h⟩ | ⟨_, h⟩ | ⟨code, addr, h, _⟩
    · exact absurd h hgp
    · exact absurd h hss
    · exact ⟨code, addr, h⟩

/-! ## The privilege level (R125) -/

/-- A page-fault code at level `c`: U/S is 1 exactly at level 3, the other bits are as they were. -/
def codeAtLevel (c : BitVec 2) (code : BitVec 6) : BitVec 6 :=
  (code &&& 0b111011) ||| (if c = 3 then 0b000100 else 0)

theorem codeAtLevel_bits (c : BitVec 2) (code : BitVec 6) :
    ((codeAtLevel c code).getLsbD 2 = true ↔ c = 3) ∧
      ∀ b, b ≠ 2 → (codeAtLevel c code).getLsbD b = code.getLsbD b := by
  have hbits : ((codeAtLevel c code).getLsbD 2 = true ↔ c = 3) ∧
      ∀ b : Fin 6, b ≠ 2 → (codeAtLevel c code).getLsbD b = code.getLsbD b := by
    revert c code; decide
  refine ⟨hbits.1, fun b hb => ?_⟩
  by_cases hlt : b < 6
  · exact hbits.2 ⟨b, hlt⟩ fun h => hb (congrArg Fin.val h)
  · rw [BitVec.getLsbD_of_ge _ _ (by omega), BitVec.getLsbD_of_ge _ _ (by omega)]

/-- A fault as level `c` sees it: the level shows in the code of a page fault only (R117). -/
def faultAtLevel (c : BitVec 2) : Fault → Fault
  | .pf code addr => .pf (codeAtLevel c code) addr
  | f => f

/-- `s` at privilege level `c`. -/
def State.atLevel (s : State) (c : BitVec 2) : State := { s with cpl := c }

theorem dataFaultCode_atLevel (s : State) (c : BitVec 2) (a : Word) :
    (s.atLevel c).dataFaultCode a = codeAtLevel c (s.dataFaultCode a) := by
  have hcode : ∀ (free : BitVec 6) (level level' : BitVec 2),
      ((free &&& 0b101001) ||| (if level' = 3 then 0b000100 else 0)) =
        codeAtLevel level' ((free &&& 0b101001) ||| (if level = 3 then 0b000100 else 0)) := by decide
  exact hcode (Config.dataFaultBits s.draw a) s.cpl c

/-- The draw chooses by place, so that it commutes with a change of every fault. -/
theorem drawFault_map (d : Nat) (g : Fault → Fault) (fs : List Fault) :
    drawFault d (fs.map g) = (drawFault d fs).map g := by
  match fs with
  | [] | [_] => rfl
  | f :: f' :: fs => simp only [List.map_cons, drawFault, List.length_cons, List.length_map, ← List.getElem?_map]

theorem operandFaults_atLevel (s : State) (c : BitVec 2) (seg : Seg) (mis : Bool) (start : Word) (addrs : List Word) :
    (s.atLevel c).operandFaults seg mis start addrs = (s.operandFaults seg mis start addrs).map (faultAtLevel c) := by
  have hcanonical : (s.atLevel c).canonicalFrom = s.canonicalFrom := rfl
  have haccessible : (s.atLevel c).accessible = s.accessible := rfl
  simp only [State.operandFaults, hcanonical, haccessible, dataFaultCode_atLevel, List.map_append]
  congr 1
  · congr 1
    · split <;> rfl
    · split <;> rfl
  · split <;> rfl

theorem memFaultOf_atLevel (i : Instr) (s : State) (c : BitVec 2) :
    memFaultOf i (s.atLevel c) = (memFaultOf i s).map (faultAtLevel c) := by
  rw [memFaultOf, memFaultOf]
  cases i.secondSource with
  | reg n => rfl
  | mem ea => exact (congrArg _ (operandFaults_atLevel ..)).trans (drawFault_map ..)
  | bcst ea => exact (congrArg _ (operandFaults_atLevel ..)).trans (drawFault_map ..)

/-- Another level goes through a form seen by the code of a page fault only. -/
theorem exec_atLevel (i : Instr) (s : State) (c : BitVec 2) : exec i (s.atLevel c) =
    match exec i s with
    | .next t => .next (t.atLevel c)
    | .fault f => .fault (faultAtLevel c f)
    | .refused r => .refused r := by
  have hresult : resultOf i (s.atLevel c) = resultOf i s :=
    resultOf_congr i _ s rfl rfl (fun _ _ => Iff.rfl) fun _ hj he =>
      src2Elem_congr i (s.atLevel c) s (fun _ _ => rfl) (fun _ _ => rfl) (fun _ _ => rfl) hj he
  have hud : udOf i (s.atLevel c) = udOf i s := udOf_congr i rfl rfl rfl rfl
  have hmode : (s.atLevel c).mode = s.mode := rfl
  have hts : (s.atLevel c).cr0TS = s.cr0TS := rfl
  rw [exec_eq, exec_eq i s, hresult, memFaultOf_atLevel, hud, hmode, hts]
  split_ifs
  · rfl
  · rfl
  · rfl
  · cases memFaultOf i s <;> rfl

/-- Settles O44: each part reads one case of `exec_atLevel`. -/
theorem privilegeLevelHasNoEffect : Obligations.PrivilegeLevelHasNoEffect := by
  intro i s c
  have hlevel := exec_atLevel i s c
  refine ⟨fun t h => ?next, fun f h hf => ?fault, fun code addr h => ?pageFault, fun r h => ?refused⟩
  case next =>
    rw [h] at hlevel
    rw [eq_complete_of_exec_eq_next h] at hlevel ⊢
    exact ⟨hlevel, complete_mode .., complete_cpl ..⟩
  case fault =>
    rw [h] at hlevel
    cases f with
    | pf code addr => exact absurd rfl (hf code addr)
    | ud | nm | ss0 | gp0 => exact hlevel
  case pageFault =>
    rw [h] at hlevel
    obtain ⟨hus, hother⟩ := codeAtLevel_bits c code
    exact ⟨codeAtLevel c code, hlevel, hus, hother⟩
  case refused =>
    rw [h] at hlevel
    exact hlevel

end Sys2Proof.Machine
end

section
/-!
PROOFS. The statements about the operands of the decoder (30_encoding.md R60 to R63, 20_memory.md R43) and about the
corner cases of the lane multiply (40_common_lane_semantics.md R87).
-/
namespace Sys2Proof.Machine
open Sys2Proof.Safety

/-! ## Memory operands with a base (R60, R62) -/

/-- The operand of ModRM `mod` 00, 01, 10 with a base and no SIB byte. -/
def baseOperand (ov : Option Seg) (base : Gpr) (disp : Word) : AddrForm where
  seg := segInForce ov (some base)
  base := some base
  index := none
  scale := 0
  disp := disp
  ripRel := false

/-- A ModRM byte that selects a base is followed by its displacement. -/
theorem takeModRm_base (ov : Option Seg) (x b : Bool) (n : Nat) {mod : BitVec 2} (reg : BitVec 3) {rm : BitVec 3}
    {bs rest : List Byte} {disp : Word} (h4 : rm ≠ 4) (h3 : mod ≠ 3) (h5 : ¬ (mod = 0 ∧ rm = 5))
    (hd : takeDisp mod n bs = some (disp, rest)) :
    takeModRm ov x b n (modRmByte mod reg rm :: bs) = some (reg, .mem (baseOperand ov (regNum b rm) disp), rest) := by
  simp only [takeModRm, fields_modRmByte, if_neg h3, if_neg h4, if_neg h5, hd]
  rfl

/-- Settles O12: `takeModRm_base` with the displacement of each `mod`. -/
theorem modRmBaseForms : Obligations.ModRmBaseForms := by
  intro ov x b n reg rm d d0 d1 d2 d3 rest h4
  refine ⟨fun h5 => ?none, ?disp8, ?disp32⟩
  case none => exact takeModRm_base ov x b n reg h4 (by decide) (fun h => h5 h.2) rfl
  case disp8 => exact takeModRm_base ov x b n reg h4 (by decide) (fun h => absurd h.1 (by decide)) rfl
  case disp32 => exact takeModRm_base ov x b n reg h4 (by decide) (fun h => absurd h.1 (by decide)) rfl

/-! ## SIB operands (R61, R63) -/

/-- Index number 4 is the one that means no index. -/
theorem regNum_eq_four_iff (x : Bool) (idx : BitVec 3) : regNum x idx = 4 ↔ x = false ∧ idx = 4 := by
  revert x idx; decide

section
variable (ov : Option Seg) (x b : Bool) (n : Nat) {scale : BitVec 2} {idx : BitVec 3} {index : Option Gpr} {sc : Fin 4}
  {bs rest : List Byte} {disp : Word}
  (hindex : index = if x = false ∧ idx = 4 then none else some (regNum x idx))
  (hsc : sc = if x = false ∧ idx = 4 then 0 else Fin.ofNat 4 scale.toNat)
include hindex hsc

/-- A SIB byte that selects a base is followed by its displacement. -/
theorem takeSib_base {mod : BitVec 2} {base : BitVec 3} (h5 : ¬ (mod = 0 ∧ base = 5))
    (hd : takeDisp mod n bs = some (disp, rest)) :
    takeSib ov x b n mod (sibByte scale idx base :: bs) =
      some ({ seg := segInForce ov (some (regNum b base)), base := some (regNum b base), index, scale := sc, disp,
              ripRel := false }, rest) := by
  simp only [takeSib, fields_sibByte, regNum_eq_four_iff, if_neg h5, hd, ← hindex, ← hsc]

/-- `mod = 00` with base 101b is followed by a disp32 and has no base. -/
theorem takeSib_noBase (hd : takeDisp32 bs = some (disp, rest)) :
    takeSib ov x b n 0 (sibByte scale idx 5 :: bs) =
      some ({ seg := segInForce ov none, base := none, index, scale := sc, disp, ripRel := false }, rest) := by
  simp only [takeSib, fields_sibByte, regNum_eq_four_iff, and_self, if_true, hd, ← hindex, ← hsc]

end

theorem ofNat_two_pow (N k : Nat) : BitVec.ofNat N (2 ^ k) = BitVec.twoPow N k := by
  apply BitVec.eq_of_toNat_eq
  rw [BitVec.toNat_ofNat, BitVec.toNat_twoPow]

/-- The effective address without `rip` (R63). -/
theorem effectiveAddr_of_not_ripRel {ea : AddrForm} (h : ea.ripRel = false) (s : State) (len : Nat) :
    s.effectiveAddr len ea =
      (match ea.base with | some q => s.readGpr q | none => 0) +
      (match ea.index with | some r => s.readGpr r * BitVec.ofNat 64 (2 ^ ea.scale.val) | none => 0) + ea.disp := by
  have hscale (r : Gpr) : s.readGpr r <<< ea.scale.val = s.readGpr r * BitVec.ofNat 64 (2 ^ ea.scale.val) := by
    rw [BitVec.shiftLeft_eq_mul_twoPow, ofNat_two_pow]
  rw [State.effectiveAddr, h, if_neg Bool.false_ne_true, zero_add]
  cases ea.index with
  | none => rfl
  | some r => exact congrArg (fun x : Word => _ + x + ea.disp) (hscale r)

/-- Settles O13: `takeSib_base` and `takeSib_noBase` with the displacement of each `mod`. -/
theorem sibForms : Obligations.SibForms := by
  intro ov x b n scale idx base d d0 d1 d2 d3 rest index sc hindex hsc
  refine ⟨fun h5 => ?none, ?noBase, ?disp8, ?disp32, fun s len ea h => effectiveAddr_of_not_ripRel h s len⟩
  case none => exact takeSib_base ov x b n hindex hsc (fun h => h5 h.2) rfl
  case noBase => exact takeSib_noBase ov x b n hindex hsc rfl
  case disp8 => exact takeSib_base ov x b n hindex hsc (fun h => absurd h.1 (by decide)) rfl
  case disp32 => exact takeSib_base ov x b n hindex hsc (fun h => absurd h.1 (by decide)) rfl

/-! ## Segments (20_memory.md R43) -/

/-- Without an override the segment is SS for the bases RSP and RBP and DS for every other base and none. -/
theorem segInForce_none (base : Option Gpr) :
    segInForce none base = if base = some 4 ∨ base = some 5 then .ss else .ds := by
  revert base; decide

/-- Settles O15: the segment bases by definition, the default segment by `segInForce_none`. -/
theorem segmentBaseAndDefault : Obligations.SegmentBaseAndDefault := by
  refine fun s len ea => ⟨rfl, rfl, BitVec.zero_add _, BitVec.zero_add _, fun base g => ⟨rfl, ?_, ?_⟩⟩
  · rw [segInForce_none]; split <;> simp [*]
  · rw [segInForce_none]; split <;> simp [*]

/-! ## Corner cases of the lane multiply (R87) -/

/-- Multiplying by the most negative number leaves the lowest bit, as the sign. -/
theorem intMin_mul {N : Nat} (b : BitVec N) (hN : 0 < N) :
    BitVec.intMin N * b = if b.getLsbD 0 then BitVec.intMin N else 0 := by
  have hshift : BitVec.intMin N * b = b <<< (N - 1) := BitVec.twoPow_mul_eq_shiftLeft b (N - 1)
  rw [hshift]
  apply BitVec.eq_of_getLsbD_eq
  intro j hj
  rw [BitVec.getLsbD_shiftLeft]
  by_cases hsign : j = N - 1
  · have hmin : (BitVec.intMin N).getLsbD (N - 1) = true := by
      rw [BitVec.getLsbD_intMin, decide_eq_true_eq]
      omega
    subst hsign
    cases hb : b.getLsbD 0 <;> simp [-BitVec.getLsbD_eq_getElem, hj, hb, hmin]
  · have hmin : (BitVec.intMin N).getLsbD j = false := by
      rw [BitVec.getLsbD_intMin, decide_eq_false_iff_not]
      omega
    have hlow : j < N - 1 := by omega
    cases b.getLsbD 0 <;> simp [-BitVec.getLsbD_eq_getElem, hlow, hmin]

/-- Settles O17: the lane multiply is wrapping multiplication, and `intMin` and the powers of two are shifts. -/
theorem mulloCornerCases : Obligations.MulloCornerCases := by
  intro N hN a b
  have hpos : 0 < N := by rcases hN with rfl | rfl <;> decide
  simp only [mullo_eq_mul]
  refine ⟨BitVec.mul_comm a b, BitVec.zero_mul, BitVec.one_mul b, neg_one_mul b, ?negIntMin, ?intMinSquared,
    intMin_mul b hpos, fun k _ => ?powerOfTwo, ?halfSquared, ?intMaxDoubled⟩
  case negIntMin => rw [neg_one_mul, BitVec.neg_intMin]
  case intMinSquared => rw [intMin_mul _ hpos]; rcases hN with rfl | rfl <;> rfl
  case powerOfTwo => rw [ofNat_two_pow, BitVec.twoPow_mul_eq_shiftLeft]
  case halfSquared => rcases hN with rfl | rfl <;> rfl
  case intMaxDoubled => rcases hN with rfl | rfl <;> rfl

end Sys2Proof.Machine
end

section
/-!
PROOFS. The decoder on whole instructions (30_encoding.md R53 to R79). `Spells` says which bytes after the prefixes are
an instruction, one constructor per shape, and `decode_eq_ok_iff` that the decoder answers an instruction exactly for
prefixes, such bytes, and anything after them, within 15 bytes. The statements about the answer are cases of `Spells`.
-/
namespace Sys2Proof.Machine
open Sys2Proof.Safety

/-! ## The bytes an operand takes (R60 to R62)

How many bytes are taken does not depend on the override, the extension bits and the disp8 factor. -/

theorem takeDisp32_used {bs rest : List Byte} {disp : Word} (h : takeDisp32 bs = some (disp, rest)) :
    ∃ used, bs = used ++ rest ∧ takeDisp32 used = some (disp, []) := by
  match bs, h with
  | b0 :: b1 :: b2 :: b3 :: bs, h =>
    obtain ⟨rfl, rfl⟩ := Prod.mk.inj (Option.some.inj h)
    exact ⟨[b0, b1, b2, b3], rfl, rfl⟩

theorem takeDisp_used {mod : BitVec 2} {n : Nat} {bs rest : List Byte} {disp : Word}
    (h : takeDisp mod n bs = some (disp, rest)) :
    ∃ used, bs = used ++ rest ∧ ∀ n', ∃ disp', takeDisp mod n' used = some (disp', []) := by
  unfold takeDisp at h ⊢
  split_ifs at h ⊢ with h0 h1
  · obtain ⟨rfl, rfl⟩ := Prod.mk.inj (Option.some.inj h)
    exact ⟨[], rfl, fun _ => ⟨0, rfl⟩⟩
  · cases bs with
    | nil => cases h
    | cons d bs =>
      obtain ⟨rfl, rfl⟩ := Prod.mk.inj (Option.some.inj h)
      exact ⟨[d], rfl, fun _ => ⟨_, rfl⟩⟩
  · obtain ⟨used, hbs, hd⟩ := takeDisp32_used h
    exact ⟨used, hbs, fun _ => ⟨disp, hd⟩⟩

theorem takeSib_used {ov : Option Seg} {x b : Bool} {n : Nat} {mod : BitVec 2} {bs rest : List Byte} {ea : AddrForm}
    (h : takeSib ov x b n mod bs = some (ea, rest)) :
    ∃ used, bs = used ++ rest ∧ ∀ ov' x' b' n', ∃ ea', takeSib ov' x' b' n' mod used = some (ea', []) := by
  cases bs with
  | nil => cases h
  | cons sib bs =>
    simp only [takeSib] at h
    by_cases h5 : mod = 0 ∧ sib.extractLsb' 0 3 = 5
    · rw [if_pos h5] at h
      split at h
      · next hd =>
        cases h
        obtain ⟨used, rfl, hd'⟩ := takeDisp32_used hd
        exact ⟨sib :: used, rfl, fun _ _ _ _ => by simp only [takeSib, if_pos h5, hd']; exact ⟨_, rfl⟩⟩
      · cases h
    · rw [if_neg h5] at h
      split at h
      · next hd =>
        cases h
        obtain ⟨used, rfl, hd'⟩ := takeDisp_used hd
        refine ⟨sib :: used, rfl, fun _ _ _ n' => ?_⟩
        obtain ⟨disp', hd''⟩ := hd' n'
        simp only [takeSib, if_neg h5, hd'']
        exact ⟨_, rfl⟩
      · cases h

theorem takeModRm_used {ov : Option Seg} {x b : Bool} {n : Nat} {bs rest : List Byte} {reg : BitVec 3} {o : RmOperand}
    (h : takeModRm ov x b n bs = some (reg, o, rest)) :
    ∃ used, bs = used ++ rest ∧ ∀ ov' x' b' n', ∃ o', takeModRm ov' x' b' n' used = some (reg, o', []) ∧
      o'.isReg = o.isReg := by
  cases bs with
  | nil => cases h
  | cons m bs =>
    simp only [takeModRm] at h
    split_ifs at h with h3 h4 h5
    · cases h
      exact ⟨[m], rfl, fun _ _ _ _ => ⟨_, by simp only [takeModRm, if_pos h3], rfl⟩⟩
    · split at h
      · next hs =>
        cases h
        obtain ⟨used, rfl, hs'⟩ := takeSib_used hs
        refine ⟨m :: used, rfl, fun ov' x' b' n' => ?_⟩
        obtain ⟨ea', hs''⟩ := hs' ov' x' b' n'
        simp only [takeModRm, if_neg h3, if_pos h4, hs'']
        exact ⟨_, rfl, rfl⟩
      · cases h
    · split at h
      · next hd =>
        cases h
        obtain ⟨used, rfl, hd'⟩ := takeDisp32_used hd
        refine ⟨m :: used, rfl, fun _ _ _ _ => ?_⟩
        simp only [takeModRm, if_neg h3, if_neg h4, if_pos h5, hd']
        exact ⟨_, rfl, rfl⟩
      · cases h
    · split at h
      · next hd =>
        cases h
        obtain ⟨used, rfl, hd'⟩ := takeDisp_used hd
        refine ⟨m :: used, rfl, fun _ _ _ n' => ?_⟩
        obtain ⟨disp', hd''⟩ := hd' n'
        simp only [takeModRm, if_neg h3, if_neg h4, if_neg h5, hd'']
        exact ⟨_, rfl, rfl⟩
      · cases h

/-- An operand is taken exactly from bytes that hold it and nothing more, with anything after them. -/
theorem takeModRm_eq_some_iff {ov : Option Seg} {x b : Bool} {n : Nat} {bs rest : List Byte} {reg : BitVec 3}
    {o : RmOperand} : takeModRm ov x b n bs = some (reg, o, rest) ↔
      ∃ used, bs = used ++ rest ∧ takeModRm ov x b n used = some (reg, o, []) := by
  constructor
  · intro h
    obtain ⟨used, rfl, hused⟩ := takeModRm_used h
    obtain ⟨o', ho', _⟩ := hused ov x b n
    cases h.symm.trans (takeModRm_append ho' rest)
    exact ⟨used, rfl, ho'⟩
  · rintro ⟨used, rfl, h⟩
    exact takeModRm_append h rest

/-! ## The three shapes (R53 to R55) -/

/-- The legacy form that the prefixes and the operand bytes give. -/
def legacyForm (p : Prefixes) (reg : BitVec 3) (o : RmOperand) (len : Nat) : Instr :=
  .pmulldSse (regNum ((p.rex.getD 0).getLsbD 2) reg) (o.toRegMem ((p.rex.getD 0).getLsbD 0)) len

/-- The VEX form that the header bytes and the operand bytes give. -/
def vexForm (v1 v2 : Byte) (reg : BitVec 3) (o : RmOperand) (len : Nat) : Instr :=
  if v2.getLsbD 2 then
    .vpmulldVex256 (regNum (!v1.getLsbD 7) reg) (Fin.ofNat 16 (~~~(v2.extractLsb' 3 4)).toNat)
      (o.toRegMem (!v1.getLsbD 5)) len
  else
    .vpmulldVex128 (regNum (!v1.getLsbD 7) reg) (Fin.ofNat 16 (~~~(v2.extractLsb' 3 4)).toNat)
      (o.toRegMem (!v1.getLsbD 5)) len

/-- The EVEX form that the header bytes and the operand bytes give. -/
def evexForm (p0 p1 p2 : Byte) (reg : BitVec 3) (o : RmOperand) (len : Nat) : Instr :=
  evexRow (p1.getLsbD 7) (p2.extractLsb' 5 2) (regNum32 (!p0.getLsbD 4) (!p0.getLsbD 7) reg)
    (Fin.ofNat 32 (16 * (!p2.getLsbD 3).toNat + (~~~(p1.extractLsb' 3 4)).toNat))
    (maskOf (p2.getLsbD 7) (p2.extractLsb' 0 3)) (o.toSrc2 (!p0.getLsbD 6) (!p0.getLsbD 5) (p2.getLsbD 4)) len

/-- What the prefixes must say before a legacy form: 66h, and none of F2h, F3h, LOCK, 67h (R59, R79). -/
def LegacyPrefixes (p : Prefixes) : Prop :=
  p.opSize = true ∧ p.rep = false ∧ p.lock = false ∧ p.addrSize = false

/-- What the prefixes must say before a VEX or EVEX form: no forbidden prefix and no 67h (R77 steps 2 and 3, R79). -/
def VexEvexPrefixes (p : Prefixes) : Prop := p.forbidVexEvex = false ∧ p.addrSize = false

/-- The bytes after the prefixes, from the first on, are the instruction of length `len` and nothing more. -/
inductive Spells (p : Prefixes) (len : Nat) : Byte → List Byte → Instr → Prop where
  | legacy {r : List Byte} {reg : BitVec 3} {o : RmOperand} (hp : LegacyPrefixes p)
      (ht : takeModRm p.seg ((p.rex.getD 0).getLsbD 1) ((p.rex.getD 0).getLsbD 0) 1 r = some (reg, o, [])) :
      Spells p len 0x0F (0x38 :: 0x40 :: r) (legacyForm p reg o len)
  | vex {v1 v2 : Byte} {r : List Byte} {reg : BitVec 3} {o : RmOperand} (hp : VexEvexPrefixes p)
      (hmap : v1.extractLsb' 0 5 = 2) (hpp : v2.extractLsb' 0 2 = 1)
      (ht : takeModRm p.seg (!v1.getLsbD 6) (!v1.getLsbD 5) 1 r = some (reg, o, [])) :
      Spells p len 0xC4 (v1 :: v2 :: 0x40 :: r) (vexForm v1 v2 reg o len)
  | evex {p0 p1 p2 : Byte} {r : List Byte} {reg : BitVec 3} {o : RmOperand} (hp : VexEvexPrefixes p)
      (hmap : p0.extractLsb' 0 2 = 2) (hpp : p1.extractLsb' 0 2 = 1) (hinv : evexInvalid p0 p1 p2 o.isReg = false)
      (ht : takeModRm p.seg (!p0.getLsbD 6) (!p0.getLsbD 5) (evexScale p1 p2) r = some (reg, o, [])) :
      Spells p len 0x62 (p0 :: p1 :: p2 :: 0x40 :: r) (evexForm p0 p1 p2 reg o len)

/-- The decoder after the prefixes, with the first byte that is none (R77 steps 2 to 4). -/
def decodeAfter (p : Prefixes) (total : Nat) (lead : Byte) (r : List Byte) : Decoded :=
  if lead = 0x62 then decodeEvex p total r
  else if lead = 0xC4 then decodeVex p total r
  else decodeLegacy p total (lead :: r)

section
variable {p : Prefixes} {total : Nat} {i : Instr}

theorem guardPrefixes_of_not_forbid (h : p.forbidVexEvex = false) (d : Decoded) : guardPrefixes p d = d := by
  cases d <;> simp [guardPrefixes, h]

theorem guardPrefixes_eq_ok {d : Decoded} : guardPrefixes p d = .ok i ↔ p.forbidVexEvex = false ∧ d = .ok i := by
  cases h : p.forbidVexEvex with
  | false => rw [guardPrefixes_of_not_forbid h]; simp
  | true => rcases guardPrefixes_of_forbid h d with hd | hd <;> simp [hd]

/-- The legacy form after its opcode. -/
theorem decodeLegacy_eq_ok {bs : List Byte} : decodeLegacy p total bs = .ok i ↔
    LegacyPrefixes p ∧ ∃ r reg o rest, bs = 0x0F :: 0x38 :: 0x40 :: r ∧
      takeModRm p.seg ((p.rex.getD 0).getLsbD 1) ((p.rex.getD 0).getLsbD 0) 1 r = some (reg, o, rest) ∧
        i = legacyForm p reg o (total - rest.length) := by
  constructor
  · intro h
    match bs, h with
    | e0 :: e1 :: op :: r, h =>
      simp only [decodeLegacy] at h
      split_ifs at h with h0 h1 h2 hop hrep hlock haddr
      · split at h <;> cases h
      · split at h <;> cases h
      · split at h
        · cases h
        · next reg o rest ht =>
          cases h
          simp only [ne_eq, Decidable.not_not, Bool.not_eq_true, Bool.not_eq_false'] at h0 h1 h2 hop hrep hlock haddr
          subst h0 h1 h2
          exact ⟨⟨hop, hrep, hlock, haddr⟩, r, reg, o, rest, rfl, ht, rfl⟩
    | [e0, e1], h => simp only [decodeLegacy] at h; split_ifs at h
    | [e0], h => simp only [decodeLegacy] at h; split_ifs at h
  · rintro ⟨⟨hop, hrep, hlock, haddr⟩, r, reg, o, rest, rfl, ht, rfl⟩
    simp only [decodeLegacy, ne_eq, not_true_eq_false, if_false, hop, hrep, hlock, haddr, Bool.not_true,
      Bool.false_eq_true, ht, legacyForm]

theorem decodeVexBody_eq_ok {v1 v2 op : Byte} {r : List Byte} : decodeVexBody p total v1 v2 op r = .ok i ↔
    p.addrSize = false ∧ v1.extractLsb' 0 5 = 2 ∧ v2.extractLsb' 0 2 = 1 ∧ op = 0x40 ∧ ∃ reg o rest,
      takeModRm p.seg (!v1.getLsbD 6) (!v1.getLsbD 5) 1 r = some (reg, o, rest) ∧
        i = vexForm v1 v2 reg o (total - rest.length) := by
  constructor
  · intro h
    simp only [decodeVexBody] at h
    split at h
    · cases h
    · next hhdr =>
      simp only [ne_eq, not_or, Decidable.not_not] at hhdr
      obtain ⟨hmap, hpp, hop⟩ := hhdr
      split at h
      · cases h
      · next reg o rest ht =>
        by_cases haddr : p.addrSize = true
        · rw [if_pos haddr] at h; cases h
        · rw [if_neg haddr, ← apply_ite Decoded.ok] at h
          cases h
          exact ⟨Bool.eq_false_of_not_eq_true haddr, hmap, hpp, hop, reg, o, rest, ht, rfl⟩
  · rintro ⟨haddr, hmap, hpp, rfl, reg, o, rest, ht, rfl⟩
    simp only [decodeVexBody, hmap, hpp, ne_eq, not_true_eq_false, or_self, if_false, ht, haddr, Bool.false_eq_true,
      vexForm, apply_ite Decoded.ok]

theorem decodeEvexBody_eq_ok {p0 p1 p2 op : Byte} {r : List Byte} : decodeEvexBody p total p0 p1 p2 op r = .ok i ↔
    p.addrSize = false ∧ p0.extractLsb' 0 2 = 2 ∧ p1.extractLsb' 0 2 = 1 ∧ op = 0x40 ∧ ∃ reg o rest,
      takeModRm p.seg (!p0.getLsbD 6) (!p0.getLsbD 5) (evexScale p1 p2) r = some (reg, o, rest) ∧
        evexInvalid p0 p1 p2 o.isReg = false ∧ i = evexForm p0 p1 p2 reg o (total - rest.length) := by
  constructor
  · intro h
    simp only [decodeEvexBody] at h
    split at h
    · cases h
    · next hhdr =>
      simp only [ne_eq, not_or, Decidable.not_not] at hhdr
      obtain ⟨hmap, hpp, hop⟩ := hhdr
      split at h
      · cases h
      · next reg o rest ht =>
        split_ifs at h with hinv haddr
        cases h
        exact ⟨Bool.eq_false_of_not_eq_true haddr, hmap, hpp, hop, reg, o, rest, ht,
          Bool.eq_false_of_not_eq_true hinv, rfl⟩
  · rintro ⟨haddr, hmap, hpp, rfl, reg, o, rest, ht, hinv, rfl⟩
    rw [evexScale] at ht
    simp only [decodeEvexBody, hmap, hpp, ne_eq, not_true_eq_false, or_self, if_false, ht, hinv, haddr,
      Bool.false_eq_true, evexForm]

/-- The decoder after the prefixes answers an instruction exactly for bytes that spell it, with anything after them. -/
theorem decodeAfter_eq_ok {lead : Byte} {r : List Byte} : decodeAfter p total lead r = .ok i ↔
    ∃ used rest, r = used ++ rest ∧ Spells p (total - rest.length) lead used i := by
  constructor
  · intro h
    unfold decodeAfter at h
    split_ifs at h with h62 hC4
    · subst h62
      match r, h with
      | p0 :: p1 :: p2 :: op :: r, h =>
        obtain ⟨hforbid, hbody⟩ := guardPrefixes_eq_ok.mp h
        obtain ⟨haddr, hmap, hpp, rfl, reg, o, rest, ht, hinv, rfl⟩ := decodeEvexBody_eq_ok.mp hbody
        obtain ⟨used, rfl, ht'⟩ := takeModRm_eq_some_iff.mp ht
        exact ⟨_ :: _ :: _ :: _ :: used, rest, rfl, .evex ⟨hforbid, haddr⟩ hmap hpp hinv ht'⟩
    · subst hC4
      match r, h with
      | v1 :: v2 :: op :: r, h =>
        obtain ⟨hforbid, hbody⟩ := guardPrefixes_eq_ok.mp h
        obtain ⟨haddr, hmap, hpp, rfl, reg, o, rest, ht, rfl⟩ := decodeVexBody_eq_ok.mp hbody
        obtain ⟨used, rfl, ht'⟩ := takeModRm_eq_some_iff.mp ht
        exact ⟨_ :: _ :: _ :: used, rest, rfl, .vex ⟨hforbid, haddr⟩ hmap hpp ht'⟩
    · obtain ⟨hp, r', reg, o, rest, hr, ht, rfl⟩ := decodeLegacy_eq_ok.mp h
      obtain ⟨rfl, rfl⟩ := List.cons.inj hr
      obtain ⟨used, rfl, ht'⟩ := takeModRm_eq_some_iff.mp ht
      exact ⟨_ :: _ :: used, rest, rfl, .legacy hp ht'⟩
  · rintro ⟨used, rest, rfl, h⟩
    cases h with
    | legacy hp ht => exact decodeLegacy_eq_ok.mpr ⟨hp, _, _, _, rest, rfl, takeModRm_append ht rest, rfl⟩
    | vex hp hmap hpp ht =>
      exact guardPrefixes_eq_ok.mpr ⟨hp.1,
        decodeVexBody_eq_ok.mpr ⟨hp.2, hmap, hpp, rfl, _, _, rest, takeModRm_append ht rest, rfl⟩⟩
    | evex hp hmap hpp hinv ht =>
      exact guardPrefixes_eq_ok.mpr ⟨hp.1,
        decodeEvexBody_eq_ok.mpr ⟨hp.2, hmap, hpp, rfl, _, _, rest, takeModRm_append ht rest, hinv, rfl⟩⟩

end

end Sys2Proof.Machine
end

section
/-!
PROOFS. The decoder on whole byte strings: `decode_prefixed` removes the prefixes and the bound of 15 bytes
(30_encoding.md R56, R57), `decode_eq_ok_iff` says which strings are an instruction. From them the statements about the
bytes after an instruction, about its row's pattern (R78) and about a redundant prefix (R57).
-/
namespace Sys2Proof.Machine
open Sys2Proof.Safety

/-! ## Prefixes and the bound on the length -/

/-- A list of prefixes is what the decoder consumes. -/
theorem allPrefixes_iff {pre : List Byte} : AllPrefixes pre ↔ ∀ b ∈ pre, (classifyPrefix b).isSome = true := by
  have table : ∀ b : Byte, (b ∈ ([0x66, 0xF2, 0xF3, 0xF0, 0x2E, 0x36, 0x3E, 0x26, 0x64, 0x65, 0x67] : List Byte) ∨
      b.extractLsb' 4 4 = 4) ↔ (classifyPrefix b).isSome = true := by decide
  exact forall₂_congr fun b _ => table b

theorem allPrefixes_append {pre pre' : List Byte} : AllPrefixes (pre ++ pre') ↔ AllPrefixes pre ∧ AllPrefixes pre' :=
  List.forall_mem_append

theorem allPrefixes_cons {b : Byte} {pre : List Byte} :
    AllPrefixes (b :: pre) ↔ (classifyPrefix b).isSome = true ∧ AllPrefixes pre := by
  rw [allPrefixes_iff, allPrefixes_iff, List.forall_mem_cons]

/-- A byte that is no prefix, as the claims say it. -/
theorem not_allPrefixes_singleton {lead : Byte} : ¬ AllPrefixes [lead] ↔ classifyPrefix lead = none := by
  rw [allPrefixes_iff, List.forall_mem_singleton, Bool.not_eq_true, Option.isSome_eq_false_iff, Option.isNone_iff_eq_none]

/-- Prefixes are consumed one list after the other. -/
theorem scanPrefixes_prefixesOf_append {pre : List Byte} (hpre : AllPrefixes pre) (bs : List Byte) :
    scanPrefixes {} (pre ++ bs) = scanPrefixes (prefixesOf pre) bs := by
  obtain ⟨p, hp⟩ := scanPrefixes_append (allPrefixes_iff.mp hpre) {}
  have hpre' : prefixesOf pre = p := by rw [prefixesOf, ← List.append_nil pre, hp, scanPrefixes]
  rw [hp, hpre']

/-- Within 15 bytes the decoder answers what it reads after the prefixes, whatever follows. -/
theorem decode_prefixed {pre hd : List Byte} {lead : Byte} {d : Decoded} (hpre : AllPrefixes pre)
    (hlead : classifyPrefix lead = none) (hlen : pre.length + 1 + hd.length ≤ 15) (hd' : d ≠ .truncated)
    (h : ∀ t : List Byte, decodeAfter (prefixesOf pre) (pre.length + 1 + hd.length + t.length) lead (hd ++ t) = d)
    (rest : List Byte) : decode (pre ++ lead :: (hd ++ rest)) = d := by
  obtain ⟨t, ht⟩ : ∃ t, (pre ++ lead :: (hd ++ rest)).take Config.maxInstrLen = pre ++ lead :: (hd ++ t) := by
    refine ⟨rest.take (15 - (pre.length + 1 + hd.length)), ?_⟩
    have hsplit (bs : List Byte) : pre ++ lead :: (hd ++ bs) = (pre ++ lead :: hd) ++ bs := by simp
    have hlength : (pre ++ lead :: hd).length = pre.length + 1 + hd.length := by simp; omega
    rw [hsplit, hsplit, List.take_append, hlength, List.take_of_length_le (by rw [hlength]; exact hlen)]
  have hu : decodeUnbounded (pre ++ lead :: (hd ++ t)) = d := by
    have htotal : (pre ++ lead :: (hd ++ t)).length = pre.length + 1 + hd.length + t.length := by simp; omega
    rw [decodeUnbounded_prefixed hpre hlead, htotal]
    exact h t
  rw [decode, ht, hu]
  split
  · exact absurd rfl hd'
  · rfl

/-- An instruction is prefixes, a first byte and the bytes after it that spell it, at most 15 of them, with anything
after them. -/
theorem decode_eq_ok_iff {pre r : List Byte} {lead : Byte} {i : Instr} (hpre : AllPrefixes pre)
    (hlead : classifyPrefix lead = none) : decode (pre ++ lead :: r) = .ok i ↔
      ∃ used rest, r = used ++ rest ∧ pre.length + 1 + used.length ≤ 15 ∧
        Spells (prefixesOf pre) (pre.length + 1 + used.length) lead used i := by
  constructor
  · intro h
    have hu := decodeUnbounded_of_decode h
    rw [List.take_append] at hu
    cases hk : Config.maxInstrLen - pre.length with
    | zero =>
      rw [hk, List.take_zero, List.append_nil,
        decodeUnbounded_allPrefixes fun b hb => hpre b (List.mem_of_mem_take hb)] at hu
      cases hu
    | succ k =>
      rw [hk, List.take_succ_cons, List.take_of_length_le (by omega), decodeUnbounded_prefixed hpre hlead] at hu
      obtain ⟨used, rest, hr, hs⟩ := decodeAfter_eq_ok.mp hu
      have hlength : used.length + rest.length = (r.take k).length := by rw [hr, List.length_append]
      have htotal : (pre ++ lead :: r.take k).length - rest.length = pre.length + 1 + used.length := by
        rw [List.length_append, List.length_cons]; omega
      have hmax : pre.length + (k + 1) = 15 := by
        have : Config.maxInstrLen = 15 := rfl
        omega
      have htake := List.length_take_le k r
      refine ⟨used, rest ++ r.drop k, ?_, by omega, htotal ▸ hs⟩
      rw [← List.append_assoc, ← hr, List.take_append_drop]
  · rintro ⟨used, rest, rfl, hlen, hs⟩
    refine decode_prefixed hpre hlead hlen (by simp) (fun t => decodeAfter_eq_ok.mpr ⟨used, t, rfl, ?_⟩) rest
    rwa [Nat.add_sub_cancel]

/-- Bytes that are an instruction begin with prefixes and a byte that is none. -/
theorem exists_prefixes_of_decode {bytes : List Byte} {i : Instr} (h : decode bytes = .ok i) :
    ∃ pre lead r, bytes = pre ++ lead :: r ∧ AllPrefixes pre ∧ classifyPrefix lead = none := by
  obtain ⟨pre, hbytes, hpre, hlead⟩ := scanPrefixes_spec bytes {}
  cases hrest : (scanPrefixes {} bytes).2 with
  | cons lead r => exact ⟨pre, lead, r, hrest ▸ hbytes, allPrefixes_iff.mpr hpre, hlead lead r hrest⟩
  | nil =>
    rw [hrest, List.append_nil] at hbytes
    have hu := decodeUnbounded_of_decode h
    rw [hbytes, decodeUnbounded_allPrefixes fun b hb => allPrefixes_iff.mpr hpre b (List.mem_of_mem_take hb)] at hu
    cases hu

/-! ## The length of an instruction (R56) -/

theorem len_evexRow (w : Bool) (ll : BitVec 2) (dst src1 : VReg) (mask : Mask) (src2 : Src2) (len : Nat) :
    (evexRow w ll dst src1 mask src2 len).len = len := by
  unfold evexRow; split_ifs <;> rfl

theorem withLen_evexRow (w : Bool) (ll : BitVec 2) (dst src1 : VReg) (mask : Mask) (src2 : Src2) (len n : Nat) :
    (evexRow w ll dst src1 mask src2 len).withLen n = evexRow w ll dst src1 mask src2 n := by
  unfold evexRow; split_ifs <;> rfl

theorem withLen_vexForm (v1 v2 : Byte) (reg : BitVec 3) (o : RmOperand) (len n : Nat) :
    (vexForm v1 v2 reg o len).withLen n = vexForm v1 v2 reg o n := by
  unfold vexForm; split_ifs <;> rfl

section
variable {p : Prefixes} {len : Nat} {lead : Byte} {used : List Byte} {i : Instr}

theorem Spells.len_eq (h : Spells p len lead used i) : i.len = len := by
  cases h with
  | legacy => rfl
  | vex => unfold vexForm; split_ifs <;> rfl
  | evex => exact len_evexRow ..

/-- The same bytes after more or fewer prefixes that say the same. -/
theorem Spells.withLen (h : Spells p len lead used i) (n : Nat) : Spells p n lead used (i.withLen n) := by
  cases h with
  | legacy hp ht => exact .legacy hp ht
  | vex hp hmap hpp ht => rw [withLen_vexForm]; exact .vex hp hmap hpp ht
  | evex hp hmap hpp hinv ht => rw [evexForm, withLen_evexRow]; exact .evex hp hmap hpp hinv ht

theorem Spells.addrSize (h : Spells p len lead used i) : p.addrSize = false := by
  cases h with
  | legacy hp =>
    obtain ⟨_, _, _, haddr⟩ := hp
    exact haddr
  | vex hp => exact hp.2
  | evex hp => exact hp.2

end

/-! ## The bytes after an instruction -/

/-- Settles O3: what spells the instruction is its first `len` bytes. -/
theorem decodeReadsOnlyItsBytes : Obligations.DecodeReadsOnlyItsBytes := by
  intro bytes rest i h
  obtain ⟨pre, lead, r, rfl, hpre, hlead⟩ := exists_prefixes_of_decode h
  obtain ⟨used, rest', rfl, hlen, hs⟩ := (decode_eq_ok_iff hpre hlead).mp h
  have htake : (pre ++ lead :: (used ++ rest')).take i.len = pre ++ lead :: used := by
    have hsplit : pre ++ lead :: (used ++ rest') = (pre ++ lead :: used) ++ rest' := by simp
    rw [hsplit, List.take_left' (by rw [hs.len_eq]; simp; omega)]
  rw [htake, List.append_assoc, List.cons_append]
  exact (decode_eq_ok_iff hpre hlead).mpr ⟨used, rest, rfl, hlen, hs⟩

/-- More bytes after an instruction leave its decoding. -/
theorem decode_append {bytes : List Byte} {i : Instr} (h : decode bytes = .ok i) (t : List Byte) :
    decode (bytes ++ t) = .ok i := by
  have := decodeReadsOnlyItsBytes bytes (bytes.drop i.len ++ t) i h
  rwa [← List.append_assoc, List.take_append_drop] at this

/-! ## A redundant prefix (R57) -/

/-- Settles O9: the prefix says nothing, and the same bytes spell the instruction one byte longer. -/
theorem ignoredSegmentPrefixOnlyLengthens : Obligations.IgnoredSegmentPrefixOnlyLengthens := by
  intro b bytes i hb h hi
  have hclass : classifyPrefix b = some .segIgnored := by rcases hb with rfl | rfl | rfl | rfl <;> rfl
  obtain ⟨pre, lead, r, rfl, hpre, hlead⟩ := exists_prefixes_of_decode h
  obtain ⟨used, rest, rfl, hlen, hs⟩ := (decode_eq_ok_iff hpre hlead).mp h
  have hpre' : AllPrefixes (b :: pre) := allPrefixes_cons.mpr ⟨by rw [hclass]; rfl, hpre⟩
  have hsame : prefixesOf (b :: pre) = prefixesOf pre := by rw [prefixesOf, scanPrefixes_step hclass]; rfl
  have hs' := hs.withLen (i.len + 1)
  rw [hs.len_eq] at hi hs' ⊢
  refine (decode_eq_ok_iff (pre := b :: pre) hpre' hlead).mpr ⟨used, rest, rfl, ?_, ?_⟩
  · rw [List.length_cons]; omega
  · rw [hsame, List.length_cons, show pre.length + 1 + 1 + used.length = pre.length + 1 + used.length + 1 by omega]
    exact hs'

/-! ## The pattern of the row (R78) -/

theorem matchesPattern_cons {mask want b : Byte} {ps : List (Byte × Byte)} {bs : List Byte} :
    matchesPattern ((mask, want) :: ps) (b :: bs) = true ↔ b &&& mask = want ∧ matchesPattern ps bs = true := by
  rw [matchesPattern, Bool.and_eq_true, beq_iff_eq]

theorem matchesPattern_append {ps : List (Byte × Byte)} {bs : List Byte} (h : matchesPattern ps bs = true)
    (t : List Byte) : matchesPattern ps (bs ++ t) = true := by
  induction ps generalizing bs with
  | nil => rfl
  | cons q ps ih =>
    cases bs with
    | nil => cases h
    | cons b bs =>
      obtain ⟨hb, hbs⟩ := matchesPattern_cons.mp h
      exact matchesPattern_cons.mpr ⟨hb, ih hbs⟩

/-- The header fields the decoder tests are those of the patterns' masks. -/
theorem vexV1_pattern : ∀ v1 : Byte, v1.extractLsb' 0 5 = 2 → v1 &&& 0x1F = 0x02 := by decide

theorem vexV2_pattern : ∀ v2 : Byte, v2.extractLsb' 0 2 = 1 →
    v2 &&& 0x07 = if v2.getLsbD 2 then 0x05 else 0x01 := by
  decide

theorem evexP0_pattern : ∀ p0 : Byte, p0.extractLsb' 0 2 = 2 → p0.extractLsb' 2 2 = 0 → p0 &&& 0x0F = 0x02 := by
  decide

theorem evexP1_pattern : ∀ p1 : Byte, p1.extractLsb' 0 2 = 1 → p1.getLsbD 2 = true →
    p1 &&& 0x87 = if p1.getLsbD 7 then 0x85 else 0x05 := by
  decide

theorem evexP2_pattern : ∀ p2 : Byte, p2.extractLsb' 5 2 ≠ 3 →
    p2 &&& 0x60 = if p2.extractLsb' 5 2 = 0 then 0x00 else if p2.extractLsb' 5 2 = 1 then 0x20 else 0x40 := by
  decide

/-- The pattern of the row an EVEX form selects. -/
theorem rowPattern_evexRow (w : Bool) (ll : BitVec 2) (dst src1 : VReg) (mask : Mask) (src2 : Src2) (len : Nat) :
    rowPattern (evexRow w ll dst src1 mask src2 len) =
      [(0xFF, 0x62), (0x0F, 0x02), (0x87, if w then 0x85 else 0x05),
        (0x60, if ll = 0 then 0x00 else if ll = 1 then 0x20 else 0x40), (0xFF, 0x40)] := by
  unfold evexRow; split_ifs <;> rfl

theorem Spells.matchesPattern {p : Prefixes} {len : Nat} {lead : Byte} {used : List Byte} {i : Instr}
    (h : Spells p len lead used i) : matchesPattern (rowPattern i) (lead :: used) = true := by
  cases h with
  | legacy => rfl
  | @vex v1 v2 r reg o hp hmap hpp ht =>
    have hrow : rowPattern (vexForm v1 v2 reg o len) =
        [(0xFF, 0xC4), (0x1F, 0x02), (0x07, if v2.getLsbD 2 then 0x05 else 0x01), (0xFF, 0x40)] := by
      unfold vexForm; split_ifs <;> rfl
    rw [hrow]
    simp only [matchesPattern_cons]
    exact ⟨rfl, vexV1_pattern v1 hmap, vexV2_pattern v2 hpp, rfl, rfl⟩
  | @evex p0 p1 p2 r reg o hp hmap hpp hinv ht =>
    have hcond := mt evexInvalid_eq_true.mpr (Bool.eq_false_iff.mp hinv)
    simp only [not_or, ne_eq, Decidable.not_not, Bool.not_eq_false] at hcond
    obtain ⟨hreserved, hfixed, hll, _⟩ := hcond
    rw [evexForm, rowPattern_evexRow]
    simp only [matchesPattern_cons]
    exact ⟨rfl, evexP0_pattern p0 hmap hreserved, evexP1_pattern p1 hpp hfixed, evexP2_pattern p2 hll, rfl, rfl⟩

/-- Settles O5: `Spells.matchesPattern`. -/
theorem decodedRowMatchesItsPattern : Obligations.DecodedRowMatchesItsPattern := by
  intro pre rest lead i hpre hlead h
  obtain ⟨used, rest', rfl, _, hs⟩ := (decode_eq_ok_iff hpre (not_allPrefixes_singleton.mp hlead)).mp h
  exact matchesPattern_append hs.matchesPattern rest'

end Sys2Proof.Machine
end

section
/-!
PROOFS. The decoder off the nine rows: the neighbours that are refused by name (30_encoding.md R79), by
`decode_refused` for an opcode that is refused and `decode_addrSize` for a 67h prefix; and the ignored bits VEX.W and
REX.W (R54, R58), by `decode_congr`, since the decoder reads neither.
-/
namespace Sys2Proof.Machine
open Sys2Proof.Safety

/-! ## Refused opcodes -/

/-- Bytes whose first 15 end before the instruction does are refused as too long. -/
theorem decode_tooLong {bytes : List Byte} (h : decodeUnbounded (bytes.take Config.maxInstrLen) = .truncated)
    (hlen : Config.maxInstrLen ≤ bytes.length) : decode bytes = .reject .tooLong := by
  rw [decode, h]
  exact if_pos hlen

/-- A header that is refused as soon as it is complete, after any prefixes: by its name where the prefixes leave room for
it in 15 bytes. -/
theorem decode_refused {pre hd : List Byte} {lead : Byte} {why : Reject} {room : Nat} (hpre : AllPrefixes pre)
    (hlead : classifyPrefix lead = none) (hroom : room + 1 + hd.length = 15)
    (hcut : ∀ k, k < hd.length → ∀ total, decodeAfter (prefixesOf pre) total lead (hd.take k) = .truncated)
    (hwhy : ∀ total t, decodeAfter (prefixesOf pre) total lead (hd ++ t) = .reject why) (rest : List Byte) :
    decode (pre ++ lead :: (hd ++ rest)) = .reject (if pre.length ≤ room then why else .tooLong) := by
  by_cases hfits : pre.length ≤ room
  case pos =>
    rw [if_pos hfits]
    exact decode_prefixed hpre hlead (by omega) (by simp) (fun t => hwhy _ t) rest
  case neg =>
    have hmax : Config.maxInstrLen = 15 := rfl
    rw [if_neg hfits]
    refine decode_tooLong ?_ (by simp only [List.length_append, List.length_cons]; omega)
    rw [List.take_append]
    cases hk : Config.maxInstrLen - pre.length with
    | zero =>
      rw [List.take_zero, List.append_nil]
      exact decodeUnbounded_allPrefixes fun b hb => hpre b (List.mem_of_mem_take hb)
    | succ k =>
      rw [List.take_succ_cons, List.take_of_length_le (by omega), List.take_append_of_le_length (by omega),
        decodeUnbounded_prefixed hpre hlead]
      exact hcut k (by omega) _

section
variable {p : Prefixes} (total : Nat)

theorem decodeAfter_legacy_noOperandSize (hop : p.opSize = false) (t : List Byte) :
    decodeAfter p total 0x0F ([0x38, 0x40] ++ t) = .reject .noOperandSizePrefix := by
  simp [decodeAfter, decodeLegacy, hop]

theorem decodeAfter_legacy_repeat (hop : p.opSize = true) (hrep : p.rep = true) (t : List Byte) :
    decodeAfter p total 0x0F ([0x38, 0x40] ++ t) = .reject .repeatPrefix := by
  simp [decodeAfter, decodeLegacy, hop, hrep]

theorem decodeAfter_legacy_cut {k : Nat} (hk : k < 2) :
    decodeAfter p total 0x0F (([0x38, 0x40] : List Byte).take k) = .truncated := by
  match k, hk with
  | 0, _ | 1, _ => rfl

theorem decodeAfter_vex_otherOpcode (hp : p.forbidVexEvex = false) {v1 v2 op : Byte}
    (h : v1.extractLsb' 0 5 ≠ 2 ∨ v2.extractLsb' 0 2 ≠ 1 ∨ op ≠ 0x40) (t : List Byte) :
    decodeAfter p total 0xC4 ([v1, v2, op] ++ t) = .reject .notThisFamily := by
  have hbody : decodeVexBody p total v1 v2 op t = .reject .notThisFamily := if_pos h
  rw [← hbody, ← guardPrefixes_of_not_forbid hp (decodeVexBody p total v1 v2 op t)]
  rfl

theorem decodeAfter_vex_cut (v1 v2 op : Byte) {k : Nat} (hk : k < 3) :
    decodeAfter p total 0xC4 ([v1, v2, op].take k) = .truncated := by
  match k, hk with
  | 0, _ | 1, _ | 2, _ => rfl

theorem decodeAfter_evex_otherOpcode (hp : p.forbidVexEvex = false) {p0 p1 p2 op : Byte}
    (h : p0.extractLsb' 0 2 ≠ 2 ∨ p1.extractLsb' 0 2 ≠ 1 ∨ op ≠ 0x40) (t : List Byte) :
    decodeAfter p total 0x62 ([p0, p1, p2, op] ++ t) = .reject .notThisFamily := by
  have hbody : decodeEvexBody p total p0 p1 p2 op t = .reject .notThisFamily := if_pos h
  rw [← hbody, ← guardPrefixes_of_not_forbid hp (decodeEvexBody p total p0 p1 p2 op t)]
  rfl

theorem decodeAfter_evex_cut (p0 p1 p2 op : Byte) {k : Nat} (hk : k < 4) :
    decodeAfter p total 0x62 ([p0, p1, p2, op].take k) = .truncated := by
  match k, hk with
  | 0, _ | 1, _ | 2, _ | 3, _ => rfl

end

/-- No forbidden prefix, as the decoder's flags say it (60_exceptions.md R112). -/
theorem forbidVexEvex_eq_false {pre : List Byte} (hpre : AllPrefixes pre) (h : NoVexForbiddenPrefix pre) :
    (prefixesOf pre).forbidVexEvex = false := by
  obtain ⟨hF0, h66, hF2, hF3, hrex⟩ := h
  rw [Bool.eq_false_iff, ne_eq, forbidVexEvex_prefixesOf hpre]
  rintro ⟨b, hb, rfl | rfl | rfl | rfl | hb'⟩
  · exact hF0 hb
  · exact h66 hb
  · exact hF2 hb
  · exact hF3 hb
  · exact hrex b hb hb'

/-! ## The 67h prefix (R57, R79) -/

theorem addrSize_prefixesOf {pre : List Byte} (hpre : AllPrefixes pre) :
    (prefixesOf pre).addrSize = true ↔ 0x67 ∈ pre := by
  rw [flag_prefixesOf (flag := (·.addrSize)) (raises := (· == .addrSize)) (q := (· = 0x67)) rfl
    (fun p c => by cases c <;> simp [Prefixes.add]) (by decide) hpre, exists_eq_right]

/-- Bytes with 67h among their prefixes are no instruction. -/
theorem decode_ne_ok_of_addrSize {pre rest : List Byte} (hpre : AllPrefixes pre) (h67 : 0x67 ∈ pre) (i : Instr) :
    decode (pre ++ rest) ≠ .ok i := by
  intro h
  obtain ⟨pre', lead, r, hbytes, hpre', hlead⟩ := exists_prefixes_of_decode h
  have hsub : pre ⊆ pre' := by
    rcases List.append_eq_append_iff.mp hbytes with ⟨c, rfl, _⟩ | ⟨c, rfl, hc⟩
    · exact List.subset_append_left pre c
    · cases c with
      | nil => simp
      | cons lead' c =>
        obtain ⟨rfl, _⟩ := List.cons.inj hc
        have hsome := allPrefixes_iff.mp hpre lead (by simp)
        rw [hlead] at hsome
        cases hsome
  rw [hbytes] at h
  obtain ⟨used, _, _, _, hs⟩ := (decode_eq_ok_iff hpre' hlead).mp h
  exact Bool.false_ne_true (hs.addrSize.symm.trans ((addrSize_prefixesOf hpre').mpr (hsub h67)))

/-- The flags that decide on the shape's own conditions are the same. -/
structure SameFlags (p p' : Prefixes) : Prop where
  opSize : p'.opSize = p.opSize
  rep : p'.rep = p.rep
  lock : p'.lock = p.lock
  forbid : p'.forbidVexEvex = p.forbidVexEvex

/-- 67h put among prefixes leaves these flags. -/
theorem sameFlags_addrSize {pre pre' : List Byte} (hpre : AllPrefixes pre) (hpre' : AllPrefixes pre') :
    SameFlags (prefixesOf (pre ++ pre')) (prefixesOf (pre ++ 0x67 :: pre')) := by
  have hold : AllPrefixes (pre ++ pre') := allPrefixes_append.mpr ⟨hpre, hpre'⟩
  have hnew : AllPrefixes (pre ++ 0x67 :: pre') :=
    allPrefixes_append.mpr ⟨hpre, allPrefixes_cons.mpr ⟨by decide, hpre'⟩⟩
  refine ⟨?_, ?_, ?_, ?_⟩ <;> rw [Bool.eq_iff_iff]
  · rw [opSize_prefixesOf hnew, opSize_prefixesOf hold]; simp
  · rw [rep_prefixesOf hnew, rep_prefixesOf hold]; simp [or_and_right, exists_or]
  · rw [lock_prefixesOf hnew, lock_prefixesOf hold]; simp
  · rw [forbidVexEvex_prefixesOf hnew, forbidVexEvex_prefixesOf hold]; simp [or_and_right, exists_or]

/-- Under the flags of an instruction and 67h, its bytes are refused for the 67h: the operand is complete, whatever the
prefixes make of it. -/
theorem Spells.decodeAfter_addrSize {p p' : Prefixes} {len total : Nat} {lead : Byte} {used : List Byte} {i : Instr}
    (h : Spells p len lead used i) (hf : SameFlags p p') (haddr : p'.addrSize = true) (t : List Byte) :
    decodeAfter p' total lead (used ++ t) = .reject .addressSizePrefix := by
  have htaken {ov : Option Seg} {x b : Bool} {n : Nat} {r : List Byte} {reg : BitVec 3} {o : RmOperand}
      (ht : takeModRm ov x b n r = some (reg, o, [])) (ov' : Option Seg) (x' b' : Bool) (n' : Nat) :
      ∃ o', takeModRm ov' x' b' n' (r ++ t) = some (reg, o', t) ∧ o'.isReg = o.isReg := by
    obtain ⟨used, hr, hused⟩ := takeModRm_used ht
    obtain ⟨o', ho', hreg⟩ := hused ov' x' b' n'
    rw [List.append_nil] at hr
    exact ⟨o', hr ▸ takeModRm_append ho' t, hreg⟩
  cases h with
  | legacy hp ht =>
    obtain ⟨hop, hrep, hlock, _⟩ := hp
    obtain ⟨o', ho', _⟩ := htaken ht p'.seg ((p'.rex.getD 0).getLsbD 1) ((p'.rex.getD 0).getLsbD 0) 1
    simp only [decodeAfter, decodeLegacy, List.cons_append, hf.opSize, hop, hf.rep, hrep, hf.lock, hlock, haddr, ho']
    rfl
  | @vex v1 v2 r _ _ hp hmap hpp ht =>
    obtain ⟨o', ho', _⟩ := htaken ht p'.seg (!v1.getLsbD 6) (!v1.getLsbD 5) 1
    have hbody : decodeVexBody p' total v1 v2 0x40 (r ++ t) = .reject .addressSizePrefix := by
      simp only [decodeVexBody, hmap, hpp, ne_eq, not_true_eq_false, or_self, if_false, ho', haddr, if_true]
    rw [← hbody, ← guardPrefixes_of_not_forbid (hf.forbid.trans hp.1) (decodeVexBody ..)]
    rfl
  | @evex p0 p1 p2 r _ _ hp hmap hpp hinv ht =>
    obtain ⟨o', ho', hreg⟩ := htaken ht p'.seg (!p0.getLsbD 6) (!p0.getLsbD 5) (evexScale p1 p2)
    rw [evexScale] at ho'
    have hbody : decodeEvexBody p' total p0 p1 p2 0x40 (r ++ t) = .reject .addressSizePrefix := by
      simp only [decodeEvexBody, hmap, hpp, ne_eq, not_true_eq_false, or_self, if_false, ho', hreg, hinv, haddr,
        if_true, Bool.false_eq_true]
    rw [← hbody, ← guardPrefixes_of_not_forbid (hf.forbid.trans hp.1) (decodeEvexBody ..)]
    rfl

/-- A 67h put among the prefixes of an instruction of fewer than 15 bytes is refused by name. -/
theorem decode_addrSize {pre pre' rest : List Byte} {lead : Byte} {i : Instr} (hpre : AllPrefixes pre)
    (hpre' : AllPrefixes pre') (hlead : classifyPrefix lead = none)
    (h : decode (pre ++ pre' ++ lead :: rest) = .ok i) (hi : i.len < 15) :
    decode (pre ++ 0x67 :: pre' ++ lead :: rest) = .reject .addressSizePrefix := by
  have hnew : AllPrefixes (pre ++ 0x67 :: pre') :=
    allPrefixes_append.mpr ⟨hpre, allPrefixes_cons.mpr ⟨by decide, hpre'⟩⟩
  obtain ⟨used, rest', rfl, _, hs⟩ := (decode_eq_ok_iff (allPrefixes_append.mpr ⟨hpre, hpre'⟩) hlead).mp h
  have haddr : (prefixesOf (pre ++ 0x67 :: pre')).addrSize = true := (addrSize_prefixesOf hnew).mpr (by simp)
  have hlen := hs.len_eq
  simp only [List.length_append] at hlen
  refine decode_prefixed hnew hlead ?_ (by simp) (fun t => ?_) rest'
  · simp only [List.length_append, List.length_cons]; omega
  · exact hs.decodeAfter_addrSize (sameFlags_addrSize hpre hpre') haddr t

/-- Settles O8: the first five parts are headers for `decode_refused`, the last two are about 67h. -/
theorem neighbourEncodingsRefused : Obligations.NeighbourEncodingsRefused := by
  intro pre rest hpre
  refine ⟨fun h66 => ?noOpSize, fun h66 hrep => ?rep, ?twoByteVex, fun hno v1 v2 op h => ?vex,
    fun hno p0 p1 p2 op h => ?evex, fun h67 i => decode_ne_ok_of_addrSize hpre h67 i,
    fun pre' lead i hpre' hlead h hi => decode_addrSize hpre hpre' (not_allPrefixes_singleton.mp hlead) h hi⟩
  case noOpSize =>
    have hop : (prefixesOf pre).opSize = false := Bool.eq_false_iff.mpr (mt (opSize_prefixesOf hpre).mp h66)
    exact decode_refused (hd := [0x38, 0x40]) hpre (by decide) rfl (fun _ hk _ => decodeAfter_legacy_cut _ hk)
      (fun _ t => decodeAfter_legacy_noOperandSize _ hop t) rest
  case rep =>
    have hop : (prefixesOf pre).opSize = true := (opSize_prefixesOf hpre).mpr h66
    have hrep' : (prefixesOf pre).rep = true := (rep_prefixesOf hpre).mpr (by
      rcases hrep with h | h
      · exact ⟨_, h, .inl rfl⟩
      · exact ⟨_, h, .inr rfl⟩)
    exact decode_refused (hd := [0x38, 0x40]) hpre (by decide) rfl (fun _ hk _ => decodeAfter_legacy_cut _ hk)
      (fun _ t => decodeAfter_legacy_repeat _ hop hrep' t) rest
  case twoByteVex =>
    exact decode_refused (hd := []) hpre (by decide) rfl (fun _ hk => absurd hk (Nat.not_lt_zero _))
      (fun _ _ => rfl) rest
  case vex =>
    exact decode_refused (hd := [v1, v2, op]) hpre (by decide) rfl (fun _ hk _ => decodeAfter_vex_cut _ v1 v2 op hk)
      (fun _ t => decodeAfter_vex_otherOpcode _ (forbidVexEvex_eq_false hpre hno) h t) rest
  case evex =>
    exact decode_refused (hd := [p0, p1, p2, op]) hpre (by decide) rfl
      (fun _ hk _ => decodeAfter_evex_cut _ p0 p1 p2 op hk)
      (fun _ t => decodeAfter_evex_otherOpcode _ (forbidVexEvex_eq_false hpre hno) h t) rest

/-! ## The ignored bits (R54, R58) -/

/-- The answer depends on the bytes through `decodeUnbounded` and their number. -/
theorem decode_congr {pre r r' : List Byte} (hlen : r'.length = r.length)
    (h : ∀ k, decodeUnbounded (pre ++ r'.take k) = decodeUnbounded (pre ++ r.take k)) :
    decode (pre ++ r') = decode (pre ++ r) := by
  have hu : decodeUnbounded ((pre ++ r').take Config.maxInstrLen) =
      decodeUnbounded ((pre ++ r).take Config.maxInstrLen) := by
    rw [List.take_append, List.take_append]
    cases hk : Config.maxInstrLen - pre.length with
    | zero => rw [List.take_zero, List.take_zero]
    | succ k => rw [List.take_of_length_le (by omega)]; exact h (k + 1)
  rw [decode, decode, hu, List.length_append, List.length_append, hlen]

/-- The fields of the second VEX byte that the decoder reads. -/
theorem fields_xor_vexW : ∀ v2 : Byte, (v2 ^^^ 0x80).extractLsb' 0 2 = v2.extractLsb' 0 2 ∧
    (v2 ^^^ 0x80).extractLsb' 3 4 = v2.extractLsb' 3 4 ∧ (v2 ^^^ 0x80).getLsbD 2 = v2.getLsbD 2 := by
  decide

theorem decodeVex_xor_vexW (p : Prefixes) (total : Nat) (v1 v2 : Byte) (r : List Byte) :
    decodeVex p total (v1 :: (v2 ^^^ 0x80) :: r) = decodeVex p total (v1 :: v2 :: r) := by
  obtain ⟨hpp, hvvvv, hl⟩ := fields_xor_vexW v2
  cases r with
  | nil => rfl
  | cons op r => simp only [decodeVex, decodeVexBody, hpp, hvvvv, hl]

theorem decodeUnbounded_xor_vexW {pre : List Byte} (hpre : AllPrefixes pre) (v1 v2 : Byte) (r : List Byte) :
    decodeUnbounded (pre ++ 0xC4 :: v1 :: (v2 ^^^ 0x80) :: r) = decodeUnbounded (pre ++ 0xC4 :: v1 :: v2 :: r) := by
  have hlead : classifyPrefix 0xC4 = none := by decide
  rw [decodeUnbounded_prefixed hpre hlead, decodeUnbounded_prefixed hpre hlead, List.length_append, List.length_append]
  exact decodeVex_xor_vexW ..

/-- The prefixes agree but for bits of the REX byte above B, X and R. -/
structure SameButRexW (p p' : Prefixes) : Prop where
  rest : p' = { p with rex := p'.rex }
  bits : ∀ j, j < 3 → (p'.rex.getD 0).getLsbD j = (p.rex.getD 0).getLsbD j

theorem SameButRexW.add {p p' : Prefixes} (h : SameButRexW p p') (c : PrefixKind) :
    SameButRexW (p.add c) (p'.add c) := by
  rw [h.rest]
  cases c <;> exact ⟨rfl, fun _ _ => rfl⟩

theorem SameButRexW.scanPrefixes {p p' : Prefixes} (h : SameButRexW p p') (bs : List Byte) :
    SameButRexW (scanPrefixes p bs).1 (scanPrefixes p' bs).1 ∧ (scanPrefixes p' bs).2 = (scanPrefixes p bs).2 := by
  induction bs generalizing p p' with
  | nil => exact ⟨h, rfl⟩
  | cons b bs ih =>
    cases hc : classifyPrefix b with
    | none => rw [scanPrefixes_stop hc, scanPrefixes_stop hc]; exact ⟨h, rfl⟩
    | some c => rw [scanPrefixes_step hc, scanPrefixes_step hc]; exact ih (h.add c)

theorem SameButRexW.decodeAfter {p p' : Prefixes} (h : SameButRexW p p') (total : Nat) (lead : Byte) (r : List Byte) :
    decodeAfter p' total lead r = decodeAfter p total lead r := by
  obtain ⟨hrest, hbits⟩ := h
  have hb := hbits 0 (by decide)
  have hx := hbits 1 (by decide)
  have hr := hbits 2 (by decide)
  rw [hrest]
  unfold Machine.decodeAfter
  split_ifs
  · rfl
  · rfl
  · simp only [decodeLegacy, hb, hx, hr]

/-- The decoder from the prefixes on. -/
def decodeFrom (p : Prefixes) (total : Nat) (bs : List Byte) : Decoded :=
  match (scanPrefixes p bs).2 with
  | [] => .truncated
  | lead :: r => decodeAfter (scanPrefixes p bs).1 total lead r

theorem decodeUnbounded_append {pre : List Byte} (hpre : AllPrefixes pre) (bs : List Byte) :
    decodeUnbounded (pre ++ bs) = decodeFrom (prefixesOf pre) (pre ++ bs).length bs := by
  rw [decodeUnbounded, scanPrefixes_prefixesOf_append hpre]
  rfl

/-- A REX byte is the same prefix with its W bit flipped. -/
theorem rex_xor_w : ∀ b : Byte, b.extractLsb' 4 4 = 4 → classifyPrefix b = some (.rex b) ∧
    classifyPrefix (b ^^^ 0x08) = some (.rex (b ^^^ 0x08)) ∧
    ∀ j, j < 3 → (b ^^^ 0x08).getLsbD j = b.getLsbD j := by
  decide

theorem decodeFrom_xor_rexW {rex : Byte} (hrex : rex.extractLsb' 4 4 = 4) (p : Prefixes) (total : Nat)
    (bs : List Byte) : decodeFrom p total ((rex ^^^ 0x08) :: bs) = decodeFrom p total (rex :: bs) := by
  obtain ⟨hc, hc', hbits⟩ := rex_xor_w rex hrex
  have hsame : SameButRexW (p.add (.rex rex)) (p.add (.rex (rex ^^^ 0x08))) := ⟨rfl, hbits⟩
  obtain ⟨hp, hbs⟩ := hsame.scanPrefixes bs
  rw [decodeFrom, decodeFrom, scanPrefixes_step hc, scanPrefixes_step hc', hbs]
  cases (scanPrefixes (p.add (.rex rex)) bs).2 with
  | nil => rfl
  | cons lead r => exact hp.decodeAfter total lead r

/-- Settles O10: the decoder reads neither bit. -/
theorem wBitsIgnored : Obligations.WBitsIgnored := by
  intro pre rest v1 v2 rex hpre
  refine ⟨decode_congr rfl fun k => ?vexW, fun hrex => decode_congr rfl fun k => ?rexW⟩
  case vexW =>
    match k with
    | 0 | 1 | 2 => rfl
    | k + 3 => exact decodeUnbounded_xor_vexW hpre v1 v2 (rest.take k)
  case rexW =>
    cases k with
    | zero => rfl
    | succ k =>
      rw [List.take_succ_cons, List.take_succ_cons, decodeUnbounded_append hpre, decodeUnbounded_append hpre,
        decodeFrom_xor_rexW hrex, List.length_append, List.length_append]
      rfl

end Sys2Proof.Machine
end

section
/-!
PROOFS. What the decoder answers is well-formed (30_encoding.md R56, R60 to R73). `TakenOperand` says it of the memory
operand, with the bytes it takes; the prefixes make up the segment override, the REX byte and the 66h
(`weight_prefixesOf`).
-/
namespace Sys2Proof.Machine
open Sys2Proof.Safety

/-! ## Displacements (R62, R70) -/

theorem setWidth_signExtend {w v : Nat} (h : w ≤ v) (x : BitVec w) : (x.signExtend v).setWidth w = x := by
  apply BitVec.eq_of_getLsbD_eq
  intro j hj
  simp only [BitVec.getLsbD_setWidth, BitVec.getLsbD_signExtend, hj, decide_true, Bool.true_and, if_true]
  rw [decide_eq_true (by omega), Bool.true_and]

/-- A disp32 is one (R62). -/
theorem dispFits32_signExtend (x : BitVec 32) : dispFits32 (x.signExtend 64) = true := by
  rw [dispFits32, setWidth_signExtend (by decide), beq_self_eq_true]

section
variable {n : Nat} (hn : n ≤ 64) (d : Byte)
include hn

/-- A scaled disp8 does not overflow, in 64 bits or in 32. -/
theorem toInt_scaled_disp8 {w : Nat} (hw : 32 ≤ w) :
    (d.signExtend w * BitVec.ofNat w n).toInt = d.toInt * n := by
  have hpow : 2 ^ 32 ≤ 2 ^ w := Nat.pow_le_pow_right Nat.two_pos hw
  have hlow : -128 ≤ d.toInt := BitVec.le_toInt d
  have hhigh : d.toInt < 128 := BitVec.toInt_lt
  have hn' : (n : Int) ≤ 64 := by exact_mod_cast hn
  have hmin : -8192 ≤ d.toInt * n := by nlinarith
  have hmax : d.toInt * n ≤ 8192 := by nlinarith
  have hfactor : (BitVec.ofNat w n).toInt = n := by
    rw [BitVec.toInt_ofNat']
    exact Int.bmod_eq_of_le_mul_two (by omega) (by omega)
  rw [BitVec.toInt_mul, BitVec.toInt_signExtend_of_le (by omega), hfactor]
  exact Int.bmod_eq_of_le_mul_two (by omega) (by omega)

/-- A scaled disp8 fits a disp32. -/
theorem dispFits32_scaled_disp8 : dispFits32 (d.signExtend 64 * BitVec.ofNat 64 n) = true := by
  have hnarrow : d.signExtend 64 * BitVec.ofNat 64 n = (d.signExtend 32 * BitVec.ofNat 32 n).signExtend 64 := by
    apply BitVec.eq_of_toInt_eq
    rw [BitVec.toInt_signExtend_of_le (by decide), toInt_scaled_disp8 hn d (by decide),
      toInt_scaled_disp8 hn d (by decide)]
  rw [hnarrow]
  exact dispFits32_signExtend _

/-- The encoder finds the disp8 that a scaled one stands for. -/
theorem disp8Of_scaled_disp8 (hpos : 0 < n) :
    disp8Of n (d.signExtend 64 * BitVec.ofNat 64 n) = some d := by
  have hfactor : (BitVec.ofNat 64 n).toInt = n := by
    rw [BitVec.toInt_ofNat']
    exact Int.bmod_eq_of_le_mul_two (by omega) (by omega)
  have hne : BitVec.ofNat 64 n ≠ -1#64 := by
    intro h
    have := congrArg BitVec.toInt h
    rw [hfactor, show (-1#64 : Word).toInt = -1 from rfl] at this
    omega
  have hquot : (d.signExtend 64 * BitVec.ofNat 64 n).sdiv (BitVec.ofNat 64 n) = d.signExtend 64 := by
    apply BitVec.eq_of_toInt_eq
    rw [BitVec.toInt_sdiv_of_ne_or_ne _ _ (.inr hne), toInt_scaled_disp8 hn d (by decide), hfactor,
      Int.mul_tdiv_cancel _ (by omega), BitVec.toInt_signExtend_of_le (by decide)]
  simp only [disp8Of, hquot, setWidth_signExtend (show 8 ≤ 64 by decide), if_true]

end

theorem takeDisp32_fits {bs rest : List Byte} {disp : Word} (h : takeDisp32 bs = some (disp, rest)) :
    dispFits32 disp = true ∧ 4 + rest.length ≤ bs.length := by
  match bs, h with
  | _ :: _ :: _ :: _ :: _, h =>
    obtain ⟨rfl, rfl⟩ := Prod.mk.inj (Option.some.inj h)
    exact ⟨dispFits32_signExtend _, by simp only [List.length_cons]; omega⟩

/-- The displacement of a form with a base fits, and the shortest one for it is no longer than the bytes taken. -/
theorem takeDisp_fits {mod : BitVec 2} {n : Nat} (hpos : 0 < n) (hn : n ≤ 64) {bs rest : List Byte} {ea : AddrForm}
    {base : Gpr} (hbase : ea.base = some base) (h5 : ¬ (mod = 0 ∧ base.val % 8 = 5))
    (h : takeDisp mod n bs = some (ea.disp, rest)) :
    dispFits32 ea.disp = true ∧ ea.dispLen n + rest.length ≤ bs.length := by
  simp only [AddrForm.dispLen, hbase]
  unfold takeDisp at h
  split_ifs at h with h0 h1
  · obtain ⟨hd, rfl⟩ := Prod.mk.inj (Option.some.inj h)
    rw [← hd, if_pos ⟨rfl, fun h => h5 ⟨h0, h⟩⟩]
    exact ⟨rfl, by omega⟩
  · cases bs with
    | nil => cases h
    | cons d bs =>
      obtain ⟨hd, rfl⟩ := Prod.mk.inj (Option.some.inj h)
      rw [← hd, disp8Of_scaled_disp8 hn d hpos]
      refine ⟨dispFits32_scaled_disp8 hn d, ?_⟩
      simp only [Option.isSome_some, if_true, List.length_cons]
      split_ifs <;> omega
  · obtain ⟨hfits, hlen⟩ := takeDisp32_fits h
    exact ⟨hfits, by split_ifs <;> omega⟩

/-! ## Segments and register numbers -/

/-- The overrides there are (R57). -/
def IsOverride (ov : Option Seg) : Prop := ov = none ∨ ov = some .fs ∨ ov = some .gs

theorem defaultSeg_ne (base : Option Gpr) : defaultSeg base ≠ .fs ∧ defaultSeg base ≠ .gs := by
  revert base; decide

/-- A segment in force is the override or the default, and an override takes a prefix. -/
theorem segInForce_spec {ov : Option Seg} (h : IsOverride ov) {ea : AddrForm} (hseg : ea.seg = segInForce ov ea.base) :
    (ea.seg = .fs ∨ ea.seg = .gs ∨ ea.seg = defaultSeg ea.base) ∧ ea.segLen ≤ ov.toList.length := by
  obtain ⟨hfs, hgs⟩ := defaultSeg_ne ea.base
  rw [AddrForm.segLen, hseg]
  rcases h with rfl | rfl | rfl
  · exact ⟨.inr (.inr rfl), by rw [if_neg (by rintro (h | h); exacts [hfs h, hgs h])]; exact Nat.zero_le _⟩
  · exact ⟨.inl rfl, by rw [if_pos (.inl rfl)]; rfl⟩
  · exact ⟨.inr (.inl rfl), by rw [if_pos (.inr rfl)]; rfl⟩

/-- Without its extension bit a register number is below 8. -/
theorem regNum_false_lt (lo : BitVec 3) : ¬ 8 ≤ (regNum false lo).val := by
  revert lo; decide

/-- The low three bits of a register number, as the addressing forms test them. -/
theorem regNum_mod_eight_eq_five_iff (b : Bool) (lo : BitVec 3) : (regNum b lo).val % 8 = 5 ↔ lo = 5 := by
  revert b lo; decide

theorem regNum_mod_eight_eq_four_iff (b : Bool) (lo : BitVec 3) : (regNum b lo).val % 8 = 4 ↔ lo = 4 := by
  revert b lo; decide

/-! ## The memory operand (R60 to R64) -/

theorem addrForm_wellFormed_iff {ea : AddrForm} : ea.wellFormed = true ↔
    ea.index ≠ some 4 ∧ (ea.index = none → ea.scale = 0) ∧ (ea.ripRel = true → ea.base = none ∧ ea.index = none) ∧
      dispFits32 ea.disp = true ∧ (ea.seg = .fs ∨ ea.seg = .gs ∨ ea.seg = defaultSeg ea.base) := by
  simp only [AddrForm.wellFormed, Bool.and_eq_true, Bool.or_eq_true, bne_iff_ne, ne_eq, beq_iff_eq, Bool.not_eq_true',
    Option.isNone_iff_eq_none, and_assoc, or_assoc]
  cases ea.index <;> cases ea.ripRel <;> simp

/-- A memory operand taken from `size` bytes after ModRM, under an override and extension bits. -/
structure TakenOperand (ov : Option Seg) (x b : Bool) (n size : Nat) (ea : AddrForm) : Prop where
  wellFormed : ea.wellFormed = true
  extraLen : ea.extraLen n ≤ size + ov.toList.length
  base : b = false → ea.base.any (8 ≤ ·.val) = false
  index : x = false → ea.index.any (8 ≤ ·.val) = false

section
variable {ov : Option Seg} (hov : IsOverride ov) {x b : Bool} {n : Nat} (hpos : 0 < n) (hn : n ≤ 64)
  {bs rest : List Byte}

include hov in
/-- RIP-relative: a disp32, no SIB byte (R64). -/
theorem takenOperand_ripRel {disp : Word} (hd : takeDisp32 bs = some (disp, rest)) :
    TakenOperand ov x b n (bs.length - rest.length)
      { seg := segInForce ov none, base := none, index := none, scale := 0, disp, ripRel := true } := by
  obtain ⟨hfits, hlen⟩ := takeDisp32_fits hd
  obtain ⟨hseg, hsegLen⟩ := segInForce_spec hov
    (ea := { seg := segInForce ov none, base := none, index := none, scale := 0, disp, ripRel := true }) rfl
  refine ⟨addrForm_wellFormed_iff.mpr ⟨by simp, fun _ => rfl, fun _ => ⟨rfl, rfl⟩, hfits, hseg⟩, ?_, fun _ => rfl,
    fun _ => rfl⟩
  simp only [AddrForm.extraLen, AddrForm.needsSib, AddrForm.dispLen, Bool.not_true, Bool.false_and,
    Bool.false_eq_true, if_false]
  omega

include hpos hn

/-- The parts of a SIB operand (R61), and the bytes of its displacement. -/
theorem takeSib_parts {mod : BitVec 2} {sib : Byte} {ea : AddrForm}
    (h : takeSib ov x b n mod (sib :: bs) = some (ea, rest)) :
    ea.seg = segInForce ov ea.base ∧ ea.ripRel = false ∧
      (ea.index = if regNum x (sib.extractLsb' 3 3) = 4 then none else some (regNum x (sib.extractLsb' 3 3))) ∧
      (regNum x (sib.extractLsb' 3 3) = 4 → ea.scale = 0) ∧
      (ea.base = none ∨ ea.base = some (regNum b (sib.extractLsb' 0 3))) ∧
      dispFits32 ea.disp = true ∧ ea.dispLen n + rest.length ≤ bs.length := by
  simp only [takeSib] at h
  by_cases h5 : mod = 0 ∧ sib.extractLsb' 0 3 = 5
  · rw [if_pos h5] at h
    split at h
    · next hd =>
      cases h
      exact ⟨rfl, rfl, rfl, fun h => if_pos h, .inl rfl, takeDisp32_fits hd⟩
    · cases h
  · rw [if_neg h5] at h
    split at h
    · next hd =>
      cases h
      exact ⟨rfl, rfl, rfl, fun h => if_pos h, .inr rfl,
        takeDisp_fits hpos hn rfl (by rwa [regNum_mod_eight_eq_five_iff]) hd⟩
    · cases h

include hov

/-- A base without a SIB byte (R60). -/
theorem takenOperand_base {mod : BitVec 2} {rm : BitVec 3} {disp : Word} (h4 : rm ≠ 4) (h5 : ¬ (mod = 0 ∧ rm = 5))
    (hd : takeDisp mod n bs = some (disp, rest)) :
    TakenOperand ov x b n (bs.length - rest.length) (baseOperand ov (regNum b rm) disp) := by
  obtain ⟨hfits, hlen⟩ := takeDisp_fits (ea := baseOperand ov (regNum b rm) disp) hpos hn rfl
    (by rwa [regNum_mod_eight_eq_five_iff]) hd
  obtain ⟨hseg, hsegLen⟩ := segInForce_spec hov (ea := baseOperand ov (regNum b rm) disp) rfl
  have hsib : (baseOperand ov (regNum b rm) disp).needsSib = false := by
    simpa [AddrForm.needsSib, baseOperand, regNum_mod_eight_eq_four_iff] using h4
  refine ⟨addrForm_wellFormed_iff.mpr ⟨by simp [baseOperand], fun _ => rfl, nofun, hfits, hseg⟩, ?_,
    fun hb => ?_, fun _ => rfl⟩
  · rw [AddrForm.extraLen, hsib, if_neg Bool.false_ne_true]
    omega
  · subst hb
    simpa [baseOperand] using regNum_false_lt rm

/-- A SIB byte with its displacement (R61). -/
theorem takenOperand_sib {mod : BitVec 2} {ea : AddrForm} (h : takeSib ov x b n mod bs = some (ea, rest)) :
    TakenOperand ov x b n (bs.length - rest.length) ea := by
  cases bs with
  | nil => cases h
  | cons sib bs =>
    obtain ⟨hseg, hrip, hindex, hscale, hbase, hfits, hlen⟩ := takeSib_parts hpos hn h
    obtain ⟨hseg', hsegLen⟩ := segInForce_spec hov hseg
    refine ⟨addrForm_wellFormed_iff.mpr ⟨?index4, ?scale0, fun h => ?rip, hfits, hseg'⟩, ?len, fun hb => ?base8,
      fun hx => ?index8⟩
    case index4 =>
      rw [hindex]
      split_ifs with h4
      · simp
      · simpa using h4
    case scale0 =>
      rw [hindex]
      split_ifs with h4
      · exact fun _ => hscale h4
      · exact nofun
    case rip => rw [hrip] at h; cases h
    case len =>
      rw [AddrForm.extraLen, List.length_cons]
      split_ifs <;> omega
    case base8 =>
      subst hb
      rcases hbase with h | h <;> rw [h]
      · rfl
      · simpa using regNum_false_lt (sib.extractLsb' 0 3)
    case index8 =>
      subst hx
      rw [hindex]
      split_ifs
      · rfl
      · simpa using regNum_false_lt (sib.extractLsb' 3 3)

/-- ModRM takes a byte, and a memory operand the bytes after it. -/
theorem takenOperand_of_takeModRm {reg : BitVec 3} {o : RmOperand}
    (h : takeModRm ov x b n bs = some (reg, o, rest)) :
    rest.length < bs.length ∧ ∀ ea, o = .mem ea → TakenOperand ov x b n (bs.length - 1 - rest.length) ea := by
  have hlen : rest.length < bs.length := by
    obtain ⟨used, rfl, hused⟩ := takeModRm_used h
    cases used with
    | nil => obtain ⟨_, hnil, _⟩ := hused ov x b n; cases hnil
    | cons => simp only [List.length_append, List.length_cons]; omega
  refine ⟨hlen, ?_⟩
  cases bs with
  | nil => cases h
  | cons m bs =>
    rw [List.length_cons, Nat.add_sub_cancel]
    simp only [takeModRm] at h
    split_ifs at h with h3 h4 h5
    · cases h
      exact fun _ h => by cases h
    · split at h
      · next hs => cases h; rintro _ ⟨⟩; exact takenOperand_sib hov hpos hn hs
      · cases h
    · split at h
      · next hd => cases h; rintro _ ⟨⟩; exact takenOperand_ripRel hov hd
      · cases h
    · split at h
      · next hd => cases h; rintro _ ⟨⟩; exact takenOperand_base hov hpos hn h4 h5 hd
      · cases h

end

/-! ## What the prefixes are good for (R57 to R59) -/

/-- A REX byte, a segment override and 66h each take a prefix. -/
def prefixWeight (p : Prefixes) : Nat := p.opSize.toNat + p.seg.toList.length + p.rex.toList.length

theorem prefixWeight_add (p : Prefixes) (c : PrefixKind) : prefixWeight (p.add c) ≤ prefixWeight p + 1 := by
  have hop := Bool.toNat_le p.opSize
  cases c <;> simp only [Prefixes.add, prefixWeight, Option.toList_some, Option.toList_none, List.length_singleton,
    List.length_nil, Bool.toNat_true] <;> omega

theorem isOverride_add {p : Prefixes} (h : IsOverride p.seg) (c : PrefixKind) : IsOverride (p.add c).seg := by
  cases c with
  | segFs => exact .inr (.inl rfl)
  | segGs => exact .inr (.inr rfl)
  | _ => exact h

theorem scanPrefixes_weight (bs : List Byte) {p : Prefixes} (h : IsOverride p.seg) :
    IsOverride (scanPrefixes p bs).1.seg ∧ prefixWeight (scanPrefixes p bs).1 ≤ prefixWeight p + bs.length := by
  induction bs generalizing p with
  | nil => exact ⟨h, Nat.le_refl _⟩
  | cons b bs ih =>
    cases hc : classifyPrefix b with
    | none => rw [scanPrefixes_stop hc]; exact ⟨h, Nat.le_add_right _ _⟩
    | some c =>
      obtain ⟨hov, hw⟩ := ih (isOverride_add h c)
      have hadd := prefixWeight_add p c
      rw [scanPrefixes_step hc, List.length_cons]
      exact ⟨hov, by omega⟩

theorem weight_prefixesOf (pre : List Byte) :
    IsOverride (prefixesOf pre).seg ∧ prefixWeight (prefixesOf pre) ≤ pre.length := by
  obtain ⟨hov, hw⟩ := scanPrefixes_weight pre (p := {}) (.inl rfl)
  exact ⟨hov, hw.trans (by simp [prefixWeight])⟩

/-! ## The second source of each shape -/

section
variable {ov : Option Seg} (hov : IsOverride ov) {x b : Bool} {r : List Byte} {reg : BitVec 3} {o : RmOperand}
include hov

/-- Of a legacy or VEX form; without a REX bit no register number is above 7. -/
theorem regMem_of_takeModRm (h : takeModRm ov x b 1 r = some (reg, o, [])) :
    (o.toRegMem b).wellFormed = true ∧ (o.toRegMem b).extraLen + 1 ≤ r.length + ov.toList.length ∧
      (x = false → b = false → needsRex (regNum false reg) (o.toRegMem b) = false) := by
  obtain ⟨hlen, hmem⟩ := takenOperand_of_takeModRm hov (by decide) (by decide) h
  rw [List.length_nil] at hlen
  cases o with
  | reg rm =>
    refine ⟨rfl, by simp only [RmOperand.toRegMem, RegMem.extraLen]; omega, fun _ hb => ?_⟩
    subst hb
    simp [needsRex, RmOperand.toRegMem, regNum_false_lt]
  | mem ea =>
    obtain ⟨hwf, hextra, hbase, hindex⟩ := hmem ea rfl
    refine ⟨hwf, ?_, fun hx hb => ?_⟩
    · rw [List.length_nil] at hextra
      simp only [RmOperand.toRegMem, RegMem.extraLen]
      omega
    · simp only [needsRex, RmOperand.toRegMem, hbase hb, hindex hx, decide_eq_false (regNum_false_lt reg), Bool.or_self]

/-- Of an EVEX form. -/
theorem src2_of_takeModRm {elemBits vl : Nat} {bcst : Bool} (hpos : 0 < evexDisp8Scale elemBits vl bcst)
    (hn : evexDisp8Scale elemBits vl bcst ≤ 64)
    (h : takeModRm ov x b (evexDisp8Scale elemBits vl bcst) r = some (reg, o, [])) :
    (o.toSrc2 x b bcst).wellFormed = true ∧
      (o.toSrc2 x b bcst).extraLen elemBits vl + 1 ≤ r.length + ov.toList.length := by
  obtain ⟨hlen, hmem⟩ := takenOperand_of_takeModRm hov hpos hn h
  rw [List.length_nil] at hlen
  cases o with
  | reg rm => exact ⟨rfl, by simp only [RmOperand.toSrc2, Src2.extraLen]; omega⟩
  | mem ea =>
    obtain ⟨hwf, hextra, _, _⟩ := hmem ea rfl
    rw [List.length_nil] at hextra
    cases bcst with
    | false => exact ⟨hwf, show ea.extraLen _ + 1 ≤ _ by omega⟩
    | true => exact ⟨hwf, show ea.extraLen _ + 1 ≤ _ by omega⟩

end

/-- The writemask of an EVEX form names no k0 (R73). -/
theorem wellFormed_maskOf (z : Bool) (aaa : BitVec 3) : (maskOf z aaa).wellFormed = true := by
  revert z aaa; decide

theorem evexDisp8Scale_bounds (w bcst : Bool) (ll : BitVec 2) :
    0 < evexDisp8Scale (if w then 64 else 32) (vlOf ll) bcst ∧
      evexDisp8Scale (if w then 64 else 32) (vlOf ll) bcst ≤ 64 := by
  revert w bcst ll; decide

/-- The row's `N` and `VL` are the ones the header names (R55, R71). -/
theorem minLen_evexRow (w : Bool) (ll : BitVec 2) (dst src1 : VReg) (mask : Mask) (src2 : Src2) (len : Nat) :
    (evexRow w ll dst src1 mask src2 len).minLen = 6 + src2.extraLen (if w then 64 else 32) (vlOf ll) := by
  unfold evexRow vlOf; split_ifs <;> rfl

theorem operandsWellFormed_evexRow (w : Bool) (ll : BitVec 2) (dst src1 : VReg) (mask : Mask) (src2 : Src2)
    (len : Nat) : (evexRow w ll dst src1 mask src2 len).operandsWellFormed = (mask.wellFormed && src2.wellFormed) := by
  unfold evexRow; split_ifs <;> rfl

/-- Bytes that spell an instruction, after as many prefixes as it needs, give operands an encoding can spell and a length
its shortest encoding fits in. -/
theorem Spells.wellFormed {p : Prefixes} {len : Nat} {lead : Byte} {used : List Byte} {i : Instr}
    (h : Spells p len lead used i) (hov : IsOverride p.seg) (hlen : prefixWeight p + 1 + used.length ≤ len) :
    i.operandsWellFormed = true ∧ i.minLen ≤ len := by
  rw [prefixWeight] at hlen
  cases h with
  | @legacy r reg o hp ht =>
    obtain ⟨hop, _⟩ := hp
    obtain ⟨hwf, hextra, hrex⟩ := regMem_of_takeModRm hov ht
    simp only [List.length_cons, hop, Bool.toNat_true] at hlen
    refine ⟨hwf, ?_⟩
    simp only [legacyForm, Instr.minLen]
    cases hp' : p.rex with
    | none =>
      simp only [hp', Option.getD_none] at hrex hextra ⊢
      have hno : needsRex (regNum ((0 : Byte).getLsbD 2) reg) (o.toRegMem ((0 : Byte).getLsbD 0)) = false :=
        hrex rfl rfl
      rw [if_neg (Bool.eq_false_iff.mp hno)]
      omega
    | some rex =>
      simp only [hp', Option.getD_some, Option.toList_some, List.length_singleton] at hextra hlen ⊢
      split_ifs <;> omega
  | @vex v1 v2 r reg o hp hmap hpp ht =>
    obtain ⟨hwf, hextra, _⟩ := regMem_of_takeModRm hov ht
    simp only [List.length_cons] at hlen
    unfold vexForm
    split_ifs <;> exact ⟨hwf, by simp only [Instr.minLen]; omega⟩
  | @evex p0 p1 p2 r reg o hp hmap hpp hinv ht =>
    obtain ⟨hpos, hn⟩ := evexDisp8Scale_bounds (p1.getLsbD 7) (p2.getLsbD 4) (p2.extractLsb' 5 2)
    obtain ⟨hwf, hextra⟩ := src2_of_takeModRm hov hpos hn ht
    simp only [List.length_cons] at hlen
    rw [evexForm, operandsWellFormed_evexRow, minLen_evexRow, hwf, wellFormed_maskOf]
    exact ⟨rfl, by omega⟩

/-- Settles O2: `Spells.wellFormed`, with the prefixes that stand before the bytes. -/
theorem decodeGivesWellFormed : Obligations.DecodeGivesWellFormed := by
  intro bytes i h
  obtain ⟨pre, lead, r, rfl, hpre, hlead⟩ := exists_prefixes_of_decode h
  obtain ⟨used, rest, rfl, hmax, hs⟩ := (decode_eq_ok_iff hpre hlead).mp h
  obtain ⟨hov, hweight⟩ := weight_prefixesOf pre
  obtain ⟨hwf, hmin⟩ := hs.wellFormed hov (by omega)
  rw [Instr.wellFormed, hs.len_eq, hwf, decide_eq_true hmin, decide_eq_true (show _ ≤ Config.maxInstrLen from hmax)]
  exact ⟨rfl, by simp only [List.length_append, List.length_cons]; omega⟩

end Sys2Proof.Machine
end

section
/-!
PROOFS. Decoding undoes encoding (30_encoding.md R53 to R81). Each of the three encoders writes prefixes and then bytes
that spell its operands (`encodeLegacy_spells`, `encodeVex_spells`, `encodeEvex_spells`); padding in front changes
nothing but the length (`decode_encode`).
-/
namespace Sys2Proof.Machine
open Sys2Proof.Safety

/-! ## The prefixes the encoder writes (R57, R58) -/

/-- What the segment bytes of an operand are to the decoder: prefixes that say its override. -/
def SegmentPrefixes (segs : List Byte) (ov : Option Seg) : Prop :=
  AllPrefixes segs ∧ ∀ bs, scanPrefixes {} (segs ++ bs) = scanPrefixes { seg := ov } bs

theorem segmentPrefixes_nil : SegmentPrefixes [] none := ⟨nofun, fun _ => rfl⟩

theorem segmentPrefixes_addrForm (ea : AddrForm) : SegmentPrefixes ea.segBytes ea.override := by
  refine ⟨allPrefixes_iff.mpr ?_, scanPrefixes_segBytes ea⟩
  unfold AddrForm.segBytes
  cases ea.seg <;> decide

theorem segmentPrefixes_regMem (o : RegMem) : SegmentPrefixes o.segBytes o.override := by
  cases o with
  | reg n => exact segmentPrefixes_nil
  | mem ea => exact segmentPrefixes_addrForm ea

theorem segmentPrefixes_src2 (o : Src2) : SegmentPrefixes o.segBytes o.override := by
  cases o with
  | reg n => exact segmentPrefixes_nil
  | mem ea => exact segmentPrefixes_addrForm ea
  | bcst ea => exact segmentPrefixes_addrForm ea

theorem SegmentPrefixes.prefixesOf_append {segs : List Byte} {ov : Option Seg} (h : SegmentPrefixes segs ov)
    (tail : List Byte) : prefixesOf (segs ++ tail) = (scanPrefixes { seg := ov } tail).1 := by
  rw [prefixesOf, h.2]

theorem SegmentPrefixes.prefixesOf_eq {segs : List Byte} {ov : Option Seg} (h : SegmentPrefixes segs ov) :
    prefixesOf segs = { seg := ov } := by
  have := h.prefixesOf_append []
  rwa [List.append_nil] at this

/-- The encoder's padding says nothing. -/
theorem prefixesOf_padding (n : Nat) (pre : List Byte) :
    prefixesOf (List.replicate n 0x3E ++ pre) = prefixesOf pre := by
  rw [prefixesOf, scanPrefixes_padding _ _ _ rfl, prefixesOf]

/-! ## The three encoders -/

/-- Bit 3 of a register number. -/
theorem bit3_eq_decide (n : Fin 16) : bit3 n.val = decide (8 ≤ n.val) := by
  revert n; decide

/-- Where the encoder writes no REX byte, the bits it would hold are 0 (R58). -/
theorem bits_of_not_needsRex {dst : LoReg} {src : RegMem} (h : needsRex dst src = false) :
    bit3 dst.val = false ∧ src.xBit = false ∧ src.bBit = false := by
  rw [bit3_eq_decide]
  cases src with
  | reg n =>
    obtain ⟨hdst, hn⟩ := Bool.or_eq_false_iff.mp h
    exact ⟨hdst, rfl, (bit3_eq_decide n).trans hn⟩
  | mem ea =>
    simp only [needsRex, Bool.or_eq_false_iff] at h
    obtain ⟨⟨hdst, hbase⟩, hindex⟩ := h
    refine ⟨hdst, ?_, ?_⟩
    · simpa only [RegMem.xBit, AddrForm.xBit, bit3_eq_decide] using hindex
    · simpa only [RegMem.bBit, AddrForm.bBit, bit3_eq_decide] using hbase

/-- The legacy encoder (R59): 66h and the REX byte among the prefixes. -/
theorem encodeLegacy_spells (dst : LoReg) {src : RegMem} (h : src.wellFormed = true) :
    ∃ pre used, encodeLegacy dst src = pre ++ 0x0F :: used ∧ AllPrefixes pre ∧
      ∀ len, Spells (prefixesOf pre) len 0x0F used (.pmulldSse dst src len) := by
  obtain ⟨hsegs, _⟩ := segmentPrefixes_regMem src
  obtain ⟨rm, ht, hrm⟩ := takeModRm_regMem h (low3 dst.val) []
  rw [List.append_nil] at ht
  have hspells (p : Prefixes) (hp : LegacyPrefixes p) (hseg : p.seg = src.override)
      (hR : (p.rex.getD 0).getLsbD 2 = bit3 dst.val) (hX : (p.rex.getD 0).getLsbD 1 = src.xBit)
      (hB : (p.rex.getD 0).getLsbD 0 = src.bBit) (len : Nat) :
      Spells p len 0x0F (0x38 :: 0x40 :: src.modRmBytes (low3 dst.val)) (.pmulldSse dst src len) := by
    have hform : legacyForm p (low3 dst.val) rm len = .pmulldSse dst src len := by
      rw [legacyForm, hR, hB, regNum_bit3_low3, hrm]
    rw [← hform]
    exact .legacy hp (by rw [hseg, hX, hB]; exact ht)
  cases hrex : needsRex dst src with
  | false =>
    obtain ⟨hR, hX, hB⟩ := bits_of_not_needsRex hrex
    have hzero (j : Nat) : (0 : Byte).getLsbD j = false := BitVec.getLsbD_zero
    refine ⟨src.segBytes ++ [0x66], 0x38 :: 0x40 :: src.modRmBytes (low3 dst.val), ?_,
      allPrefixes_append.mpr ⟨hsegs, allPrefixes_iff.mpr (by decide)⟩, fun len => ?_⟩
    · simp [encodeLegacy, hrex]
    · rw [(segmentPrefixes_regMem src).prefixesOf_append]
      exact hspells { seg := src.override, opSize := true } ⟨rfl, rfl, rfl, rfl⟩ rfl
        ((hzero 2).trans hR.symm) ((hzero 1).trans hX.symm) ((hzero 0).trans hB.symm) len
  | true =>
    obtain ⟨hclass, hB, hX, hR⟩ := fields_rexByte (bit3 dst.val) src.xBit src.bBit
    refine ⟨src.segBytes ++ [0x66, rexByte (bit3 dst.val) src.xBit src.bBit],
      0x38 :: 0x40 :: src.modRmBytes (low3 dst.val), ?_, allPrefixes_append.mpr ⟨hsegs, ?_⟩, fun len => ?_⟩
    · simp [encodeLegacy, hrex]
    · exact allPrefixes_cons.mpr ⟨by decide, allPrefixes_cons.mpr ⟨by rw [hclass]; rfl, nofun⟩⟩
    · rw [(segmentPrefixes_regMem src).prefixesOf_append, scanPrefixes_step (c := .opSize) (by decide),
        scanPrefixes_step hclass]
      exact hspells { seg := src.override, opSize := true, rex := some _, rexSeen := true } ⟨rfl, rfl, rfl, rfl⟩ rfl
        hR hX hB len

/-- The first source of a VEX form, written inverted. -/
theorem vex_firstSource (n : LoReg) : Fin.ofNat 16 (~~~(~~~(BitVec.ofNat 4 n.val))).toNat = n := by
  revert n; decide

/-- The VEX encoder (R65 to R67). -/
theorem encodeVex_spells (l : Bool) (dst src1 : LoReg) {src2 : RegMem} (h : src2.wellFormed = true) :
    ∃ used, encodeVex l dst src1 src2 = src2.segBytes ++ 0xC4 :: used ∧
      ∀ len, Spells (prefixesOf src2.segBytes) len 0xC4 used
        (if l then .vpmulldVex256 dst src1 src2 len else .vpmulldVex128 dst src1 src2 len) := by
  obtain ⟨rm, ht, hrm⟩ := takeModRm_regMem h (low3 dst.val) []
  obtain ⟨hmap, hB, hX, hR⟩ := fields_vexV1 (!bit3 dst.val) (!src2.xBit) (!src2.bBit)
  obtain ⟨hpp, hl, hvvvv⟩ := fields_vexV2 false l (~~~(BitVec.ofNat 4 src1.val))
  refine ⟨_, by rw [encodeVex, List.append_assoc]; rfl, fun len => ?_⟩
  rw [List.append_nil] at ht
  rw [(segmentPrefixes_regMem src2).prefixesOf_eq]
  generalize BitVec.ofBool (!bit3 dst.val) ++ BitVec.ofBool (!src2.xBit) ++ BitVec.ofBool (!src2.bBit) ++
    (2 : BitVec 5) = v1 at *
  generalize BitVec.ofBool false ++ ~~~(BitVec.ofNat 4 src1.val) ++ BitVec.ofBool l ++ (1 : BitVec 2) = v2 at *
  have hform : vexForm v1 v2 (low3 dst.val) rm len =
      if l then .vpmulldVex256 dst src1 src2 len else .vpmulldVex128 dst src1 src2 len := by
    simp only [vexForm, hl, hvvvv, hR, hB, Bool.not_not, regNum_bit3_low3, hrm, vex_firstSource]
  rw [← hform]
  refine .vex ⟨rfl, rfl⟩ hmap hpp ?_
  rw [hX, hB, Bool.not_not, Bool.not_not]
  exact ht

/-- The `L'L` of a vector length (R71). -/
def llOf (vl : Nat) : BitVec 2 := if vl = 128 then 0 else if vl = 256 then 1 else 2

/-- The first source of an EVEX form, written inverted in two parts. -/
theorem evex_firstSource (n : VReg) :
    Fin.ofNat 32 (16 * (!!bit4 n.val).toNat + (~~~(~~~(BitVec.ofNat 4 n.val))).toNat) = n := by
  revert n; decide

/-- The EVEX encoder (R68 to R73). -/
theorem encodeEvex_spells {elemBits vl : Nat} (hshape : Shape elemBits vl) (dst src1 : VReg) {mask : Mask} {src2 : Src2}
    (hmask : mask.wellFormed = true) (h : src2.wellFormed = true) :
    ∃ used, encodeEvex elemBits vl dst src1 mask src2 = src2.segBytes ++ 0x62 :: used ∧
      ∀ len, Spells (prefixesOf src2.segBytes) len 0x62 used
        (evexRow (elemBits = 64) (llOf vl) dst src1 mask src2 len) := by
  obtain ⟨rm, ht, hrm, hbcst⟩ := takeModRm_src2 h elemBits vl (low3 dst.val) []
  obtain ⟨hmap, hreserved, hR', hB, hX, hR⟩ :=
    fields_evexP0 (!bit3 dst.val) (!src2.xBit) (!src2.bBit) (!bit4 dst.val)
  obtain ⟨hpp, hfixed, hvvvv, hw⟩ := fields_evexP1 (elemBits = 64) (~~~(BitVec.ofNat 4 src1.val))
  obtain ⟨haaa, hV', hb, hll, hz⟩ :=
    fields_evexP2 mask.isZeroing src2.isBcst (!bit4 src1.val) (llOf vl) mask.aaa
  obtain ⟨hmaskOf, hzmask⟩ := maskOf_isZeroing_aaa hmask
  have hbits : (if decide (elemBits = 64) = true then 64 else 32) = elemBits ∧ vlOf (llOf vl) = vl ∧ llOf vl ≠ 3 := by
    rcases hshape with ⟨rfl | rfl, rfl | rfl | rfl⟩ <;> decide
  obtain ⟨helem, hvl, hll3⟩ := hbits
  refine ⟨_, by rw [encodeEvex, List.append_assoc]; rfl, fun len => ?_⟩
  rw [List.append_nil] at ht
  rw [(segmentPrefixes_src2 src2).prefixesOf_eq, ← llOf]
  generalize BitVec.ofBool (!bit3 dst.val) ++ BitVec.ofBool (!src2.xBit) ++ BitVec.ofBool (!src2.bBit) ++
    BitVec.ofBool (!bit4 dst.val) ++ (2 : BitVec 4) = p0 at *
  generalize BitVec.ofBool (elemBits = 64) ++ ~~~(BitVec.ofNat 4 src1.val) ++ (5 : BitVec 3) = p1 at *
  generalize BitVec.ofBool mask.isZeroing ++ llOf vl ++ BitVec.ofBool src2.isBcst ++ BitVec.ofBool (!bit4 src1.val) ++
    mask.aaa = p2 at *
  have hform : evexForm p0 p1 p2 (low3 dst.val) rm len =
      evexRow (elemBits = 64) (llOf vl) dst src1 mask src2 len := by
    rw [evexForm, hw, hll, hR', hR, hV', hvvvv, hz, haaa, hX, hB, hb, hmaskOf, evex_firstSource, Bool.not_not,
      Bool.not_not, Bool.not_not, Bool.not_not, regNum32_bits_low3, hrm]
  rw [← hform]
  refine .evex ⟨rfl, rfl⟩ hmap hpp ?_ ?_
  · have hll3' : (llOf vl == 3) = false := beq_eq_false_iff_ne.mpr hll3
    rw [evexInvalid, hreserved, hfixed, hll, hz, haaa, hzmask, hb, hbcst, hll3']
    rfl
  · rw [evexScale, hw, hll, hb, helem, hvl, hX, hB, Bool.not_not, Bool.not_not]
    exact ht

/-! ## Every instruction -/

/-- The encoder writes `len` bytes. -/
theorem encode_length {i : Instr} (h : i.wellFormed = true) : (encode i).length = i.len := by
  cases i with
  | pmulldSse => exact Laws.EncodeLength.pmulldSse _ _ _ h
  | vpmulldVex128 => exact Laws.EncodeLength.vpmulldVex128 _ _ _ _ h
  | vpmulldVex256 => exact Laws.EncodeLength.vpmulldVex256 _ _ _ _ h
  | vpmulldEvex128 => exact Laws.EncodeLength.vpmulldEvex128 _ _ _ _ _ h
  | vpmulldEvex256 => exact Laws.EncodeLength.vpmulldEvex256 _ _ _ _ _ h
  | vpmulldEvex512 => exact Laws.EncodeLength.vpmulldEvex512 _ _ _ _ _ h
  | vpmullqEvex128 => exact Laws.EncodeLength.vpmullqEvex128 _ _ _ _ _ h
  | vpmullqEvex256 => exact Laws.EncodeLength.vpmullqEvex256 _ _ _ _ _ h
  | vpmullqEvex512 => exact Laws.EncodeLength.vpmullqEvex512 _ _ _ _ _ h

/-- The operands' shortest encoding is prefixes and bytes that spell the instruction. -/
def SpelledByEncoder (i : Instr) : Prop :=
  ∃ pre lead used, encodeOperands i = pre ++ lead :: used ∧ AllPrefixes pre ∧ classifyPrefix lead = none ∧
    Spells (prefixesOf pre) i.len lead used i

theorem spelledByEncoder_vex {i : Instr} {l : Bool} {dst src1 : LoReg} {src2 : RegMem} (h : src2.wellFormed = true)
    (hbytes : encodeOperands i = encodeVex l dst src1 src2)
    (hi : i = if l then .vpmulldVex256 dst src1 src2 i.len else .vpmulldVex128 dst src1 src2 i.len) :
    SpelledByEncoder i := by
  obtain ⟨used, hused, hs⟩ := encodeVex_spells l dst src1 h
  have hs' := hs i.len
  rw [← hi] at hs'
  exact ⟨_, 0xC4, used, hbytes.trans hused, (segmentPrefixes_regMem src2).1, by decide, hs'⟩

theorem spelledByEncoder_evex {i : Instr} {elemBits vl : Nat} {dst src1 : VReg} {mask : Mask} {src2 : Src2}
    (hshape : Shape elemBits vl) (h : (mask.wellFormed && src2.wellFormed) = true)
    (hbytes : encodeOperands i = encodeEvex elemBits vl dst src1 mask src2)
    (hi : i = evexRow (elemBits = 64) (llOf vl) dst src1 mask src2 i.len) : SpelledByEncoder i := by
  obtain ⟨hmask, hsrc⟩ := Bool.and_eq_true_iff.mp h
  obtain ⟨used, hused, hs⟩ := encodeEvex_spells hshape dst src1 hmask hsrc
  have hs' := hs i.len
  rw [← hi] at hs'
  exact ⟨_, 0x62, used, hbytes.trans hused, (segmentPrefixes_src2 src2).1, by decide, hs'⟩

theorem spelledByEncoder {i : Instr} (h : i.operandsWellFormed = true) : SpelledByEncoder i := by
  have hshape := shape_of_row i
  cases i with
  | pmulldSse dst src len =>
    obtain ⟨pre, used, hbytes, hpre, hs⟩ := encodeLegacy_spells dst h
    exact ⟨pre, 0x0F, used, hbytes, hpre, by decide, hs len⟩
  | vpmulldVex128 => exact spelledByEncoder_vex h rfl rfl
  | vpmulldVex256 => exact spelledByEncoder_vex h rfl rfl
  | vpmulldEvex128 | vpmulldEvex256 | vpmulldEvex512 | vpmullqEvex128 | vpmullqEvex256 | vpmullqEvex512 =>
    exact spelledByEncoder_evex hshape h rfl rfl

/-- The decoder reads back what the encoder writes, padding included, whatever follows. -/
theorem decode_encode {i : Instr} (h : i.wellFormed = true) (rest : List Byte) : decode (encode i ++ rest) = .ok i := by
  have hlength := encode_length h
  simp only [Instr.wellFormed, Bool.and_eq_true, decide_eq_true_eq] at h
  obtain ⟨⟨hwf, _⟩, hmax⟩ := h
  obtain ⟨pre, lead, used, hbytes, hpre, hlead, hs⟩ := spelledByEncoder hwf
  have hpre' : AllPrefixes (List.replicate (i.len - i.minLen) 0x3E ++ pre) := by
    refine allPrefixes_append.mpr ⟨allPrefixes_iff.mpr fun b hb => ?_, hpre⟩
    rw [List.eq_of_mem_replicate hb]
    rfl
  have hsplit : encode i = (List.replicate (i.len - i.minLen) 0x3E ++ pre) ++ lead :: used := by
    rw [encode, hbytes, List.append_assoc]
  have htotal : (List.replicate (i.len - i.minLen) 0x3E ++ pre).length + 1 + used.length = i.len := by
    have hsum := congrArg List.length hsplit
    rw [hlength, List.length_append, List.length_cons] at hsum
    omega
  rw [hsplit, List.append_assoc, List.cons_append]
  refine (decode_eq_ok_iff hpre' hlead).mpr ⟨used, rest, rfl, htotal.le.trans hmax, ?_⟩
  rw [htotal, prefixesOf_padding]
  exact hs

/-- Settles O1: `decode_encode`. -/
theorem decodeEncodeAgree : Obligations.DecodeEncodeAgree :=
  fun _ rest h => decode_encode h rest

/-- Settles O4, row by row, by running the decoder. -/
theorem workedExampleBytesDecode : Obligations.WorkedExampleBytesDecode := by
  refine ⟨?_, ?_, ?_, ?_, ?_, ?_, ?_, ?_, ?_⟩ <;> decide

end Sys2Proof.Machine
end

section
/-!
PROOFS. Steps at code that stands at `pc` (10_state.md R25, 20_memory.md R44, R52, 70_reset_and_hazards.md R134, R135):
`fetch_of_codeAt` says what a step fetches there, `decode_encode` what it reads from it.
-/
namespace Sys2Proof.Machine
open Sys2Proof.Safety

/-! ## Fetching code (20_memory.md R44, R52) -/

theorem add_ofNat_succ (a : Word) (k : Nat) : a + BitVec.ofNat 64 (k + 1) = a + 1 + BitVec.ofNat 64 k := by
  rw [BitVec.ofNat_add]; ac_rfl

/-- A fetch goes through bytes that stand in memory and are admitted, and on from there. -/
theorem fetchFrom_append (s : State) (start : Word) (bytes : List Byte) (n : Nat) (a : Word)
    (h : ∀ k, ∀ hk : k < bytes.length, s.readByte (a + BitVec.ofNat 64 k) = bytes[k] ∧
      s.fetchFault start (a + BitVec.ofNat 64 k) = none) :
    s.fetchFrom start (bytes.length + n) a =
      (bytes ++ (s.fetchFrom start n (a + BitVec.ofNat 64 bytes.length)).1,
        (s.fetchFrom start n (a + BitVec.ofNat 64 bytes.length)).2) := by
  induction bytes generalizing a with
  | nil => simp
  | cons b bytes ih =>
    have hhead := h 0 (Nat.succ_pos _)
    simp only [BitVec.add_zero, List.getElem_cons_zero] at hhead
    have htail := ih (a + 1) fun k hk => by
      rw [← add_ofNat_succ]
      exact h (k + 1) (Nat.succ_lt_succ hk)
    rw [List.length_cons, Nat.succ_add, State.fetchFrom, hhead.2, htail, hhead.1, add_ofNat_succ]
    rfl

/-- Short of 2^64 an address rises with its offset. -/
theorem le_add_ofNat {a : Word} {k : Nat} (h : a.toNat + k < 2 ^ 64) : a ≤ a + BitVec.ofNat 64 k := by
  rw [BitVec.le_def, BitVec.toNat_add, BitVec.toNat_ofNat, Nat.mod_eq_of_lt (show k < 2 ^ 64 by omega),
    Nat.mod_eq_of_lt h]
  omega

/-- In 64-bit mode a step fetches the code at `pc`, and goes on after it. -/
theorem fetch_of_codeAt {s : State} {bytes : List Byte} (hm : Mode64 s) (hc : CodeAt s.rip bytes s) {n : Nat}
    (hn : bytes.length + n = Config.maxInstrLen) :
    s.fetch = (bytes ++ (s.fetchFrom s.rip n (s.rip + BitVec.ofNat 64 bytes.length)).1,
      (s.fetchFrom s.rip n (s.rip + BitVec.ofNat 64 bytes.length)).2) := by
  rw [State.fetch, fetchAddr_of_mode64 hm, ← hn]
  refine fetchFrom_append s s.rip bytes n s.rip fun k hk => ?_
  obtain ⟨hwrap, hbyte, hcanonical, hfetchable⟩ := hc k hk
  refine ⟨hbyte, ?_⟩
  rw [State.fetchFault, State.canonicalFrom, hcanonical, hfetchable, decide_eq_true (le_add_ofNat hwrap)]
  rfl

/-- Code at `pc` that is an instruction is run, whatever stands after it. -/
theorem step_of_codeAt {s : State} {bytes : List Byte} {i : Instr} (hm : Mode64 s) (hc : CodeAt s.rip bytes s)
    (hlen : bytes.length ≤ 15) (hd : ∀ t, decode (bytes ++ t) = .ok i) : step s = exec i s := by
  refine step_of_decode hm ?_
  rw [fetch_of_codeAt (n := 15 - bytes.length) hm hc (Nat.add_sub_cancel' hlen)]
  exact hd _

/-- Code at `pc` that is no instruction yet leaves the fault of the byte after it. -/
theorem step_of_fetchFault {s : State} {bytes : List Byte} {f : Fault} (hm : Mode64 s) (hc : CodeAt s.rip bytes s)
    (hlen : bytes.length < 15) (hd : decode bytes = .truncated)
    (hf : s.fetchFault s.rip (s.rip + BitVec.ofNat 64 bytes.length) = some f) : step s = .fault f := by
  obtain ⟨n, hn⟩ : ∃ n, bytes.length + (n + 1) = Config.maxInstrLen := ⟨14 - bytes.length, by
    have : Config.maxInstrLen = 15 := rfl
    omega⟩
  have hfetch : s.fetch = (bytes, some f) := by
    rw [fetch_of_codeAt hm hc hn, State.fetchFrom, hf, List.append_nil]
  exact step_eq_fault.mpr ⟨hm, .inr (.inr ⟨by rw [hfetch]; exact hd, by rw [hfetch]⟩)⟩

/-! ## The statements about one step -/

/-- Settles O53: `decode_encode` for the code at `pc`. -/
theorem encodedInstructionRuns : Obligations.EncodedInstructionRuns := by
  intro s i hm hwf hc
  refine step_of_codeAt hm hc ?_ (decode_encode hwf)
  rw [encode_length hwf]
  simp only [Instr.wellFormed, Bool.and_eq_true, decide_eq_true_eq] at hwf
  exact hwf.2

/-- The shortest encoding of any operands has five bytes. -/
theorem five_le_minLen (i : Instr) : 5 ≤ i.minLen := by
  cases i <;> simp only [Instr.minLen] <;> omega

/-- Settles O54: the length is that of a well-formed instruction. -/
theorem stepAdvancesPastInstruction : Obligations.StepAdvancesPastInstruction := by
  intro s t h
  obtain ⟨i, hd, rfl⟩ := complete_of_step h
  obtain ⟨hwf, _⟩ := decodeGivesWellFormed _ _ hd
  simp only [Instr.wellFormed, Bool.and_eq_true, decide_eq_true_eq] at hwf
  obtain ⟨⟨_, hmin⟩, hmax⟩ := hwf
  exact ⟨i, hd, (five_le_minLen i).trans hmin, hmax, complete_rip ..⟩

/-- The fault of a code byte that is not canonical or stands past 2^64 (log 33). -/
theorem fetchFault_eq_gp0 {s : State} {n : Nat} (hn : n < 15)
    (h : s.canonical (s.rip + BitVec.ofNat 64 n) = false ∨ s.rip.toNat + n = 2 ^ 64) :
    s.fetchFault s.rip (s.rip + BitVec.ofNat 64 n) = some .gp0 := by
  have hfrom : s.canonicalFrom s.rip (s.rip + BitVec.ofNat 64 n) = false := by
    rcases h with hcanonical | hwrap
    · rw [State.canonicalFrom, hcanonical, Bool.and_false]
    · have hzero : s.rip + BitVec.ofNat 64 n = 0 := by
        apply BitVec.eq_of_toNat_eq
        rw [BitVec.toNat_add, BitVec.toNat_ofNat, Nat.mod_eq_of_lt (show n < 2 ^ 64 by omega), hwrap]
        rfl
      have hbelow : ¬ s.rip ≤ s.rip + BitVec.ofNat 64 n := by
        rw [hzero, BitVec.le_def, show (0 : Word).toNat = 0 from rfl]
        omega
      rw [State.canonicalFrom, decide_eq_false hbelow, Bool.false_and]
  rw [State.fetchFault, hfrom]
  rfl

/-- The fault of a canonical code byte that is not fetchable. -/
theorem fetchFault_eq_pf {s : State} {n : Nat} (hcanonical : s.canonical (s.rip + BitVec.ofNat 64 n) = true)
    (hwrap : s.rip.toNat + n < 2 ^ 64) (hfetchable : s.fetchable (s.rip + BitVec.ofNat 64 n) = false) :
    s.fetchFault s.rip (s.rip + BitVec.ofNat 64 n) =
      some (.pf (s.fetchFaultCode (s.rip + BitVec.ofNat 64 n)) (s.rip + BitVec.ofNat 64 n)) := by
  rw [State.fetchFault, State.canonicalFrom, hcanonical, hfetchable, decide_eq_true (le_add_ofNat hwrap)]
  rfl

/-- No code at `pc` is code that stands there. -/
theorem codeAt_nil (a : Word) (s : State) : CodeAt a [] s := fun _ hk => absurd hk (Nat.not_lt_zero _)

/-- Settles O55: the first byte is the case of no code before it. -/
theorem fetchFaultsAndRefusedModes : Obligations.FetchFaultsAndRefusedModes := by
  intro s
  have hnil : decode [] = .truncated := rfl
  have hrip : s.rip + BitVec.ofNat 64 0 = s.rip := BitVec.add_zero _
  refine ⟨fun hm hc => ?first, fun hm hc hf => ?firstPf, fun hm => ?mode, fun bytes a hm hcode hlen ha => ?later⟩
  case first =>
    exact step_of_fetchFault hm (codeAt_nil _ s) (by decide) hnil
      (fetchFault_eq_gp0 (by decide) (.inl (hrip.symm ▸ hc)))
  case firstPf =>
    have hfault := fetchFault_eq_pf (s := s) (n := 0) (hrip.symm ▸ hc) s.rip.isLt (hrip.symm ▸ hf)
    have hstep := step_of_fetchFault hm (codeAt_nil _ s) (by decide) hnil hfault
    rw [hrip] at hstep
    exact ⟨_, hstep⟩
  case mode => exact if_pos hm
  case later =>
    subst ha
    refine ⟨fun hd h => ?_, fun hd hc hwrap hf => ?_, fun i hd => ?_⟩
    · exact step_of_fetchFault hm hcode hlen hd (fetchFault_eq_gp0 hlen h)
    · exact ⟨_, step_of_fetchFault hm hcode hlen hd (fetchFault_eq_pf hc hwrap hf)⟩
    · exact step_of_codeAt hm hcode hlen.le (decode_append hd)

/-! ## Straight-line code (R135) -/

/-- Code is its first part and its second part after it. -/
theorem codeAt_append {base : Word} {xs ys : List Byte} {s : State} (h : CodeAt base (xs ++ ys) s) :
    CodeAt base xs s ∧ CodeAt (base + BitVec.ofNat 64 xs.length) ys s := by
  refine ⟨fun k hk => ?_, fun k hk => ?_⟩
  · have := h k (by rw [List.length_append]; omega)
    rwa [List.getElem_append_left hk] at this
  · have := h (xs.length + k) (by rw [List.length_append]; omega)
    rw [List.getElem_append_right (Nat.le_add_right _ _), BitVec.ofNat_add, ← BitVec.add_assoc] at this
    simp only [Nat.add_sub_cancel_left] at this
    obtain ⟨hwrap, hrest⟩ := this
    refine ⟨?_, hrest⟩
    rw [BitVec.toNat_add, BitVec.toNat_ofNat, Nat.mod_eq_of_lt (show xs.length < 2 ^ 64 by omega),
      Nat.mod_eq_of_lt (by omega)]
    omega

/-- Completing a form leaves code where it stands. -/
theorem codeAt_complete {base : Word} {bytes : List Byte} {s : State} (h : CodeAt base bytes s) (n : VReg)
    (v : BitVec Config.maxVL) (len : Nat) : CodeAt base bytes (s.complete n v len) := h

section
variable {M : Host.Core} {s t : M.State} (k : Nat)

theorem run_succ_of_next (h : M.step s = .next t) : M.run (k + 1) s = M.run k t := by
  rw [Host.Core.run, h]

theorem run_succ_of_fault {f : M.Fault} (h : M.step s = .fault f) : M.run (k + 1) s = .fault f := by
  rw [Host.Core.run, h]

theorem run_succ_of_refused {r : M.Refusal} (h : M.step s = .refused r) : M.run (k + 1) s = .refused r := by
  rw [Host.Core.run, h]

end

/-- Encodings that stand one after the other run one after the other. -/
theorem run_of_codeAt (is : List Instr) (s : State) (hm : Mode64 s) (hwf : ∀ i ∈ is, i.wellFormed = true)
    (hc : CodeAt s.rip (is.flatMap encode) s) : Host.Core.run Sys2Proof.core is.length s = execAll is s := by
  induction is generalizing s with
  | nil => rfl
  | cons i is ih =>
    have hi := hwf i List.mem_cons_self
    rw [List.flatMap_cons] at hc
    obtain ⟨hfirst, hrest⟩ := codeAt_append hc
    rw [encode_length hi] at hrest
    have hstep : step s = exec i s := encodedInstructionRuns s i hm hi hfirst
    rw [List.length_cons, execAll]
    cases he : exec i s with
    | next t =>
      refine (run_succ_of_next (M := Sys2Proof.core) is.length (hstep.trans he)).trans ?_
      obtain rfl := eq_complete_of_exec_eq_next he
      exact ih _ hm (fun j hj => hwf j (List.mem_cons_of_mem i hj)) (codeAt_complete hrest _ _ _)
    | fault f => exact run_succ_of_fault (M := Sys2Proof.core) is.length (hstep.trans he)
    | refused r => exact run_succ_of_refused (M := Sys2Proof.core) is.length (hstep.trans he)

/-- Forms that all complete move `pc` by the sum of their lengths. -/
theorem rip_of_execAll (is : List Instr) {s t : State} (h : execAll is s = .next t) :
    t.rip = s.rip + BitVec.ofNat 64 (is.map Instr.len).sum := by
  induction is generalizing s with
  | nil =>
    cases h
    exact (BitVec.add_zero _).symm
  | cons i is ih =>
    rw [execAll] at h
    cases he : exec i s with
    | next u =>
      rw [he] at h
      rw [ih h, eq_complete_of_exec_eq_next he, complete_rip, List.map_cons, List.sum_cons, BitVec.ofNat_add,
        BitVec.add_assoc]
    | fault f => rw [he] at h; cases h
    | refused r => rw [he] at h; cases h

/-- Settles O56: a run that completes has no fault, and ends where the lengths add up to. -/
theorem straightLineCodeRunsInOrder : Obligations.StraightLineCodeRunsInOrder := by
  intro is s hm hwf hc
  have hrun := run_of_codeAt is s hm hwf hc
  refine ⟨hrun, fun t ht => ?_⟩
  rw [ht] at hrun
  constructor
  · rintro ⟨hpos, _⟩ rfl
    exact Nat.lt_irrefl 0 hpos
  · intro hne
    refine ⟨List.length_pos_iff.mpr hne, hrun, fun f hf => ?_, rip_of_execAll is ht⟩
    cases hrun.symm.trans hf

end Sys2Proof.Machine
end
